-- ==== Sys2Proof/Word.lean ====
section
/-!
DEFINITION. The word types of the block (00_scope.md R10, R11): a byte is 8 bits, a codec cursor is
`CNT_W` = 9 bits. Every value is unsigned; the only arithmetic the block does on a stored word is the
cursor's increment (R108).
-/

namespace Sys2Proof

/-- A byte, 8 bits, bit 0 the least significant (00_scope.md R10). -/
abbrev Byte := BitVec 8

/-- A codec cursor, `CNT_W` = 9 bits (10_state.md R25, R26; decision D3). -/
abbrev Cnt := BitVec 9

/-- The cursor after one more byte (30_encoding.md R108: exact, the largest value stored is 256). -/
def Cnt.succ (c : Cnt) : Cnt := c + 1#9

end Sys2Proof
end

