-- ==== Sys2Proof/Config.lean ====
section
/-!
DEFINITION. What one implementation fixes, and the free values.

`Params` holds the open parameters of 00_scope.md R8 and the queue capacities of 20_memory.md R70. A value of
`Params` carries the proofs of the constraints, so an instantiation that violates them does not build
(93_implementation_defined.md U3, U4). A theorem about every state is a theorem about every legal instantiation,
since State holds a `Params`.

The `opaque` constants are the spec's unspecified values (`any8()` of R12, "unspecified" of 10_state.md R50):
nothing can evaluate one, so no proof can lean on a value of one.
-/

namespace Sys2Proof

/-- The open parameters (00_scope.md R8; 20_memory.md R70). They are constant (R8). -/
structure Params where
  /-- `C_IN`, the number of slots of the inbound ring array. -/
  cIn : Nat
  /-- `C_OUT`, the number of slots of the outbound ring array. -/
  cOut : Nat
  /-- `ERR_BUFFER_FULL`. -/
  errBufferFull : Byte
  /-- `ERR_QUEUE_REJECTED`. -/
  errQueueRejected : Byte
  /-- `QCAP_IN`, the capacity of the inbound queue, in messages. -/
  qcapIn : Nat
  /-- `QCAP_OUT`, the capacity of the outbound queue, in messages. -/
  qcapOut : Nat
  two_le_cIn : 2 ≤ cIn
  two_le_cOut : 2 ≤ cOut
  one_le_qcapIn : 1 ≤ qcapIn
  one_le_qcapOut : 1 ≤ qcapOut
  errBufferFull_ne_zero : errBufferFull ≠ 0#8
  errQueueRejected_ne_zero : errQueueRejected ≠ 0#8
  errBufferFull_noData : errBufferFull.extractLsb' 0 2 = 0#2
  errQueueRejected_noData : errQueueRejected.extractLsb' 0 2 = 0#2
  errCodes_differ : errBufferFull ≠ errQueueRejected
deriving DecidableEq, Repr

/-- The named instantiation `T0` (00_scope.md R9). It fixes no parameter of the hardware. -/
def Params.T0 : Params where
  cIn := 8
  cOut := 8
  errBufferFull := 0x04#8
  errQueueRejected := 0x08#8
  qcapIn := 4
  qcapOut := 4
  two_le_cIn := by decide
  two_le_cOut := by decide
  one_le_qcapIn := by decide
  one_le_qcapOut := by decide
  errBufferFull_ne_zero := by decide
  errQueueRejected_ne_zero := by decide
  errBufferFull_noData := by decide
  errQueueRejected_noData := by decide
  errCodes_differ := by decide

namespace Config

/-- `any8()`, drawn afresh: the byte of draw number `k` (00_scope.md R12; over-reads, 42_codec_encode.md R164). -/
opaque anyByte : Nat → Byte

/-- The unspecified content of slot `i` of a byte array not written since its contents became unspecified;
`gen` numbers that moment (10_state.md R31, R50; U7, U8). -/
opaque anyCell : Nat → Nat → Byte

/-- The unspecified `budget` after a `RESET` (10_state.md R50). -/
opaque anyNat : Nat → Nat

/-- The resolver's sampled bits after a `RESET`, which ends the invocation that held them (10_state.md R40). -/
opaque anyBit : Nat → Bool

end Config

end Sys2Proof
end

