-- ==== Sys2Proof/Syntax.lean ====
section
/-!
DEFINITION. What the block executes, as syntax: the four wire frames and the thirteen operations of
spec/opcode_table.json (30_encoding.md R93, R104), the words that carry them, and the names a decoder
refuses with.
-/

namespace Sys2Proof

/-- `IN` (0) and `OUT` (1): a ring, a turn of the resolver, or a queue direction (00_scope.md R15). -/
inductive Dir
  | inbound
  | outbound
deriving DecidableEq, Repr, Inhabited

/-- The four size classes of a type byte (30_encoding.md R92). -/
inductive SizeClass
  | noData
  | data1b
  | data2b
  | dataNb
deriving DecidableEq, Repr, Inhabited

/-- One constructor per row of spec/opcode_table.json. A frame carries its fields as 30_encoding.md R93
lays them out; an operation carries its operands as the table of R104 lists them. The budget of `RESOLVE`
is a natural number, as D7 allows. -/
inductive Instr
  | msgNoData (subtype : BitVec 6)
  | msgData1b (subtype : BitVec 6) (p0 : Byte)
  | msgData2b (subtype : BitVec 6) (p0 p1 : Byte)
  | msgDataNb (subtype : BitVec 6) (len : Byte) (payload : List Byte)
  | reset
  | start
  | resolve (n : Nat)
  | rxh
  | txh
  | rbPush (ring : Dir) (b : Byte)
  | rbPop (ring : Dir)
  | rbClear (ring : Dir)
  | decStep (b : Byte)
  | inTurn
  | encStep
  | errReport
  | arbSel
deriving DecidableEq, Repr, Inhabited

/-- The operands carried beside an `op_sel` code (30_encoding.md R104, opcode_table.json "carried beside
op_sel"): the shape says which of them are there. -/
inductive Operand
  | none
  | budget (n : Nat)
  | ring (r : BitVec 1)
  | ringByte (r : BitVec 1) (b : Byte)
  | byte (b : Byte)
deriving DecidableEq, Repr, Inhabited

/-- The words the machine is handed: the bytes of one wire frame, byte 0 first (R93), or a 4-bit
operation-select code with its operands beside it (R104). The spec lays no binary form over the two
together; keeping them apart is assumption 3. -/
inductive CodeWord
  | frame (bytes : List Byte)
  | op (sel : BitVec 4) (operand : Operand)
deriving DecidableEq, Repr, Inhabited

/-- Why words are no instruction. -/
inductive DecodeError
  /-- A frame of no bytes: even the shortest frame has its type byte (30_encoding.md R96). -/
  | emptyFrame
  /-- The bytes end before the frame's length (R96). -/
  | truncatedFrame
  /-- Bytes are left over after the frame's length (R96). -/
  | trailingBytes
  /-- `op_sel` codes `1101` to `1111` (R104: "a model's decoder refuses them"; U14). -/
  | unassignedOpSel (sel : BitVec 4)
  /-- The operands beside `op_sel` are not those R104 lists for it. -/
  | operandMismatch (sel : BitVec 4)
deriving DecidableEq, Repr, Inhabited

end Sys2Proof
end

