-- ==== Sys2Proof/WellFormed.lean ====
section
/-!
DEFINITION. Well-formed instructions. Every field but one is well formed by its type: the payload of an
`F_DATA_NB` frame has exactly as many bytes as its length byte says (30_encoding.md R93, R94).
-/

namespace Sys2Proof

/-- The check of one instruction (30_encoding.md R93: an NB frame has `2 + L` bytes). -/
def Instr.wellFormed : Instr → Bool
  | .msgNoData _ => true
  | .msgData1b _ _ => true
  | .msgData2b _ _ _ => true
  | .msgDataNb _ len payload => payload.length == len.toNat
  | .reset => true
  | .start => true
  | .resolve _ => true
  | .rxh => true
  | .txh => true
  | .rbPush _ _ => true
  | .rbPop _ => true
  | .rbClear _ => true
  | .decStep _ => true
  | .inTurn => true
  | .encStep => true
  | .errReport => true
  | .arbSel => true

end Sys2Proof
end

