-- ==== Sys2Proof/Decode.lean ====
section
/-!
DEFINITION. The fields of a type byte (30_encoding.md R91, R92, R97, R99), the decoder and, after it, the
encoder. Words are one wire frame (R93) or one operation (R104); decoding is total and refuses by name.
-/

namespace Sys2Proof

/-- `NPLACE`, the placeholder size of an NB message before its length byte (00_scope.md R8). -/
def nplace : Byte := 2#8

/-- `RESIZE_SHIFT`, the shift of the encoder's size re-derivation (00_scope.md R8; decision D2, conflict C1). -/
def resizeShift : Nat := 6

/-- The size class of a two-bit code (30_encoding.md R92; decision D1). -/
def classOfCode (c : BitVec 2) : SizeClass :=
  match c.toNat with
  | 0 => .noData
  | 1 => .data1b
  | 2 => .data2b
  | _ => .dataNb

/-- The two-bit code of a size class (30_encoding.md R92). -/
def codeOfClass : SizeClass → BitVec 2
  | .noData => 0b00#2
  | .data1b => 0b01#2
  | .data2b => 0b10#2
  | .dataNb => 0b11#2

/-- `class(t) = t[1:0]` (10_state.md R32). -/
def classOf (t : Byte) : SizeClass := classOfCode (t.extractLsb' 0 2)

/-- The subtype, `t[7:2]` (30_encoding.md R91). -/
def subtypeOf (t : Byte) : BitVec 6 := t.extractLsb' 2 6

/-- The type byte with a subtype and a class (30_encoding.md R91: subtype in bits [7:2], class in [1:0]). -/
def typeByte (subtype : BitVec 6) (c : SizeClass) : Byte := subtype ++ codeOfClass c

/-- `hdr(t)`, the header length: 2 for NB, 1 otherwise (10_state.md R32). -/
def hdr (t : Byte) : Nat :=
  match classOf t with
  | .dataNb => 2
  | _ => 1

/-- `size_of_class(t)`: 0, 1, 2, or the placeholder for NB (30_encoding.md R97). -/
def sizeOfClass (t : Byte) : Byte :=
  match classOf t with
  | .noData => 0#8
  | .data1b => 1#8
  | .data2b => 2#8
  | .dataNb => nplace

/-- The encoder's re-derived size, `type >> RESIZE_SHIFT` (30_encoding.md R99). -/
def resize (t : Byte) : Byte := t >>> resizeShift

/-- `frame_len(t, L)` (30_encoding.md R96). -/
def frameLen (t l : Byte) : Nat :=
  match classOf t with
  | .noData => 1
  | .data1b => 2
  | .data2b => 3
  | .dataNb => 2 + l.toNat

/-- The ring or direction a one-bit operand selects: `IN` = 0, `OUT` = 1 (00_scope.md R15). -/
def dirOfBit (b : BitVec 1) : Dir := if b = 0#1 then .inbound else .outbound

/-- The one-bit operand that selects a ring (00_scope.md R15). -/
def bitOfDir : Dir → BitVec 1
  | .inbound => 0#1
  | .outbound => 1#1

/-- One frame (30_encoding.md R93, R96): all 256 type bytes are legal (R101), so bytes are refused only for
their number. -/
def decodeFrame : List Byte → Except DecodeError Instr
  | [] => .error .emptyFrame
  | t :: rest =>
    match classOf t, rest with
    | .noData, [] => .ok (.msgNoData (subtypeOf t))
    | .noData, _ :: _ => .error .trailingBytes
    | .data1b, [] => .error .truncatedFrame
    | .data1b, [p0] => .ok (.msgData1b (subtypeOf t) p0)
    | .data1b, _ :: _ :: _ => .error .trailingBytes
    | .data2b, [] => .error .truncatedFrame
    | .data2b, [_] => .error .truncatedFrame
    | .data2b, [p0, p1] => .ok (.msgData2b (subtypeOf t) p0 p1)
    | .data2b, _ :: _ :: _ :: _ => .error .trailingBytes
    | .dataNb, [] => .error .truncatedFrame
    | .dataNb, len :: payload =>
      if payload.length = len.toNat then .ok (.msgDataNb (subtypeOf t) len payload)
      else if payload.length < len.toNat then .error .truncatedFrame
      else .error .trailingBytes

/-- One operation (30_encoding.md R104): `1101` to `1111` are refused, and so are operands an operation does
not have. -/
def decodeOp (sel : BitVec 4) (o : Operand) : Except DecodeError Instr :=
  match sel.toNat, o with
  | 0, .none => .ok .reset
  | 1, .none => .ok .start
  | 2, .budget n => .ok (.resolve n)
  | 3, .none => .ok .rxh
  | 4, .none => .ok .txh
  | 5, .ringByte r b => .ok (.rbPush (dirOfBit r) b)
  | 6, .ring r => .ok (.rbPop (dirOfBit r))
  | 7, .ring r => .ok (.rbClear (dirOfBit r))
  | 8, .byte b => .ok (.decStep b)
  | 9, .none => .ok .inTurn
  | 10, .none => .ok .encStep
  | 11, .none => .ok .errReport
  | 12, .none => .ok .arbSel
  | k, _ => if 13 ≤ k then .error (.unassignedOpSel sel) else .error (.operandMismatch sel)

/-- The decoder. -/
def decode : CodeWord → Except DecodeError Instr
  | .frame bytes => decodeFrame bytes
  | .op sel o => decodeOp sel o

/-- The words of an instruction (30_encoding.md R93, R104). -/
def encode : Instr → CodeWord
  | .msgNoData sub => .frame [typeByte sub .noData]
  | .msgData1b sub p0 => .frame [typeByte sub .data1b, p0]
  | .msgData2b sub p0 p1 => .frame [typeByte sub .data2b, p0, p1]
  | .msgDataNb sub len payload => .frame (typeByte sub .dataNb :: len :: payload)
  | .reset => .op 0b0000#4 .none
  | .start => .op 0b0001#4 .none
  | .resolve n => .op 0b0010#4 (.budget n)
  | .rxh => .op 0b0011#4 .none
  | .txh => .op 0b0100#4 .none
  | .rbPush r b => .op 0b0101#4 (.ringByte (bitOfDir r) b)
  | .rbPop r => .op 0b0110#4 (.ring (bitOfDir r))
  | .rbClear r => .op 0b0111#4 (.ring (bitOfDir r))
  | .decStep b => .op 0b1000#4 (.byte b)
  | .inTurn => .op 0b1001#4 .none
  | .encStep => .op 0b1010#4 .none
  | .errReport => .op 0b1011#4 .none
  | .arbSel => .op 0b1100#4 .none

/-! ### Words numbered as spec/opcode_table.json numbers them -/

/-- Byte `k` of a number, bits `8k+7 .. 8k`. -/
def byteAt (w k : Nat) : Byte := BitVec.ofNat 8 (w >>> (8 * k))

/-- The bytes of `w` from byte `k` on, `n` of them, byte 0 first. -/
def bytesFrom (w : Nat) : Nat → Nat → List Byte
  | _, 0 => []
  | k, n + 1 => byteAt w k :: bytesFrom w (k + 1) n

/-- The operands of all zeros that an `op_sel` code takes (30_encoding.md R104). -/
def zeroOperand (sel : BitVec 4) : Operand :=
  match sel.toNat with
  | 2 => .budget 0
  | 5 => .ringByte 0#1 0#8
  | 6 => .ring 0#1
  | 7 => .ring 0#1
  | 8 => .byte 0#8
  | _ => .none

/-- Whether a table word is an `op_sel` code (30_encoding.md R104) and not a frame. The two tables overlap in value
and nothing in the spec tells them apart, so this is the model's reading (assumption 3). Fewer than 8 bits are always
a code, 16 or more always a frame. Exactly one byte is a code when it is one of 4 to 12, which as a frame would be a
type byte of subtype 1 to 3, and a frame otherwise. -/
def isOpWord (nbits v : Nat) : Bool := nbits < 8 || (nbits < 16 && 4 ≤ v && v < 13)

/-- The words of the instruction whose bits are `v`: an `op_sel` code with its operands zero, or the bytes of a
frame, as many as its type byte and length byte say (30_encoding.md R96), bytes past the word's own being zero. -/
def wordOf (nbits v : Nat) : CodeWord :=
  if isOpWord nbits v then .op (BitVec.ofNat 4 v) (zeroOperand (BitVec.ofNat 4 v))
  else .frame (bytesFrom v 0 (frameLen (byteAt v 0) (byteAt v 1)))

/-- The words of the instruction whose bits are `w`, numbered as the table numbers them, every bit above `nbits`
zero. -/
def tableWord (nbits w : Nat) : CodeWord := wordOf nbits (w % 2 ^ nbits)

/-- The instruction the decoder reads from the table word `w` of `nbits` bits. -/
def decodeTableWord (nbits w : Nat) : Option Instr :=
  match decode (tableWord nbits w) with
  | .ok i => some i
  | .error _ => none

end Sys2Proof
end

