-- ==== Sys2Proof/Machine/State.lean ====
section
/-!
DEFINITION. The state, as plain data: the block's registers and byte arrays (10_state.md), the transient
values of an operation in progress (R40), the environment a model has to carry (R41, R42), the schedule the
environment chooses, the reasons a step stops, and the state after reset (R50).
-/

namespace Sys2Proof.Machine

/-- A byte array (20_memory.md R60): the slots written so far as (index, byte) pairs, indices strictly rising.
A slot not listed holds an unspecified byte, `Config.anyCell gen index` (10_state.md R31, R50): `gen` numbers
the moment the contents became unspecified. -/
structure Memory where
  cells : List Host.Cell
  gen : Nat
deriving DecidableEq, Repr, Inhabited

/-- One ring: `start` the consumer index, `end` the producer index, and its byte array (10_state.md R22, R23).
The capacity is a parameter, `C_IN` or `C_OUT`. -/
structure Ring where
  startIx : Nat
  endIx : Nat
  buf : Memory
deriving DecidableEq, Repr, Inhabited

/-- The decode cursor: `in_count`, `in_msg.type`, `in_msg.size`, `INPAY` (10_state.md R25, R29, R31). -/
structure Decoder where
  count : Cnt
  msgType : Byte
  msgSize : Byte
  pay : Memory
deriving DecidableEq, Repr, Inhabited

/-- The encode cursor: `out_count`, `out_msg.type`, `out_msg.size`, `out_msg.plen`, `OUTPAY` (10_state.md R26,
R30, R31). -/
structure Encoder where
  count : Cnt
  msgType : Byte
  msgSize : Byte
  plen : Byte
  pay : Memory
deriving DecidableEq, Repr, Inhabited

/-- A Message as it crosses a queue port (10_state.md R43): `plen`, the number of payload bytes, is at most 255,
so a longer message cannot be expressed (U18). -/
structure Message where
  type : Byte
  size : Byte
  payload : List Byte
  payload_le : payload.length ≤ 255
deriving DecidableEq, Repr

/-- The resolver's sampled predicates and chosen direction (10_state.md R40; 43_arbiter_resolver.md R181, R183). -/
structure Samples where
  inEmpty : Bool
  outOk : Bool
  dir : Dir
deriving DecidableEq, Repr, Inhabited

/-- The status or result an operation ends with (00_scope.md R13; 43_arbiter_resolver.md R183 for a direction). -/
inductive Status
  | ok
  | okByte (b : Byte)
  | okDir (d : Dir)
  | full
  | empty
  | queueFull
  | queueEmpty
  | more
  | complete
  | rejected
  | noByte
deriving DecidableEq, Repr, Inhabited

/-- The atomic actions the main context still owes (20_memory.md R76). An action carries the value the one before
it handed on (60_exceptions.md R237: the byte popped, the byte produced, the push's result, the code read).
`inLoop` says that an error report ends an iteration of `RESOLVE`, and so spends a unit of budget
(43_arbiter_resolver.md R187). -/
inductive Action
  | eval
  | pop
  | dec (b : Byte)
  | enc1
  | enc2 (b : Byte)
  | enc3 (pushed : Status)
  | err1 (inLoop : Bool)
  | err2 (code : Byte) (inLoop : Bool)
deriving DecidableEq, Repr, Inhabited

/-- The environment's moves (20_memory.md R69, R70), and the platform's start-up configuration, which decides
`TX_EN` (70_reset_and_hazards.md R264 step 2). -/
inductive EnvMove
  | rx (b : Byte)
  | txRdy
  | oqPush (m : Message)
  | iqPop
  | configured (txEn : Bool)
deriving DecidableEq, Repr

/-- What may come next in a run: an operation is invoked or a frame presented, the environment moves, or the
main context goes on with the operation in progress. -/
inductive Event
  | invoke (w : CodeWord)
  | env (m : EnvMove)
  | resume
deriving DecidableEq, Repr

/-- One entry of the schedule. `quantum` is how many atomic actions the main context may perform before other
agents act (20_memory.md R75, R76): `none` lets it run to the end of the operation. -/
structure Turn where
  event : Event
  quantum : Option Nat
deriving DecidableEq, Repr

/-- The four byte arrays (20_memory.md R60). -/
inductive Space
  | inBuf
  | outBuf
  | inPay
  | outPay
deriving DecidableEq, Repr, Inhabited

/-- The one reason the machine stops with a fault. -/
inductive Fault
  /-- An access to a slot the array does not have (20_memory.md R61: no operation ever forms such an index).
  Raised by a ring push or pop whose index is not below the capacity and by a payload store past slot 254,
  in states no run reaches only (`Obligations.StepsFromInvariantStatesNeverFault`). Safe. -/
  | noSuchSlot (space : Space) (index : Nat)
deriving DecidableEq, Repr

/-- Why a step is refused: schedules the spec tells a model to refuse. Each is safe: the machine stops. -/
inductive Refusal
  /-- An instruction without a meaning yet, in exec's arms only. No arm uses it. Safe. -/
  | notModelled (mnemonic : String)
  /-- The scheduled words are no instruction (30_encoding.md R104; U14). Raised by `step`. Safe. -/
  | undecodable (e : DecodeError)
  /-- A main-context operation invoked while another is in progress (43_arbiter_resolver.md R195,
  70_reset_and_hazards.md R281; U15). Raised by every main-context operation and frame. Safe. -/
  | mainBusy
  /-- `RXH` or `TXH` while its request is not pending and enabled (60_exceptions.md R231, R232; U12). Safe. -/
  | handlerNotEnabled
  /-- `START`, or `RESOLVE` with `TX_EN == 1`, before the platform's configuration is complete
  (70_reset_and_hazards.md R266; U16). Safe. -/
  | notConfigured
  /-- An environment move that is not enabled (20_memory.md R69, R70; U13), or a configuration after `START`
  (U5). Safe. -/
  | envNotEnabled
deriving DecidableEq, Repr

/-- The state. Grouped as in 10_state.md and INVENTORY.md; every field is plain data. -/
structure State where
  /-- The open parameters (00_scope.md R8); no step writes them. -/
  cfg : Params
  /-- `in_start`, `in_end`, `INBUF` (10_state.md R22). -/
  inRing : Ring
  /-- `out_start`, `out_end`, `OUTBUF` (R23). -/
  outRing : Ring
  /-- `in_count`, `in_msg`, `INPAY` (R25, R29, R31). -/
  dec : Decoder
  /-- `out_count`, `out_msg`, `OUTPAY` (R26, R30, R31). -/
  enc : Encoder
  /-- `tx_busy` (R33). -/
  txBusy : Bool
  /-- `last_error`, `0x00` meaning clear (R34). -/
  lastError : Byte
  /-- `rx_ie` (R35). -/
  rxIe : Bool
  /-- `tx_ie` (R36). -/
  txIe : Bool
  /-- `last_dir` (R38). -/
  lastDir : Dir
  /-- `budget` (R39). -/
  budget : Nat
  /-- `in_empty`, `out_ok`, `dir` as sampled (R40). -/
  samples : Samples
  /-- The atomic actions the operation in progress still owes, the next first; empty when the main context is
  idle (R40; 20_memory.md R76). -/
  todo : List Action
  /-- The status the last main-context operation (or `RESET`) ended with (00_scope.md R13). -/
  result : Status
  /-- The status the last `RXH` run ended with. -/
  rxResult : Status
  /-- The status the last `TXH` run ended with. -/
  txResult : Status
  /-- `TX_EN`, an input (R37). -/
  txEn : Bool
  /-- Whether the platform's start-up configuration is complete (70_reset_and_hazards.md R264, R266). -/
  configured : Bool
  /-- `rx_req`, environment (R41). -/
  rxReq : Bool
  /-- `rx_byte`, environment (R41). -/
  rxByte : Byte
  /-- `tx_req`, environment (R41). -/
  txReq : Bool
  /-- The inbound message queue, oldest first (20_memory.md R70). -/
  inQ : List Message
  /-- The outbound message queue, oldest first (20_memory.md R70). -/
  outQ : List Message
  /-- The environment's coming answers to the block's queue pushes: `true` refuses one that would fit
  (20_memory.md R71: a model may let the environment answer `QueueFull` at will). Empty: the strict queue. -/
  qAnswers : List Bool
  /-- The wire trace: the bytes written to `TXDATA`, the first first (R42; 20_memory.md R68). -/
  wire : List Byte
  /-- The schedule: what comes next, chosen by the environment (20_memory.md R75). -/
  agenda : List Turn
  /-- The quantum of the schedule entry now running. -/
  quantum : Option Nat
  /-- The number of free values drawn so far. -/
  draws : Nat
deriving DecidableEq, Repr

/-- A byte array whose contents are unspecified. -/
def Memory.unspecified (gen : Nat) : Memory := ⟨[], gen⟩

/-- The state after power-on reset of an instantiation (10_state.md R50). Registers R50 leaves unspecified hold
zero here, the model's choice (assumption 5); so do the samples and the results. -/
def State.resetOf (cfg : Params) (txEn : Bool) : State where
  cfg := cfg
  inRing := ⟨0, 0, .unspecified 0⟩
  outRing := ⟨0, 0, .unspecified 1⟩
  dec := ⟨0#9, 0#8, 0#8, .unspecified 2⟩
  enc := ⟨0#9, 0#8, 0#8, 0#8, .unspecified 3⟩
  txBusy := false
  lastError := 0x00#8
  rxIe := false
  txIe := false
  lastDir := .outbound
  budget := 0
  samples := ⟨false, false, .inbound⟩
  todo := []
  result := .ok
  rxResult := .ok
  txResult := .ok
  txEn := txEn
  configured := true
  rxReq := false
  rxByte := 0#8
  txReq := true
  inQ := []
  outQ := []
  qAnswers := []
  wire := []
  agenda := []
  quantum := none
  draws := 8

/-- The machine right after reset, in the named instantiation `T0` (00_scope.md R9; assumption 2). -/
def State.reset : State := State.resetOf Params.T0 true

end Sys2Proof.Machine
end

