-- ==== Sys2Proof/Machine/Operands.lean ====
section
/-!
DEFINITION. Operand selection: the ring a one-bit `ring` operand selects with its capacity and byte array
(40_ring_buffer.md R120), the queue a direction selects (20_memory.md R70 to R72), the ring successor
(30_encoding.md R107), and the reading and writing of one byte of an array (20_memory.md R60, R65).
-/

namespace Sys2Proof.Machine

/-- The byte at an index, if it is listed. -/
def lookupCell : List Host.Cell → Nat → Option Byte
  | [], _ => none
  | (a, v) :: rest, i => if a = i then some v else lookupCell rest i

/-- The list with index `i` holding `v`, indices still strictly rising. -/
def insertCell : List Host.Cell → Nat → Byte → List Host.Cell
  | [], i, v => [(i, v)]
  | (a, w) :: rest, i, v =>
    if i < a then (i, v) :: (a, w) :: rest
    else if i = a then (i, v) :: rest
    else (a, w) :: insertCell rest i v

/-- `MemRead(S:i, 1)` (00_scope.md R12). A slot not written since its contents became unspecified reads as a
free value: the ONE definition of what an unlisted index reads as (assumption 4). -/
def Memory.read (m : Memory) (i : Nat) : Byte :=
  match lookupCell m.cells i with
  | some v => v
  | none => Config.anyCell m.gen i

/-- `MemWrite(S:i, 1, v)` (00_scope.md R12). -/
def Memory.write (m : Memory) (i : Nat) (v : Byte) : Memory :=
  { m with cells := insertCell m.cells i v }

/-- The bytes `vs` written to slots `i`, `i+1`, … in ascending order (20_memory.md R62). -/
def Memory.writeFrom (m : Memory) (i : Nat) : List Byte → Memory
  | [] => m
  | v :: vs => (m.write i v).writeFrom (i + 1) vs

/-- Slots `i .. i+n-1`, in ascending order. -/
def Memory.readFrom (m : Memory) (i : Nat) : Nat → List Byte
  | 0 => []
  | n + 1 => m.read i :: m.readFrom (i + 1) n

theorem Memory.readFrom_length (m : Memory) (i n : Nat) : (m.readFrom i n).length = n := by
  induction n generalizing i with
  | zero => rfl
  | succ n ih => simp [Memory.readFrom, ih]

/-- "Allocation": slots `0 .. n-1` become a payload with unspecified contents, a free value each (10_state.md
R31; U8). The other slots keep theirs. -/
def Memory.allocate (m : Memory) (n gen : Nat) : Memory :=
  m.writeFrom 0 ((List.range n).map (Config.anyCell gen))

/-- The canonical form of a byte array of `bound` slots: indices strictly rising and below `bound`. An unlisted
index reads as a free value, which no entry can be compared with, so the form asks nothing more. -/
abbrev Memory.wf (bound : Nat) (m : Memory) : Prop :=
  m.cells.Pairwise (fun x y => x.1 < y.1) ∧ ∀ c ∈ m.cells, c.1 < bound

/-- `PAY_MAX`, the slots of each payload buffer (00_scope.md R8). -/
def payMax : Nat := 255

/-- The ring an operand selects (40_ring_buffer.md R120). -/
def State.ring (s : State) : Dir → Ring
  | .inbound => s.inRing
  | .outbound => s.outRing

/-- Write the selected ring. -/
def State.setRing (s : State) (r : Dir) (v : Ring) : State :=
  match r with
  | .inbound => { s with inRing := v }
  | .outbound => { s with outRing := v }

/-- The capacity of the selected ring: `C_IN` or `C_OUT` (40_ring_buffer.md R120). -/
def State.cap (s : State) : Dir → Nat
  | .inbound => s.cfg.cIn
  | .outbound => s.cfg.cOut

/-- The byte array of the selected ring (20_memory.md R60). -/
def ringSpace : Dir → Space
  | .inbound => .inBuf
  | .outbound => .outBuf

/-- The successor `(i + 1) mod C` of a ring index (30_encoding.md R107). -/
def ringNext (c i : Nat) : Nat := (i + 1) % c

/-- The queue of a direction (20_memory.md R70). -/
def State.queue (s : State) : Dir → List Message
  | .inbound => s.inQ
  | .outbound => s.outQ

/-- Write the queue of a direction. -/
def State.setQueue (s : State) (d : Dir) (q : List Message) : State :=
  match d with
  | .inbound => { s with inQ := q }
  | .outbound => { s with outQ := q }

/-- The capacity of the queue of a direction (20_memory.md R70). -/
def State.qcap (s : State) : Dir → Nat
  | .inbound => s.cfg.qcapIn
  | .outbound => s.cfg.qcapOut

/-- The byte of the next free draw, `any8()` (00_scope.md R12). -/
def State.drawByte (s : State) : Byte × State :=
  (Config.anyByte s.draws, { s with draws := s.draws + 1 })

end Sys2Proof.Machine
end

