-- ==== Sys2Proof/Machine/Flags.lean ====
section
/-!
DEFINITION. Every condition and flag the spec computes: the ring predicates (10_state.md R24), the codecs'
completion tests (41_codec_decode.md R144, 42_codec_encode.md R167), the resolver's predicates
(43_arbiter_resolver.md R181 to R183), the handlers' enables (60_exceptions.md R231, R232), and the writes of
`last_error`, `tx_busy` and `tx_ie` (10_state.md R33, R34, R36).
-/

namespace Sys2Proof.Machine

/-- `empty(R)` (10_state.md R24). -/
def Ring.isEmpty (r : Ring) : Bool := r.startIx == r.endIx

/-- `full(R)` for a ring of capacity `c` (10_state.md R24). -/
def Ring.isFull (c : Nat) (r : Ring) : Bool := ringNext c r.endIx == r.startIx

/-- `count(R) = (end - start) mod C`, computed as 30_encoding.md R107 says. -/
def Ring.count (c : Nat) (r : Ring) : Nat :=
  if r.startIx ≤ r.endIx then r.endIx - r.startIx else r.endIx + c - r.startIx

/-- The completion test of both codecs, on the type and size just written and the count at the start of the step
(41_codec_decode.md R144; 42_codec_encode.md R167; without subtraction, 30_encoding.md R108). -/
def frameComplete (count : Cnt) (t size : Byte) : Bool :=
  classOf t == .noData || count.toNat + 1 == hdr t + size.toNat

/-- The cursor after a step: 0 at completion, one more otherwise (41_codec_decode.md R145, R146;
42_codec_encode.md R167). -/
def nextCount (count : Cnt) (t size : Byte) : Cnt :=
  if frameComplete count t size then 0#9 else count.succ

/-- Record an error code in the sticky flag: a plain overwrite (60_exceptions.md R226). -/
def State.recordError (s : State) (code : Byte) : State := { s with lastError := code }

/-- The kick (42_codec_encode.md R166): `tx_busy`, then `tx_ie`, only when `tx_busy` is found 0. -/
def State.kick (s : State) : State :=
  if s.txBusy then s else { s with txBusy := true, txIe := true }

/-- What `TXH` does on `Empty`: the transmitter is no longer busy and its interrupt is masked
(44_interrupt_handlers.md R212). -/
def State.stopTransmitter (s : State) : State := { s with txBusy := false, txIe := false }

/-- The receive request is pending and enabled (60_exceptions.md R231). -/
def State.rxTaken (s : State) : Bool := s.rxReq && s.rxIe

/-- The transmit-ready request is pending and enabled (60_exceptions.md R232). -/
def State.txTaken (s : State) : Bool := s.txReq && s.txIe

/-- `oq_empty` (20_memory.md R73). -/
def State.oqEmpty (s : State) : Bool := s.outQ.isEmpty

/-- `in_empty` as sampled (43_arbiter_resolver.md R181). -/
def State.inEmptyNow (s : State) : Bool := s.inRing.isEmpty

/-- `out_work`: a message in flight, or one queued (43_arbiter_resolver.md R181). -/
def State.outWorkNow (s : State) : Bool := s.enc.count != 0#9 || !s.oqEmpty

/-- `out_ok` as sampled (43_arbiter_resolver.md R181). -/
def State.outOkNow (s : State) : Bool :=
  !(s.outRing.isFull s.cfg.cOut) && s.outWorkNow && s.txEn

/-- The stop condition (43_arbiter_resolver.md R182). -/
def State.stopNow (s : State) : Bool := s.budget == 0 || (s.inEmptyNow && !s.outOkNow)

/-- Turn selection, the three rules (43_arbiter_resolver.md R183). -/
def selectDir (inEmpty outOk : Bool) (lastDir : Dir) : Dir :=
  if inEmpty then .outbound
  else if !outOk then .inbound
  else match lastDir with
    | .inbound => .outbound
    | .outbound => .inbound

/-- Spend one unit of budget, at the end of an iteration (43_arbiter_resolver.md R187). -/
def State.spend (s : State) (inLoop : Bool) : State :=
  if inLoop then { s with budget := s.budget - 1 } else s

end Sys2Proof.Machine
end

