-- ==== Sys2Proof/Machine/Ops.lean ====
section
/-!
DEFINITION. The named operations the meanings are built from: the three ring primitives (40_ring_buffer.md R121
to R123), the queue ports (20_memory.md R71, R72), the serial data registers (R67, R68), what stands where a
processor takes an exception (entering a handler, 60_exceptions.md R236, and returning, R237), and starting and
ending a main-context operation.
-/

namespace Sys2Proof.Machine

/-- `RB_PUSH` (40_ring_buffer.md R121): `Full` and no change, or the byte stored at `end` and `end` advanced. -/
def ringPush (r : Dir) (b : Byte) (s : State) : Except Fault (Status × State) :=
  if (s.ring r).isFull (s.cap r) then .ok (.full, s)
  else if (s.ring r).endIx < s.cap r then
    .ok (.ok, s.setRing r
      { s.ring r with
        buf := (s.ring r).buf.write (s.ring r).endIx b
        endIx := ringNext (s.cap r) (s.ring r).endIx })
  else .error (.noSuchSlot (ringSpace r) (s.ring r).endIx)

/-- `RB_POP` (40_ring_buffer.md R122): `Empty` and no change, or the byte at `start` and `start` advanced. -/
def ringPop (r : Dir) (s : State) : Except Fault (Option Byte × State) :=
  if (s.ring r).isEmpty then .ok (none, s)
  else if (s.ring r).startIx < s.cap r then
    .ok (some ((s.ring r).buf.read (s.ring r).startIx), s.setRing r
      { s.ring r with startIx := ringNext (s.cap r) (s.ring r).startIx })
  else .error (.noSuchSlot (ringSpace r) (s.ring r).startIx)

/-- `RB_CLEAR` (40_ring_buffer.md R123; decision D21): `start <- end`. -/
def ringClear (r : Dir) (s : State) : State :=
  s.setRing r { s.ring r with startIx := (s.ring r).endIx }

/-- Whether the queue refuses a push: it is full, or the environment's next answer is a refusal
(20_memory.md R71; U10). -/
def State.queueRefuses (s : State) (d : Dir) : Bool :=
  s.qAnswers.head? == some true || decide (s.qcap d ≤ (s.queue d).length)

/-- `queue_push(m, d)` (20_memory.md R71). One answer of the environment is used up. -/
def queuePush (m : Message) (d : Dir) (s : State) : Status × State :=
  if s.queueRefuses d then (.queueFull, { s with qAnswers := s.qAnswers.tail })
  else (.ok, ({ s with qAnswers := s.qAnswers.tail }).setQueue d (s.queue d ++ [m]))

/-- `queue_pop(d)` (20_memory.md R72): `none` is `QueueEmpty`. -/
def queuePop (d : Dir) (s : State) : Option Message × State :=
  match s.queue d with
  | [] => (none, s)
  | m :: rest => (some m, s.setQueue d rest)

/-- `UartRead()` (20_memory.md R67): the received byte, `any8()` when none is pending, and the request cleared. -/
def uartRead (s : State) : Byte × State :=
  if s.rxReq then (s.rxByte, { s with rxReq := false })
  else (s.drawByte.1, s.drawByte.2)

/-- `UartWrite(v)` (20_memory.md R68): the byte is on the wire trace and the ready request drops. -/
def uartWrite (v : Byte) (s : State) : State :=
  { s with wire := s.wire ++ [v], txReq := false }

/-- A run that may fault, as an outcome of a step. -/
def outcomeOf : Except Fault State → Host.Outcome State Fault Refusal
  | .ok s => .next s
  | .error f => .fault f

/-- Entering a handler (60_exceptions.md R236): it is taken only while its request is pending and enabled (R231,
R232), saves nothing and changes nothing; returning (R237) restores nothing, so the handler's own effect is the
whole of it. -/
def takeHandler (taken : Bool) (handler : State → Except Fault State) (s : State) :
    Host.Outcome State Fault Refusal :=
  if taken then outcomeOf (handler s) else .refused .handlerNotEnabled

/-- A main-context operation of one atomic action: only while no other is in progress (43_arbiter_resolver.md
R195). -/
def whenIdle (s : State) (k : Host.Outcome State Fault Refusal) : Host.Outcome State Fault Refusal :=
  if s.todo = [] then k else .refused .mainBusy

/-- End an operation with a status (00_scope.md R13). -/
def State.ended (s : State) (r : Status) : State := { s with result := r }

/-- Put an action before the ones still owed. -/
def State.owe (s : State) (as : List Action) : State := { s with todo := as ++ s.todo }

end Sys2Proof.Machine
end

