-- ==== Sys2Proof/Machine/Actions.lean ====
section
/-!
DEFINITION. The atomic actions of the main context (20_memory.md R76) and the running of the actions an
operation owes. Other agents act between two actions and nowhere else (R75): a schedule entry's quantum says
after how many actions the main context is suspended.
-/

namespace Sys2Proof.Machine

/-- The finished inbound message, by value (41_codec_decode.md R145; 10_state.md R44): `(type, size, INPAY[0 ..
size-1])`. -/
def Decoder.message (d : Decoder) : Message where
  type := d.msgType
  size := d.msgSize
  payload := d.pay.readFrom 0 d.msgSize.toNat
  payload_le := by
    rw [Memory.readFrom_length]
    exact Nat.le_of_lt_succ d.msgSize.isLt

/-- The case effect of `DEC_STEP` (41_codec_decode.md R141 to R143). The type byte and the length byte allocate a
payload whose contents are unspecified (10_state.md R31). -/
def decPlace (b : Byte) (s : State) : Except Fault State :=
  if s.dec.count = 0#9 then
    .ok { s with
      dec := { s.dec with
        msgType := b
        msgSize := sizeOfClass b
        pay := s.dec.pay.allocate (sizeOfClass b).toNat s.draws }
      draws := s.draws + 1 }
  else if s.dec.count = 1#9 ∧ classOf s.dec.msgType = .dataNb then
    .ok { s with
      dec := { s.dec with msgSize := b, pay := s.dec.pay.allocate b.toNat s.draws }
      draws := s.draws + 1 }
  else if s.dec.count.toNat - hdr s.dec.msgType < payMax then
    .ok { s with
      dec := { s.dec with pay := s.dec.pay.write (s.dec.count.toNat - hdr s.dec.msgType) b } }
  else .error (.noSuchSlot .inPay (s.dec.count.toNat - hdr s.dec.msgType))

/-- Delivery of the finished message (41_codec_decode.md R145). -/
def decDeliver (s : State) : State :=
  match queuePush s.dec.message .inbound s with
  | (.ok, s') => { s' with dec := { s'.dec with count := 0#9 }, result := .complete }
  | (_, s') =>
    { s'.recordError s'.cfg.errQueueRejected with
      dec := { s'.dec with count := 0#9 }, result := .rejected }

/-- The end of `DEC_STEP`: the completion test on the values just written, then delivery or one more byte
(41_codec_decode.md R144 to R146). -/
def decFinish (s : State) : State :=
  if frameComplete s.dec.count s.dec.msgType s.dec.msgSize then decDeliver s
  else { s with dec := { s.dec with count := s.dec.count.succ }, result := .more }

/-- `A_DEC`: `DEC_STEP(b)` (41_codec_decode.md R147). -/
def actDec (b : Byte) (s : State) : Except Fault State :=
  match decPlace b s with
  | .ok s' => .ok (decFinish s')
  | .error f => .error f

/-- `A_POP`: `RB_POP(IN)` of an inbound turn; the byte popped is handed to `A_DEC` (41_codec_decode.md R148). -/
def actPop (s : State) : Except Fault State :=
  match ringPop .inbound s with
  | .ok (some b, s') => .ok (s'.owe [.dec b])
  | .ok (none, s') => .ok (s'.ended .empty)
  | .error f => .error f

/-- The encode cursor loaded with a dequeued message (42_codec_encode.md R162): for the classes other than NB the
size is re-derived from the type byte. -/
def Encoder.load (e : Encoder) (m : Message) : Encoder where
  count := e.count
  msgType := m.type
  msgSize := if classOf m.type = .dataNb then m.size else resize m.type
  plen := BitVec.ofNat 8 m.payload.length
  pay := e.pay.writeFrom 0 m.payload

/-- `A_ENC1`: produce the byte (42_codec_encode.md R161 to R164); it is handed to `A_ENC2`. An over-read gives
`any8()`. -/
def actEnc1 (s : State) : State :=
  if s.enc.count = 0#9 then
    match queuePop .outbound s with
    | (none, s') => s'.ended .noByte
    | (some m, s') => { s' with enc := s'.enc.load m }.owe [.enc2 m.type]
  else if s.enc.count = 1#9 ∧ classOf s.enc.msgType = .dataNb then
    s.owe [.enc2 s.enc.msgSize]
  else if s.enc.count.toNat - hdr s.enc.msgType < s.enc.plen.toNat then
    s.owe [.enc2 (s.enc.pay.read (s.enc.count.toNat - hdr s.enc.msgType))]
  else s.drawByte.2.owe [.enc2 s.drawByte.1]

/-- `A_ENC2`: push the byte; on `Full` it is dropped and the error recorded (42_codec_encode.md R165). -/
def actEnc2 (b : Byte) (s : State) : Except Fault State :=
  match ringPush .outbound b s with
  | .ok (.full, s') => .ok ((s'.recordError s'.cfg.errBufferFull).owe [.enc3 .full])
  | .ok (p, s') => .ok (s'.owe [.enc3 p])
  | .error f => .error f

/-- `A_ENC3`: the kick, then the cursor (42_codec_encode.md R166, R167). -/
def actEnc3 (pushed : Status) (s : State) : State :=
  { s.kick with
    enc := { s.enc with count := nextCount s.enc.count s.enc.msgType s.enc.msgSize }
    result := pushed }

/-- The error message (43_arbiter_resolver.md R186): zero payload, its type the code. -/
def errorMessage (code : Byte) : Message := ⟨code, 0#8, [], by simp⟩

/-- `A_ERR1`: read `last_error`; if set, offer the report to the outbound queue, whatever it answers
(43_arbiter_resolver.md R186). With no error the report ends here, and the budget is spent (R187). -/
def actErr1 (inLoop : Bool) (s : State) : State :=
  if s.lastError = 0x00#8 then (s.spend inLoop).ended .ok
  else (queuePush (errorMessage s.lastError) .outbound s).2.owe [.err2 s.lastError inLoop]

/-- `A_ERR2`: clear `last_error`, whatever it holds by now, and spend the budget (43_arbiter_resolver.md R186,
R187). The code read is only held. -/
def actErr2 (_code : Byte) (inLoop : Bool) (s : State) : State :=
  ({ s with lastError := 0x00#8 }.spend inLoop).ended .ok

/-- `ARB_SEL` on the sampled predicates: the direction, written to `last_dir` (43_arbiter_resolver.md R183,
R184). -/
def arbSelect (s : State) : State :=
  { s with
    lastDir := selectDir s.samples.inEmpty s.samples.outOk s.lastDir
    samples := { s.samples with dir := selectDir s.samples.inEmpty s.samples.outOk s.lastDir } }

/-- The sample of an iteration (43_arbiter_resolver.md R181). -/
def takeSample (s : State) : State :=
  { s with samples := { s.samples with inEmpty := s.inEmptyNow, outOk := s.outOkNow } }

/-- The step a turn performs (43_arbiter_resolver.md R185). -/
def turnActions : Dir → List Action
  | .inbound => [.pop]
  | .outbound => [.enc1]

/-- `A_EVAL`: sample, stop or select, and owe the iteration and the next `A_EVAL` (43_arbiter_resolver.md R181 to
R188). -/
def actEval (s : State) : State :=
  if s.stopNow then (takeSample s).ended .ok
  else
    (arbSelect (takeSample s)).owe
      (turnActions (arbSelect (takeSample s)).samples.dir ++ [.err1 true, .eval])

/-- One atomic action of the main context. -/
def act (a : Action) (s : State) : Except Fault State :=
  match a with
  | .eval => .ok (actEval s)
  | .pop => actPop s
  | .dec b => actDec b s
  | .enc1 => .ok (actEnc1 s)
  | .enc2 b => actEnc2 b s
  | .enc3 p => .ok (actEnc3 p s)
  | .err1 l => .ok (actErr1 l s)
  | .err2 c l => .ok (actErr2 c l s)

/-- Up to `n` atomic actions of the operation in progress. -/
def runMain : Nat → State → Except Fault State
  | 0, s => .ok s
  | n + 1, s =>
    match s.todo with
    | [] => .ok s
    | a :: rest =>
      match act a { s with todo := rest } with
      | .ok s' => runMain n s'
      | .error f => .error f

/-- A number of actions that ends every operation: an owed action is followed by at most two of its own, and a
`RESOLVE` of budget `N` performs at most `6 * N + 1` (43_arbiter_resolver.md R190). -/
def State.workBound (s : State) : Nat :=
  (if .eval ∈ s.todo then 6 * s.budget else 0) + 3 * s.todo.length

/-- How many actions the main context performs before other agents act. -/
def State.slice (s : State) : Nat :=
  match s.quantum with
  | none => s.workBound
  | some k => k

/-- The main context goes on with the operation in progress, for one slice. -/
def goOn (s : State) : Host.Outcome State Fault Refusal := outcomeOf (runMain s.slice s)

/-- Invoke a main-context operation: it owes its actions and runs for one slice (20_memory.md R76). -/
def invoke (as : List Action) (s : State) : Host.Outcome State Fault Refusal :=
  whenIdle s (goOn (s.owe as))

end Sys2Proof.Machine
end

