-- ==== Sys2Proof/Machine/Codec.lean ====
section
/-!
DEFINITION. The codec's operations: `DEC_STEP`, `IN_TURN` (41_codec_decode.md) and `ENC_STEP`
(42_codec_encode.md).
-/

namespace Sys2Proof.Machine

/-- `DEC_STEP b` (41_codec_decode.md R147): the one action `A_DEC`. -/
def execDecStep (b : Byte) (s : State) : Host.Outcome State Fault Refusal :=
  invoke [.dec b] s

/-- `IN_TURN` (41_codec_decode.md R148): `A_POP`, then `A_DEC` when a byte was popped. -/
def execInTurn (s : State) : Host.Outcome State Fault Refusal :=
  invoke [.pop] s

/-- `ENC_STEP` (42_codec_encode.md R168): `A_ENC1`, then `A_ENC2` and `A_ENC3` when a byte was produced. -/
def execEncStep (s : State) : Host.Outcome State Fault Refusal :=
  invoke [.enc1] s

end Sys2Proof.Machine
end

