-- ==== Sys2Proof/Machine/Control.lean ====
section
/-!
DEFINITION. `RESET` and `START` (70_reset_and_hazards.md R260, R263), and the environment's moves (20_memory.md
R69, R70), which are no rows of the opcode table.
-/

namespace Sys2Proof.Machine

/-- The state `RESET` leaves (70_reset_and_hazards.md R260; 10_state.md R50). What R50 calls unspecified becomes a
free value: the four byte arrays, `in_msg`, `out_msg`, `budget`, and the samples of the `RESOLVE` it ends. The
queues, the wire and the platform's inputs are not the block's (10_state.md R45); `rx_req` and `tx_req` are as
R50 gives them (assumption 6). -/
def resetBlock (s : State) : State :=
  { s with
    inRing := ⟨0, 0, .unspecified s.draws⟩
    outRing := ⟨0, 0, .unspecified (s.draws + 1)⟩
    dec := ⟨0#9, Config.anyByte s.draws, Config.anyByte (s.draws + 1), .unspecified (s.draws + 2)⟩
    enc := ⟨0#9, Config.anyByte (s.draws + 2), Config.anyByte (s.draws + 3), Config.anyByte (s.draws + 4),
      .unspecified (s.draws + 3)⟩
    txBusy := false
    lastError := 0x00#8
    rxIe := false
    txIe := false
    lastDir := .outbound
    budget := Config.anyNat s.draws
    samples := ⟨Config.anyBit s.draws, Config.anyBit (s.draws + 1),
      if Config.anyBit (s.draws + 2) then .outbound else .inbound⟩
    todo := []
    rxReq := false
    txReq := true
    draws := s.draws + 5 }

/-- `RESET` (70_reset_and_hazards.md R260). It ends any `RESOLVE` in progress. -/
def execReset (s : State) : Host.Outcome State Fault Refusal :=
  .next ((resetBlock s).ended .ok)

/-- `START` (70_reset_and_hazards.md R263): `rx_ie <- 1`, once the platform's configuration is complete (R266). -/
def execStart (s : State) : Host.Outcome State Fault Refusal :=
  if s.configured then whenIdle s (.next ({ s with rxIe := true }.ended .ok))
  else .refused .notConfigured

/-- A move of the environment (20_memory.md R69, R70; 70_reset_and_hazards.md R264 step 2). A move that is not
enabled is refused (U13); `TX_EN` is constant from `START` on (10_state.md R37; U5). DESIGN CHOICE (assumption 14): the
guard is `rx_ie`, which a `RESET` clears, so after a `RESET` of a started block the configuration may be done again and
may change `TX_EN`, as the boot sequence of R264 starts again at its step 1. -/
def envMove (m : EnvMove) (s : State) : Host.Outcome State Fault Refusal :=
  match m with
  | .rx b => if s.rxReq then .refused .envNotEnabled else .next { s with rxByte := b, rxReq := true }
  | .txRdy => if s.txReq then .refused .envNotEnabled else .next { s with txReq := true }
  | .oqPush msg =>
    if s.outQ.length < s.cfg.qcapOut then .next { s with outQ := s.outQ ++ [msg] }
    else .refused .envNotEnabled
  | .iqPop =>
    match s.inQ with
    | [] => .refused .envNotEnabled
    | _ :: rest => .next { s with inQ := rest }
  | .configured tx =>
    if s.rxIe then .refused .envNotEnabled else .next { s with txEn := tx, configured := true }

end Sys2Proof.Machine
end

