-- ==== Sys2Proof/Machine/Frames.lean ====
section
/-!
DEFINITION. The four wire frames (30_encoding.md R93): a frame's meaning is what the decoder does with its bytes,
one `DEC_STEP` a byte, byte 0 first (41_codec_decode.md R140, R147; opcode_table.json "decoded by R147"). A frame
that meets the decoder between frames delivers its message; one that meets it inside another frame is taken as
that frame's remainder (70_reset_and_hazards.md R277, R278). Each byte is an atomic action of its own.
-/

namespace Sys2Proof.Machine

/-- The decoder is fed the bytes of a frame. -/
def feedFrame (bytes : List Byte) (s : State) : Host.Outcome State Fault Refusal :=
  invoke (bytes.map .dec) s

/-- `F_NO_DATA`: one byte (30_encoding.md R93). -/
def execMsgNoData (subtype : BitVec 6) (s : State) : Host.Outcome State Fault Refusal :=
  feedFrame [typeByte subtype .noData] s

/-- `F_DATA_1B`: two bytes (30_encoding.md R93). -/
def execMsgData1b (subtype : BitVec 6) (p0 : Byte) (s : State) : Host.Outcome State Fault Refusal :=
  feedFrame [typeByte subtype .data1b, p0] s

/-- `F_DATA_2B`: three bytes (30_encoding.md R93). -/
def execMsgData2b (subtype : BitVec 6) (p0 p1 : Byte) (s : State) : Host.Outcome State Fault Refusal :=
  feedFrame [typeByte subtype .data2b, p0, p1] s

/-- `F_DATA_NB`: the type byte, the length byte and the payload (30_encoding.md R93). -/
def execMsgDataNb (subtype : BitVec 6) (len : Byte) (payload : List Byte) (s : State) :
    Host.Outcome State Fault Refusal :=
  feedFrame (typeByte subtype .dataNb :: len :: payload) s

end Sys2Proof.Machine
end

