-- ==== Sys2Proof/Machine/Handlers.lean ====
section
/-!
DEFINITION. The two interrupt handlers (44_interrupt_handlers.md): each one atomic action, taken while its request
is pending and enabled, at any point between two actions of the main context (60_exceptions.md R238).
-/

namespace Sys2Proof.Machine

/-- `A_RXH` (44_interrupt_handlers.md R211). It ends with `Ok` or `Full`, as its row of opcode_table.json says. -/
def actRxh (s : State) : Except Fault State :=
  match ringPush .inbound (uartRead s).1 (uartRead s).2 with
  | .ok (.full, s') => .ok { s'.recordError s'.cfg.errBufferFull with rxResult := .full }
  | .ok (st, s') => .ok { s' with rxResult := st }
  | .error f => .error f

/-- `A_TXH` (44_interrupt_handlers.md R212). It ends with the byte written or `Empty`, as its row of
opcode_table.json says. -/
def actTxh (s : State) : Except Fault State :=
  match ringPop .outbound s with
  | .ok (some b, s') => .ok { uartWrite b s' with txResult := .okByte b }
  | .ok (none, s') => .ok { s'.stopTransmitter with txResult := .empty }
  | .error f => .error f

/-- `RXH` (44_interrupt_handlers.md R211; 60_exceptions.md R231). -/
def execRxh (s : State) : Host.Outcome State Fault Refusal :=
  takeHandler s.rxTaken actRxh s

/-- `TXH` (44_interrupt_handlers.md R212; 60_exceptions.md R232). -/
def execTxh (s : State) : Host.Outcome State Fault Refusal :=
  takeHandler s.txTaken actTxh s

end Sys2Proof.Machine
end

