-- ==== Sys2Proof/Machine/Resolver.lean ====
section
/-!
DEFINITION. The arbiter and the resolver: `ARB_SEL`, `ERR_REPORT`, `RESOLVE` (43_arbiter_resolver.md).
-/

namespace Sys2Proof.Machine

/-- `ARB_SEL` performed directly (43_arbiter_resolver.md R183): it reads the held samples and `last_dir`. -/
def execArbSel (s : State) : Host.Outcome State Fault Refusal :=
  whenIdle s (.next ((arbSelect s).ended (.okDir (selectDir s.samples.inEmpty s.samples.outOk s.lastDir))))

/-- `ERR_REPORT` performed directly (43_arbiter_resolver.md R186): `A_ERR1`, then `A_ERR2` when a code was read. -/
def execErrReport (s : State) : Host.Outcome State Fault Refusal :=
  invoke [.err1 false] s

/-- `RESOLVE N` (43_arbiter_resolver.md R188). With `TX_EN == 1` the platform's configuration must be complete
(70_reset_and_hazards.md R266; U16). -/
def execResolve (n : Nat) (s : State) : Host.Outcome State Fault Refusal :=
  if s.txEn && !s.configured then .refused .notConfigured
  else invoke [.eval] { s with budget := n }

end Sys2Proof.Machine
end

