-- ==== Sys2Proof/Machine/RingBuffer.lean ====
section
/-!
DEFINITION. `RB_PUSH`, `RB_POP`, `RB_CLEAR` performed directly (40_ring_buffer.md; 30_encoding.md R104): one
atomic action each, `A_PUSH`, `A_POPX`, `A_CLR` (20_memory.md R76). Who may perform which is an obligation on the
integrator, not a check of the block (60_exceptions.md R240).
-/

namespace Sys2Proof.Machine

/-- `RB_PUSH ring, b` (40_ring_buffer.md R121). -/
def execRbPush (r : Dir) (b : Byte) (s : State) : Host.Outcome State Fault Refusal :=
  whenIdle s
    (match ringPush r b s with
    | .ok (st, s') => .next (s'.ended st)
    | .error f => .fault f)

/-- `RB_POP ring` (40_ring_buffer.md R122). -/
def execRbPop (r : Dir) (s : State) : Host.Outcome State Fault Refusal :=
  whenIdle s
    (match ringPop r s with
    | .ok (some b, s') => .next (s'.ended (.okByte b))
    | .ok (none, s') => .next (s'.ended .empty)
    | .error f => .fault f)

/-- `RB_CLEAR ring` (40_ring_buffer.md R123). -/
def execRbClear (r : Dir) (s : State) : Host.Outcome State Fault Refusal :=
  whenIdle s (.next ((ringClear r s).ended .ok))

end Sys2Proof.Machine
end

