-- ==== Sys2Proof/Machine/Dispatch.lean ====
section
/-!
DEFINITION. One arm per constructor of Instr: the frames first, then the operations in the order of their
`op_sel` codes (30_encoding.md R93, R104).
-/

namespace Sys2Proof.Machine

def exec (i : Instr) (s : State) : Host.Outcome State Fault Refusal :=
  match i with
  | .msgNoData subtype => Sys2Proof.Machine.execMsgNoData subtype s
  | .msgData1b subtype p0 => Sys2Proof.Machine.execMsgData1b subtype p0 s
  | .msgData2b subtype p0 p1 => Sys2Proof.Machine.execMsgData2b subtype p0 p1 s
  | .msgDataNb subtype len payload => Sys2Proof.Machine.execMsgDataNb subtype len payload s
  | .reset => Sys2Proof.Machine.execReset s
  | .start => Sys2Proof.Machine.execStart s
  | .resolve n => Sys2Proof.Machine.execResolve n s
  | .rxh => Sys2Proof.Machine.execRxh s
  | .txh => Sys2Proof.Machine.execTxh s
  | .rbPush ring b => Sys2Proof.Machine.execRbPush ring b s
  | .rbPop ring => Sys2Proof.Machine.execRbPop ring s
  | .rbClear ring => Sys2Proof.Machine.execRbClear ring s
  | .decStep b => Sys2Proof.Machine.execDecStep b s
  | .inTurn => Sys2Proof.Machine.execInTurn s
  | .encStep => Sys2Proof.Machine.execEncStep s
  | .errReport => Sys2Proof.Machine.execErrReport s
  | .arbSel => Sys2Proof.Machine.execArbSel s

end Sys2Proof.Machine
end

