-- ==== Sys2Proof/Machine/Schedule.lean ====
section
/-!
DEFINITION. What an entry of the schedule does (20_memory.md R75): an instruction is invoked or a frame
presented, the environment moves, or the main context goes on with the operation in progress.
-/

namespace Sys2Proof.Machine

/-- Words that decode run as `exec` of what they decode to; words that do not are refused; `resume` lets the
operation in progress go on. -/
def runEvent (e : Event) (s : State) : Host.Outcome State Fault Refusal :=
  match e with
  | .invoke w =>
    match decode w with
    | .ok i => exec i s
    | .error err => .refused (.undecodable err)
  | .env m => envMove m s
  | .resume => goOn s

/-- Nothing is scheduled: the main context goes on with what it owes; when it owes nothing the block is idle and
nothing changes (60_exceptions.md R245). -/
def runUnscheduled (s : State) : Host.Outcome State Fault Refusal := goOn { s with quantum := none }

/-- The next entry of the schedule runs, for its quantum. -/
def runTurn (t : Turn) (rest : List Turn) (s : State) : Host.Outcome State Fault Refusal :=
  runEvent t.event { s with agenda := rest, quantum := t.quantum }

end Sys2Proof.Machine
end

