-- ==== Sys2Proof/Machine/Step.lean ====
section
/-!
DEFINITION. One step: the next entry of the schedule. An execution of the block is a sequence of atomic actions,
each performed by one agent (20_memory.md R75); the schedule, plain data in State, says which agent acts next and
for how many actions. The block fetches no program (10_state.md R21): the head of the schedule is where its next
instruction comes from.
-/

namespace Sys2Proof.Machine

/-- One step of the machine. -/
def step (s : State) : Host.Outcome State Fault Refusal :=
  match s.agenda with
  | [] => runUnscheduled s
  | t :: rest => runTurn t rest s

/-- `s` with the table word `w` of `nbits` bits as the next entry of the schedule, to run without interruption. -/
def State.withFetchWord (s : State) (nbits w : Nat) : State :=
  { s with agenda := ⟨.invoke (tableWord nbits w), none⟩ :: s.agenda }

end Sys2Proof.Machine
end

