-- ==== Sys2Proof/Safety.lean ====
section
/-!
DEFINITION. What a safe run is: the invariants of 10_state.md R55 and R56, that byte arrays keep their canonical
form, that no byte waits unattended (42_codec_encode.md R171), and that a step does not fault.
-/

namespace Sys2Proof.Machine

/-- Both indices name a slot of the ring, and its array is in canonical form (10_state.md R22, R23, R55). -/
def Ring.wf (c : Nat) (r : Ring) : Prop := r.startIx < c ∧ r.endIx < c ∧ r.buf.wf c

/-- Between frames, or at a byte of the frame in flight: `in_count <= hdr + size - 1` (10_state.md R55;
41_codec_decode.md R149). -/
def Decoder.wf (d : Decoder) : Prop :=
  (d.count ≠ 0#9 → d.count.toNat + 1 ≤ hdr d.msgType + d.msgSize.toNat) ∧ d.pay.wf payMax

/-- Between messages, or at a byte of the message in flight: `out_count <= hdr + size - 1` (10_state.md R55). -/
def Encoder.wf (e : Encoder) : Prop :=
  (e.count ≠ 0#9 → e.count.toNat + 1 ≤ hdr e.msgType + e.msgSize.toNat) ∧ e.pay.wf payMax

/-- The invariant of every state between two atomic actions (10_state.md R55, R56). -/
structure State.Inv (s : State) : Prop where
  inRing : s.inRing.wf s.cfg.cIn
  outRing : s.outRing.wf s.cfg.cOut
  dec : s.dec.wf
  enc : s.enc.wf
  busy : s.txBusy = s.txIe

/-- No lost wake-up (42_codec_encode.md R171): unless the next action owed is `A_ENC3`, the kick, a byte in the
outbound ring has the transmit interrupt enabled. -/
def State.NoByteStranded (s : State) : Prop :=
  (∀ p, s.todo.head? ≠ some (.enc3 p)) → s.outRing.isEmpty = false → s.txIe = true

/-- The bytes a ring holds, oldest first: `buf[(start + k) mod C]` for `k = 0 .. count-1` (10_state.md R24). -/
def Ring.bytes (c : Nat) (r : Ring) : List Byte :=
  (List.range (r.count c)).map (fun k => r.buf.read ((r.startIx + k) % c))

/-- The main context is idle and will not be interrupted: no operation in progress, no quantum. -/
def State.Ready (s : State) : Prop := s.todo = [] ∧ s.quantum = none

end Sys2Proof.Machine
end

