-- ==== Sys2Proof/Certificates/Slice0/Obligations.lean ====
section
/-!
DEFINITION. The statements for the provers, in the order of the spec's rules: encoding, stepping, rings, decoder,
encoder, resolver, handlers, reset and start, whole-machine rules, invariants. Each docstring names the rule it
formalises.

Three premises recur and are the spec's own: the main context is idle (`todo = []`, 43_arbiter_resolver.md R195);
no other agent acts inside the operation (`quantum = none`, as `State.Ready` says; interrupted runs are reached
through `InterruptedRunsCompose`, and the whole-machine rules and invariants hold for every quantum); an index names
a slot of its array (10_state.md R22, R23, R55).
-/

open Sys2Proof Sys2Proof.Machine

namespace Sys2Proof.Claims

/-- The queue of direction `d` answers `QueueFull`: it is full, or the environment refuses (20_memory.md R71). -/
def Refuses (s : State) (d : Dir) : Prop :=
  s.qAnswers.head? = some true ∨ s.qcap d ≤ (s.queue d).length

/-- `s` after a decode completion whose message `m` the inbound queue took (41_codec_decode.md R145); `p` is the
payload buffer, `t` and `n` the type and size of the frame. -/
def taken (s : State) (t n : Byte) (p : Memory) (m : Message) : State :=
  { s with
    dec := ⟨0#9, t, n, p⟩, inQ := s.inQ ++ [m], qAnswers := s.qAnswers.tail, result := .complete }

/-- `s` after a decode completion whose message the inbound queue refused (41_codec_decode.md R145). -/
def lost (s : State) (t n : Byte) (p : Memory) : State :=
  { s with
    dec := ⟨0#9, t, n, p⟩, lastError := s.cfg.errQueueRejected, qAnswers := s.qAnswers.tail
    result := .rejected }

/-- Type, size and payload of the message a frame carries (30_encoding.md R93). -/
def frameFields : Instr → Option (Byte × Byte × List Byte)
  | .msgNoData sub => some (sub ++ 0b00#2, 0#8, [])
  | .msgData1b sub p0 => some (sub ++ 0b01#2, 1#8, [p0])
  | .msgData2b sub p0 p1 => some (sub ++ 0b10#2, 2#8, [p0, p1])
  | .msgDataNb sub len payload => some (sub ++ 0b11#2, len, payload)
  | _ => none

/-- The number of payload bytes the encoder sends for a message (42_codec_encode.md R170). -/
def payloadSent (m : Message) : Nat :=
  match classOf m.type with
  | .noData => 0
  | .data1b => m.type.toNat / 64
  | .data2b => m.type.toNat / 64
  | .dataNb => m.size.toNat

/-- The wire image of a message (42_codec_encode.md R170) without the unspecified bytes of over-reads: the type byte,
the size for NB, and the payload bytes sent that the message owns. -/
def wireImage (m : Message) : List Byte :=
  m.type :: ((if classOf m.type = .dataNb then [m.size] else []) ++ m.payload.take (payloadSent m))

/-- The state after `A_ENC2` and `A_ENC3` of a step that produced the byte `b` (42_codec_encode.md R165 to R167):
the push, or the byte dropped and the error recorded; the kick; the encode cursor `e`. -/
def sent (s : State) (b : Byte) (e : Encoder) : State :=
  if (s.outRing.endIx + 1) % s.cfg.cOut = s.outRing.startIx then
    { s with
      enc := e, lastError := s.cfg.errBufferFull, result := .full
      txBusy := true, txIe := if s.txBusy then s.txIe else true }
  else
    { s with
      enc := e, result := .ok
      outRing := ⟨s.outRing.startIx, (s.outRing.endIx + 1) % s.cfg.cOut, s.outRing.buf.write s.outRing.endIx b⟩
      txBusy := true, txIe := if s.txBusy then s.txIe else true }

/-- `ENC_STEP` performed `n` times. -/
def encSteps : Nat → State → Host.Outcome State Fault Refusal
  | 0, s => .next s
  | n + 1, s =>
    match exec .encStep s with
    | .next t => encSteps n t
    | .fault f => .fault f
    | .refused r => .refused r

/-- Not one of the two handlers. -/
def ByMain (i : Instr) : Prop := i ≠ .rxh ∧ i ≠ .txh

/-- An instruction that feeds the decoder: a frame, `DEC_STEP`, `IN_TURN`, `RESOLVE`. -/
def feedsDecoder : Instr → Bool
  | .msgNoData _ | .msgData1b _ _ | .msgData2b _ _ _ | .msgDataNb _ _ _ => true
  | .decStep _ | .inTurn | .resolve _ => true
  | _ => false

/-- The steps a frame is (41_codec_decode.md R140, R147): `DEC_STEP` of each byte, the first first. -/
def decSteps : List Byte → State → Host.Outcome State Fault Refusal
  | [], s => .next s
  | b :: rest, s =>
    match exec (.decStep b) s with
    | .next t => decSteps rest t
    | .fault f => .fault f
    | .refused r => .refused r

/-- No instruction is at the head of the schedule: the step is a move of the environment, or the main context goes on
with what it owes (a `resume` entry, or an empty schedule). -/
def InvokesNothing (s : State) : Prop := ∀ w q rest, s.agenda ≠ ⟨.invoke w, q⟩ :: rest

/-- An owed action that pops the inbound ring, or leads to one that does. -/
def popsInbound : Action → Bool
  | .pop | .eval => true
  | _ => false

/-- An owed action that pushes the outbound ring, or leads to one that does. -/
def pushesOutbound : Action → Bool
  | .enc1 | .enc2 _ | .eval => true
  | _ => false

/-- An owed action that writes the decode cursor, or leads to one that does. -/
def decodes : Action → Bool
  | .dec _ | .pop | .eval => true
  | _ => false

/-- An owed action that writes the encode cursor, or leads to one that does. -/
def encodes : Action → Bool
  | .enc1 | .enc2 _ | .enc3 _ | .eval => true
  | _ => false

/-- An owed action of the error report, or one that leads to it. -/
def reports : Action → Bool
  | .err1 _ | .err2 _ _ | .eval => true
  | _ => false

/-- An action that looks for work: a byte to pop, a message to encode, or a slot for a byte. -/
def looksForWork : Action → Bool
  | .pop | .enc1 | .enc2 _ => true
  | _ => false

/-- While a `RESOLVE` is in progress the turn about to be performed finds its work (43_arbiter_resolver.md R189): the
inbound ring holds a byte for `A_POP`; the outbound ring has room for `A_ENC1` and `A_ENC2`, and a message is in flight
or queued for `A_ENC1`. Only the next action owed is one that looks for work. -/
structure TurnFindsItsWork (s : State) : Prop where
  next : ∀ a ∈ s.todo.tail, looksForWork a = false
  pop : .eval ∈ s.todo → s.todo.head? = some .pop → s.inRing.startIx ≠ s.inRing.endIx
  enc1 : .eval ∈ s.todo → s.todo.head? = some .enc1 →
    (s.outRing.endIx + 1) % s.cfg.cOut ≠ s.outRing.startIx ∧ (s.enc.count ≠ 0#9 ∨ s.outQ ≠ [])
  enc2 : ∀ b, .eval ∈ s.todo → s.todo.head? = some (.enc2 b) →
    (s.outRing.endIx + 1) % s.cfg.cOut ≠ s.outRing.startIx

end Sys2Proof.Claims

open Sys2Proof.Claims

/-! ### Encoding -/

/-- Words written out bit by bit from 30_encoding.md R91, R93 and R104 decode to what they stand for. The sanity
statement of the decoder. -/
def Obligations.WordsOfTheSpecDecode : Prop :=
  decode (.frame [0b00000100#8]) = .ok (.msgNoData 0b000001#6) ∧
  decode (.frame [0b00001001#8, 0b01111010#8]) = .ok (.msgData1b 0b000010#6 0x7A#8) ∧
  decode (.frame [0b10000010#8, 0xAA#8, 0xBB#8]) = .ok (.msgData2b 0b100000#6 0xAA#8 0xBB#8) ∧
  decode (.frame [0b00001011#8, 0b00000010#8, 0x10#8, 0x11#8]) =
    .ok (.msgDataNb 0b000010#6 0x02#8 [0x10#8, 0x11#8]) ∧
  decode (.frame [0b11111111#8, 0x00#8]) = .ok (.msgDataNb 0b111111#6 0x00#8 []) ∧
  decode (.op 0b0010#4 (.budget 10)) = .ok (.resolve 10) ∧
  decode (.op 0b0101#4 (.ringByte 1#1 0x41#8)) = .ok (.rbPush .outbound 0x41#8) ∧
  decode (.op 0b1000#4 (.byte 0x09#8)) = .ok (.decStep 0x09#8) ∧
  decode (.op 0b1100#4 .none) = .ok .arbSel

/-- 30_encoding.md R104: the codes `1101` to `1111` are unassigned and a decoder refuses them; so does a step that
is handed one (93_implementation_defined.md U14). -/
def Obligations.UnassignedOpSelIsRefused : Prop :=
  ∀ (sel : BitVec 4) (o : Operand), 13 ≤ sel.toNat →
    decode (.op sel o) = .error (.unassignedOpSel sel) ∧
    ∀ (s : State) (q : Option Nat) (rest : List Turn), s.agenda = ⟨.invoke (.op sel o), q⟩ :: rest →
      step s = .refused (.undecodable (.unassignedOpSel sel))

/-- 30_encoding.md R101 with R96: no type byte, length byte or payload byte is illegal. Bytes of the frame's own
length decode, to a well-formed frame whose words they are. -/
def Obligations.EveryByteStringOfFrameLengthDecodes : Prop :=
  ∀ (t : Byte) (rest : List Byte),
    rest.length + 1 =
      (match t.extractLsb' 0 2 with
        | 0b00#2 => 1
        | 0b01#2 => 2
        | 0b10#2 => 3
        | _ => 2 + (rest.headD 0#8).toNat) →
    ∃ i, decode (.frame (t :: rest)) = .ok i ∧ i.wellFormed = true ∧ encode i = .frame (t :: rest) ∧
      ∃ n pay, frameFields i = some (t, n, pay)

/-- Decoding the words of a well-formed instruction gives it back, for every row of the opcode table
(30_encoding.md R93, R104). -/
def Obligations.DecodeOfEncodeIsTheInstruction : Prop :=
  ∀ i : Instr, i.wellFormed = true → decode (encode i) = .ok i

/-- Words that decode are the words of what they decode to, which is well formed: no two words mean the same and no
bit is dropped (30_encoding.md R93, R104). -/
def Obligations.DecodedWordsAreTheEncoding : Prop :=
  ∀ (w : CodeWord) (i : Instr), decode w = .ok i → i.wellFormed = true ∧ encode i = w

/-! ### Stepping -/

/-- A step runs the decoded instruction: the words at the head of the schedule decode to `i`, and the step is `exec
i`, with the entry taken off the schedule and its quantum in force. That what runs next is the head of a schedule, and
the quantum of an entry, are the model's choices (assumptions 1 and 7, DESIGN CHOICE); the spec's own rule is only that
a run is a sequence of actions of the agents (20_memory.md R75). -/
def Obligations.StepRunsTheScheduledInstruction : Prop :=
  ∀ (s : State) (w : CodeWord) (q : Option Nat) (rest : List Turn) (i : Instr),
    s.agenda = ⟨.invoke w, q⟩ :: rest → decode w = .ok i →
      step s = exec i { s with agenda := rest, quantum := q }

/-- The words of a table row, placed by `withFetchWord`, are what the very next step runs. No rule of the spec: that
`withFetchWord` stands for the load of a program, and the reading of a table word, are the model's choices
(assumptions 1 and 3, DESIGN CHOICE). -/
def Obligations.PlacedWordIsTheNextStep : Prop :=
  ∀ (s : State) (nbits w : Nat) (i : Instr), decodeTableWord nbits w = some i →
    step (s.withFetchWord nbits w) = exec i { s with quantum := none }

/-- With nothing scheduled and nothing owed a step changes nothing (but the model's own quantum). The idle step is the
model's choice (assumption 1, DESIGN CHOICE); 60_exceptions.md R245 says only that a block with nothing to do finds
nothing to do. -/
def Obligations.IdleStepChangesNothing : Prop :=
  ∀ s : State, s.agenda = [] → s.todo = [] → step s = .next { s with quantum := none }

/-- Suspending the main context changes nothing by itself (20_memory.md R75, R76): an entry that invokes a main-context
operation, or lets one go on, with quantum `m`, followed by a `resume` entry with quantum `n`, reaches in two steps the
state that the one entry with quantum `m + n` reaches in one, but for the quantum itself; and where one of the two
steps faults, so does the one. What interrupts a run is what another agent does in between. The entries and their
quanta are the model's choice (assumption 7, DESIGN CHOICE). -/
def Obligations.InterruptedRunsCompose : Prop :=
  ∀ (e : Event) (m n : Nat) (rest : List Turn) (s : State),
    (e = .resume ∨ ∃ w i, e = .invoke w ∧ decode w = .ok i ∧ ByMain i) →
    (∀ u t, step { s with agenda := ⟨e, some m⟩ :: ⟨.resume, some n⟩ :: rest } = .next u → step u = .next t →
      step { s with agenda := ⟨e, some (m + n)⟩ :: rest } = .next { t with quantum := some (m + n) }) ∧
    (∀ f, step { s with agenda := ⟨e, some m⟩ :: ⟨.resume, some n⟩ :: rest } = .fault f →
      step { s with agenda := ⟨e, some (m + n)⟩ :: rest } = .fault f) ∧
    (∀ u f, step { s with agenda := ⟨e, some m⟩ :: ⟨.resume, some n⟩ :: rest } = .next u → step u = .fault f →
      step { s with agenda := ⟨e, some (m + n)⟩ :: rest } = .fault f)

/-! ### The rings -/

/-- 40_ring_buffer.md R121: `RB_PUSH` on either ring, both results. -/
def Obligations.RbPushStoresAtEndOrReportsFull : Prop :=
  ∀ (r : Dir) (b : Byte) (s : State), s.todo = [] → (s.ring r).endIx < s.cap r →
    (((s.ring r).endIx + 1) % s.cap r = (s.ring r).startIx →
      exec (.rbPush r b) s = .next { s with result := .full }) ∧
    (((s.ring r).endIx + 1) % s.cap r ≠ (s.ring r).startIx →
      exec (.rbPush r b) s = .next
        { s.setRing r
            ⟨(s.ring r).startIx, ((s.ring r).endIx + 1) % s.cap r,
              (s.ring r).buf.write (s.ring r).endIx b⟩ with
          result := .ok })

/-- 40_ring_buffer.md R122: `RB_POP` on either ring, both results. -/
def Obligations.RbPopTakesAtStartOrReportsEmpty : Prop :=
  ∀ (r : Dir) (s : State), s.todo = [] → (s.ring r).startIx < s.cap r →
    ((s.ring r).startIx = (s.ring r).endIx → exec (.rbPop r) s = .next { s with result := .empty }) ∧
    ((s.ring r).startIx ≠ (s.ring r).endIx →
      exec (.rbPop r) s = .next
        { s.setRing r
            ⟨((s.ring r).startIx + 1) % s.cap r, (s.ring r).endIx, (s.ring r).buf⟩ with
          result := .okByte ((s.ring r).buf.read (s.ring r).startIx) })

/-- 40_ring_buffer.md R123: `RB_CLEAR` sets `start` to `end` and writes nothing else; both cursors, `tx_busy`,
`tx_ie` and `last_error` stay. That it is `start` that is assigned, and `end` that stays, is the spec's own reading of
its source (decision D21; assumption 21). -/
def Obligations.RbClearSetsStartToEnd : Prop :=
  ∀ (r : Dir) (s : State), s.todo = [] →
    exec (.rbClear r) s = .next
      { s.setRing r ⟨(s.ring r).endIx, (s.ring r).endIx, (s.ring r).buf⟩ with result := .ok }

/-- 40_ring_buffer.md R125, R126, the producer's half: a ring never holds more than `C - 1` bytes; a push answers
`Full` exactly when it holds `C - 1`, and otherwise the bytes held, oldest first, gain `b` at the end. -/
def Obligations.PushAppendsToTheBytesHeld : Prop :=
  ∀ (r : Dir) (b : Byte) (s : State), s.todo = [] → (s.ring r).wf (s.cap r) →
    (s.ring r).count (s.cap r) ≤ s.cap r - 1 ∧
    ∃ t, exec (.rbPush r b) s = .next t ∧
      ((s.ring r).count (s.cap r) = s.cap r - 1 →
        t.result = .full ∧ (t.ring r).bytes (s.cap r) = (s.ring r).bytes (s.cap r)) ∧
      ((s.ring r).count (s.cap r) < s.cap r - 1 →
        t.result = .ok ∧ (t.ring r).bytes (s.cap r) = (s.ring r).bytes (s.cap r) ++ [b])

/-- 40_ring_buffer.md R125, R126, the consumer's half: a pop answers `Empty` exactly when no byte is held, and
otherwise returns and removes the oldest. -/
def Obligations.PopRemovesTheOldestByte : Prop :=
  ∀ (r : Dir) (s : State), s.todo = [] → (s.ring r).wf (s.cap r) →
    ∃ t, exec (.rbPop r) s = .next t ∧
      match (s.ring r).bytes (s.cap r) with
      | [] => t.result = .empty ∧ t.ring r = s.ring r
      | b :: rest => t.result = .okByte b ∧ (t.ring r).bytes (s.cap r) = rest

/-- 40_ring_buffer.md R127: after a clear the ring is empty and the next push succeeds; clearing an empty ring
changes nothing but the result; two clears equal one. -/
def Obligations.ClearEmptiesAndIsIdempotent : Prop :=
  ∀ (r : Dir) (b : Byte) (s : State), s.todo = [] → (s.ring r).wf (s.cap r) →
    ∃ t, exec (.rbClear r) s = .next t ∧ (t.ring r).bytes (s.cap r) = [] ∧
      (∃ u, exec (.rbPush r b) t = .next u ∧ u.result = .ok) ∧
      exec (.rbClear r) t = .next t ∧
      ((s.ring r).startIx = (s.ring r).endIx → t = { s with result := .ok })

/-- The memory frame of every operation that stores into a ring array (40_ring_buffer.md R120, R121): the byte
stored is at the producer index of the ring pushed, and every other slot of both arrays reads as before. `RB_PUSH`
stores into its ring, `RXH` into `INBUF`, `ENC_STEP` into `OUTBUF`. -/
def Obligations.PushesStoreOneByteOnly : Prop :=
  (∀ (r : Dir) (b : Byte) (s t : State), exec (.rbPush r b) s = .next t →
    (t.result = .ok → (t.ring r).buf.read (s.ring r).endIx = b) ∧
    ∀ (r' : Dir) (a : Nat), ¬(r' = r ∧ a = (s.ring r).endIx) →
      (t.ring r').buf.read a = (s.ring r').buf.read a) ∧
  (∀ s t : State, exec .rxh s = .next t →
    (t.rxResult = .ok → t.inRing.buf.read s.inRing.endIx = s.rxByte) ∧
    ∀ (r' : Dir) (a : Nat), ¬(r' = .inbound ∧ a = s.inRing.endIx) →
      (t.ring r').buf.read a = (s.ring r').buf.read a) ∧
  (∀ s t : State, s.todo = [] → exec .encStep s = .next t →
    ∀ (r' : Dir) (a : Nat), ¬(r' = .outbound ∧ a = s.outRing.endIx) →
      (t.ring r').buf.read a = (s.ring r').buf.read a)

/-! ### The decoder -/

/-- 41_codec_decode.md R141, R144: a `NO_DATA` type byte completes at once; the message is `(b, 0, [])`, delivered
or lost (R145). -/
def Obligations.NoDataTypeByteCompletes : Prop :=
  ∀ (b : Byte) (s : State), s.Ready → s.dec.count = 0#9 → b.extractLsb' 0 2 = 0b00#2 →
    (¬Refuses s .inbound →
      ∃ m : Message, m.type = b ∧ m.size = 0#8 ∧ m.payload = [] ∧
        exec (.decStep b) s = .next { taken s b 0#8 s.dec.pay m with draws := s.draws + 1 }) ∧
    (Refuses s .inbound →
      exec (.decStep b) s = .next { lost s b 0#8 s.dec.pay with draws := s.draws + 1 })

/-- 41_codec_decode.md R141, R146: any other type byte sets `in_msg.type` and `in_msg.size` (1, 2, or the
placeholder 2), makes slots `0 .. size-1` of `INPAY` unspecified, and one byte has been consumed. -/
def Obligations.TypeByteStartsAFrame : Prop :=
  ∀ (b : Byte) (s : State), s.Ready → s.dec.count = 0#9 → b.extractLsb' 0 2 ≠ 0b00#2 →
    ∃ p : Memory,
      (∀ a, (if b.extractLsb' 0 2 = 0b01#2 then 1 else 2) ≤ a → p.read a = s.dec.pay.read a) ∧
      exec (.decStep b) s = .next
        { s with
          dec := ⟨1#9, b, if b.extractLsb' 0 2 = 0b01#2 then 1#8 else 2#8, p⟩
          result := .more, draws := s.draws + 1 }

/-- 41_codec_decode.md R142, R144: the length byte of an NB frame becomes `in_msg.size`; `0x00` completes the frame
with an empty payload, any other value waits for that many bytes. -/
def Obligations.LengthByteSetsTheSize : Prop :=
  ∀ (b : Byte) (s : State), s.Ready → s.dec.count = 1#9 → s.dec.msgType.extractLsb' 0 2 = 0b11#2 →
    (b ≠ 0#8 →
      ∃ p : Memory, (∀ a, b.toNat ≤ a → p.read a = s.dec.pay.read a) ∧
        exec (.decStep b) s = .next
          { s with dec := ⟨2#9, s.dec.msgType, b, p⟩, result := .more, draws := s.draws + 1 }) ∧
    (b = 0#8 → ¬Refuses s .inbound →
      ∃ m : Message, m.type = s.dec.msgType ∧ m.size = 0#8 ∧ m.payload = [] ∧
        exec (.decStep b) s = .next { taken s s.dec.msgType 0#8 s.dec.pay m with draws := s.draws + 1 }) ∧
    (b = 0#8 → Refuses s .inbound →
      exec (.decStep b) s = .next { lost s s.dec.msgType 0#8 s.dec.pay with draws := s.draws + 1 })

/-- 41_codec_decode.md R143, R146: a payload byte that is not the last is stored at `in_count - hdr` and one more
byte has been consumed; nothing else changes. -/
def Obligations.PayloadByteIsStored : Prop :=
  ∀ (b : Byte) (s : State), s.Ready → s.dec.count ≠ 0#9 →
    ¬(s.dec.count = 1#9 ∧ s.dec.msgType.extractLsb' 0 2 = 0b11#2) →
    s.dec.msgType.extractLsb' 0 2 ≠ 0b00#2 →
    s.dec.count.toNat + 1 < (if s.dec.msgType.extractLsb' 0 2 = 0b11#2 then 2 else 1) + s.dec.msgSize.toNat →
    exec (.decStep b) s = .next
      { s with
        dec := ⟨s.dec.count + 1#9, s.dec.msgType, s.dec.msgSize,
          s.dec.pay.write (s.dec.count.toNat - if s.dec.msgType.extractLsb' 0 2 = 0b11#2 then 2 else 1) b⟩
        result := .more }

/-- 41_codec_decode.md R143 to R145: the last payload byte is stored and the message delivered with the payload
`INPAY[0 .. size-1]`; if the queue refuses it, it is lost and `ERR_QUEUE_REJECTED` recorded. In both cases the
cursor returns to 0. -/
def Obligations.LastPayloadByteDelivers : Prop :=
  ∀ (b : Byte) (s : State), s.Ready → s.dec.count ≠ 0#9 →
    ¬(s.dec.count = 1#9 ∧ s.dec.msgType.extractLsb' 0 2 = 0b11#2) →
    s.dec.count.toNat + 1 = (if s.dec.msgType.extractLsb' 0 2 = 0b11#2 then 2 else 1) + s.dec.msgSize.toNat →
    ∃ p : Memory,
      p = s.dec.pay.write (s.dec.count.toNat - if s.dec.msgType.extractLsb' 0 2 = 0b11#2 then 2 else 1) b ∧
      (¬Refuses s .inbound →
        ∃ m : Message, m.type = s.dec.msgType ∧ m.size = s.dec.msgSize ∧
          m.payload = (List.range s.dec.msgSize.toNat).map p.read ∧
          exec (.decStep b) s = .next (taken s s.dec.msgType s.dec.msgSize p m)) ∧
      (Refuses s .inbound → exec (.decStep b) s = .next (lost s s.dec.msgType s.dec.msgSize p))

/-- The memory frame of `DEC_STEP` (20_memory.md R62; 41_codec_decode.md R141 to R143, R149): a payload byte is stored
at `in_count - hdr`, which in an invariant state is below `in_msg.size`, so within the payload, and every other slot of
`INPAY` reads as before; a type or length byte leaves the slots past the
payload it allocates; `OUTPAY` and both ring arrays are as before. -/
def Obligations.DecStepStoresWithinThePayload : Prop :=
  ∀ (b : Byte) (s t : State), s.Ready → exec (.decStep b) s = .next t →
    t.enc = s.enc ∧ t.inRing = s.inRing ∧ t.outRing = s.outRing ∧
    (s.dec.count ≠ 0#9 → ¬(s.dec.count = 1#9 ∧ classOf s.dec.msgType = .dataNb) →
      (s.Inv → s.dec.count.toNat - hdr s.dec.msgType < s.dec.msgSize.toNat ∧ t.dec.msgSize = s.dec.msgSize) ∧
      t.dec.pay.read (s.dec.count.toNat - hdr s.dec.msgType) = b ∧
      ∀ a, a ≠ s.dec.count.toNat - hdr s.dec.msgType → t.dec.pay.read a = s.dec.pay.read a) ∧
    (s.dec.count = 0#9 ∨ (s.dec.count = 1#9 ∧ classOf s.dec.msgType = .dataNb) →
      ∀ a, t.dec.msgSize.toNat ≤ a → t.dec.pay.read a = s.dec.pay.read a)

/-- 41_codec_decode.md R148: `IN_TURN` on an empty inbound ring answers `Empty` and changes nothing else; on any
other it is the pop of one byte followed by `DEC_STEP` of that byte. -/
def Obligations.InTurnPopsThenDecodes : Prop :=
  ∀ s : State, s.Ready → s.inRing.startIx < s.cfg.cIn →
    (s.inRing.startIx = s.inRing.endIx → exec .inTurn s = .next { s with result := .empty }) ∧
    (s.inRing.startIx ≠ s.inRing.endIx →
      exec .inTurn s =
        exec (.decStep (s.inRing.buf.read s.inRing.startIx))
          { s with
            inRing := ⟨(s.inRing.startIx + 1) % s.cfg.cIn, s.inRing.endIx, s.inRing.buf⟩ })

/-- A whole frame that meets the decoder between frames (41_codec_decode.md R140, R147, R149): its message, with
the frame's type, size and payload, is appended to the inbound queue, or lost with the error recorded when the
queue refuses; the cursor is at the next frame, and rings, encoder, flags and budget are as before. `INPAY` holds the
payload in its slots, and every slot past it, and past the two of the NB placeholder, reads as before. For each of
the four formats. And wherever the decoder stands, between frames or inside another one whose remainder the bytes then
are (70_reset_and_hazards.md R277, R278; vector DEC16), a frame is `DEC_STEP` of each of its bytes in order. That a frame
is an instruction, with that meaning, is the model's choice (assumption 8, DESIGN CHOICE). -/
def Obligations.FrameDeliversItsMessage : Prop :=
  (∀ (i : Instr) (bytes : List Byte) (s : State), encode i = .frame bytes → s.Ready →
    exec i s = decSteps bytes s) ∧
  ∀ (i : Instr) (ty n : Byte) (pay : List Byte) (s : State),
    frameFields i = some (ty, n, pay) → i.wellFormed = true → s.Ready → s.dec.count = 0#9 →
    ∃ (t : State) (p : Memory) (d : Nat),
      exec i s = .next t ∧
      (∀ (k : Nat) (h : k < pay.length), p.read k = pay[k]) ∧
      (∀ a, n.toNat ≤ a → (ty.extractLsb' 0 2 = 0b11#2 → 2 ≤ a) → p.read a = s.dec.pay.read a) ∧
      (¬Refuses s .inbound →
        ∃ m : Message, m.type = ty ∧ m.size = n ∧ m.payload = pay ∧
          t = { taken s ty n p m with draws := d }) ∧
      (Refuses s .inbound → t = { lost s ty n p with draws := d })

/-! ### The encoder -/

/-- 42_codec_encode.md R161: with no message in flight and none queued no byte is produced and nothing changes. -/
def Obligations.EncStepWithoutMessageDoesNothing : Prop :=
  ∀ s : State, s.Ready → s.enc.count = 0#9 → s.outQ = [] →
    exec .encStep s = .next { s with result := .noByte }

/-- 42_codec_encode.md R162, R165 to R167 with 30_encoding.md R99: the oldest queued message is dequeued and its type
byte sent. Its size is kept for NB and is `type[7:6]` for every other class; the message is finished at once when it is
`NO_DATA`, or of another fixed class with `type[7:6] = 0`. That the size is `type >> 6` and not the high six bits
(decision D2, conflict C1), what a full ring does (D10) and when the kick happens (D9) are the spec's own decisions,
which the model follows (assumption 21). -/
def Obligations.EncStepSendsTheTypeByte : Prop :=
  ∀ (s : State) (m : Message) (q : List Message), s.Ready → s.enc.count = 0#9 → s.outQ = m :: q →
    s.outRing.endIx < s.cfg.cOut →
    exec .encStep s = .next
      { sent s m.type
          ⟨if m.type.extractLsb' 0 2 = 0b00#2 ∨ (m.type.extractLsb' 0 2 ≠ 0b11#2 ∧ m.type.toNat / 64 = 0)
              then 0#9 else 1#9,
            m.type,
            if m.type.extractLsb' 0 2 = 0b11#2 then m.size else BitVec.ofNat 8 (m.type.toNat / 64),
            BitVec.ofNat 8 m.payload.length,
            s.enc.pay.writeFrom 0 m.payload⟩ with
        outQ := q }

/-- 42_codec_encode.md R163, R165 to R167: the length byte of an NB message is its size; a message of size 0 ends
there. What a full ring does (decision D10) and when the kick happens (D9) are the spec's own decisions, which the model
follows (assumption 21). -/
def Obligations.EncStepSendsTheLengthByte : Prop :=
  ∀ s : State, s.Ready → s.enc.count = 1#9 → s.enc.msgType.extractLsb' 0 2 = 0b11#2 →
    s.outRing.endIx < s.cfg.cOut →
    exec .encStep s = .next
      (sent s s.enc.msgSize { s.enc with count := if s.enc.msgSize = 0#8 then 0#9 else 2#9 })

/-- 42_codec_encode.md R164 to R167: a payload byte is the one at `out_count - hdr`; past the payload the message
owns it is a free value, drawn afresh; the message ends when `out_count + 1` reaches the frame's length. The byte of
an over-read appears as the model's own draw, of which nothing can be known, so the statement holds whatever it is. That
it is a fresh arbitrary byte (decision D18), what a full ring does (D10) and when the kick happens (D9) are the spec's own
decisions, which the model follows (assumption 21); the counter of draws is the model's choice (assumption 16, DESIGN
CHOICE). `NO_DATA` in flight, which no run reaches, is left out. -/
def Obligations.EncStepSendsAPayloadByte : Prop :=
  ∀ s : State, s.Ready → s.enc.count ≠ 0#9 →
    ¬(s.enc.count = 1#9 ∧ s.enc.msgType.extractLsb' 0 2 = 0b11#2) →
    s.enc.msgType.extractLsb' 0 2 ≠ 0b00#2 →
    s.outRing.endIx < s.cfg.cOut →
    ∀ (h : Nat) (e : Encoder), h = (if s.enc.msgType.extractLsb' 0 2 = 0b11#2 then 2 else 1) →
      e = { s.enc with
            count := if s.enc.count.toNat + 1 = h + s.enc.msgSize.toNat then 0#9 else s.enc.count + 1#9 } →
      (s.enc.count.toNat - h < s.enc.plen.toNat →
        exec .encStep s = .next (sent s (s.enc.pay.read (s.enc.count.toNat - h)) e)) ∧
      (s.enc.plen.toNat ≤ s.enc.count.toNat - h →
        exec .encStep s = .next { sent s (Config.anyByte s.draws) e with draws := s.draws + 1 })

/-- The memory frame of `ENC_STEP` over the payload buffers (20_memory.md R60, R62; 42_codec_encode.md R162): the
payload of the message dequeued is stored at slots `0 .. plen-1` of `OUTPAY`, and every other slot reads as before;
a step that dequeues nothing leaves `OUTPAY` as it is; `INPAY` and `INBUF` are as before. -/
def Obligations.EncStepStoresTheDequeuedPayload : Prop :=
  ∀ s t : State, s.Ready → exec .encStep s = .next t →
    t.dec = s.dec ∧ t.inRing = s.inRing ∧
    (s.enc.count ≠ 0#9 ∨ s.outQ = [] → t.enc.pay = s.enc.pay) ∧
    (∀ (m : Message) (q : List Message), s.enc.count = 0#9 → s.outQ = m :: q →
      (∀ (k : Nat) (h : k < m.payload.length), t.enc.pay.read k = m.payload[k]) ∧
      ∀ a, m.payload.length ≤ a → t.enc.pay.read a = s.enc.pay.read a)

/-- 42_codec_encode.md R170 with 30_encoding.md R100: from between messages, with room in the ring, performing
`ENC_STEP` once per byte of the wire image appends exactly that image to the bytes the outbound ring holds: the
type byte; the size for NB; and `n` payload bytes, `n` the size for NB and `type[7:6]` for `DATA_1B` and
`DATA_2B`. For messages that carry at least `n` payload bytes (those that over-read are in `EncStepSendsAPayloadByte` and
`RoundTripHoldsExactlyWhenSizesAgree`). The class codes (decision D1) and the re-derived size `type >> 6` (D2), on which
the image rests, and what the push and the kick do to `last_error`, `tx_busy` and `tx_ie` (R165 to R167; D9, D10) are
the spec's own decisions, which the model follows (assumption 21). -/
def Obligations.EncoderSendsTheWireImage : Prop :=
  ∀ (s : State) (m : Message) (q : List Message), s.Inv → s.Ready → s.enc.count = 0#9 → s.outQ = m :: q →
    payloadSent m ≤ m.payload.length →
    s.outRing.count s.cfg.cOut + (wireImage m).length ≤ s.cfg.cOut - 1 →
    ∃ t, encSteps (wireImage m).length s = .next t ∧ t.enc.count = 0#9 ∧ t.outQ = q ∧
      t.outRing.bytes s.cfg.cOut = s.outRing.bytes s.cfg.cOut ++ wireImage m ∧
      t.lastError = s.lastError ∧ t.txBusy = true ∧ t.txIe = true

/-- 42_codec_encode.md R170, the restricted round trip (conflict C2): the bytes sent for a message whose size is its
payload's length and, for the fixed classes, the class's size are one frame that carries that message exactly when the
class is `NO_DATA` or `DATA_NB`, or `type[7:6]` is the class's size. The bytes sent are the wire image followed by
`extra`, any bytes, one for each payload byte sent past the payload: none where the payload is long enough, and the
unspecified bytes of the over-reads where `type[7:6]` exceeds it (vectors E7, E11, E12). The re-derived size is the
spec's own decision (D2; assumption 21). -/
def Obligations.RoundTripHoldsExactlyWhenSizesAgree : Prop :=
  ∀ (m : Message) (extra : List Byte), m.payload.length = m.size.toNat →
    (m.type.extractLsb' 0 2 = 0b11#2 ∨ m.size.toNat = (m.type.extractLsb' 0 2).toNat) →
    extra.length = payloadSent m - m.payload.length →
    ((∃ i, decode (.frame (wireImage m ++ extra)) = .ok i ∧ frameFields i = some (m.type, m.size, m.payload)) ↔
      m.type.extractLsb' 0 2 = 0b00#2 ∨ m.type.extractLsb' 0 2 = 0b11#2 ∨
        m.type.toNat / 64 = (m.type.extractLsb' 0 2).toNat)

/-! ### The resolver -/

/-- 43_arbiter_resolver.md R183, R184: `ARB_SEL` by its three rules, on the held samples; the direction is written
to `last_dir`. That it is written whichever rule chose it is the spec's own decision (D8; assumption 21); that `ARB_SEL`
performed directly reads samples held outside an iteration, and writes the direction among them, is the model's choice
(assumption 18, DESIGN CHOICE). The statement holds for every value of the samples. -/
def Obligations.ArbSelFollowsTheThreeRules : Prop :=
  ∀ s : State, s.todo = [] →
    ∃ d : Dir,
      (s.samples.inEmpty = true → d = .outbound) ∧
      (s.samples.inEmpty = false → s.samples.outOk = false → d = .inbound) ∧
      (s.samples.inEmpty = false → s.samples.outOk = true → d ≠ s.lastDir) ∧
      exec .arbSel s = .next
        { s with lastDir := d, samples := ⟨s.samples.inEmpty, s.samples.outOk, d⟩, result := .okDir d }

/-- 43_arbiter_resolver.md R186: with no error recorded `ERR_REPORT` changes nothing. -/
def Obligations.ErrReportWithoutErrorDoesNothing : Prop :=
  ∀ s : State, s.Ready → s.lastError = 0x00#8 → exec .errReport s = .next { s with result := .ok }

/-- 43_arbiter_resolver.md R186: with an error recorded the message `(code, 0, [])` is offered to the outbound
queue, and the flag is cleared whether or not the queue takes it. -/
def Obligations.ErrReportQueuesTheCodeAndClears : Prop :=
  ∀ s : State, s.Ready → s.lastError ≠ 0x00#8 →
    (¬Refuses s .outbound →
      ∃ m : Message, m.type = s.lastError ∧ m.size = 0#8 ∧ m.payload = [] ∧
        exec .errReport s = .next
          { s with
            outQ := s.outQ ++ [m], qAnswers := s.qAnswers.tail, lastError := 0x00#8, result := .ok }) ∧
    (Refuses s .outbound →
      exec .errReport s = .next
        { s with qAnswers := s.qAnswers.tail, lastError := 0x00#8, result := .ok })

/-- 43_arbiter_resolver.md R182, R194: with a budget of 0, or the inbound ring empty and the outbound side full,
without work or disabled, `RESOLVE` performs no step: only the budget and the samples are written; `last_dir` stays
and a pending error is not reported. What the samples hold once a `RESOLVE` has returned is the model's choice (the
stopping `A_EVAL` writes the two predicates; assumption 18, DESIGN CHOICE), and that the budget keeps what is left is
inferred (assumption 19, DEDUCED). -/
def Obligations.ResolveStopsWithoutWork : Prop :=
  ∀ (n : Nat) (s : State), s.Ready → s.configured = true →
    (n = 0 ∨
      (s.inRing.startIx = s.inRing.endIx ∧
        ((s.outRing.endIx + 1) % s.cfg.cOut = s.outRing.startIx ∨ (s.enc.count = 0#9 ∧ s.outQ = []) ∨
          s.txEn = false))) →
    ∃ inE outOk : Bool,
      (inE = true ↔ s.inRing.startIx = s.inRing.endIx) ∧
      (outOk = true ↔
        (s.outRing.endIx + 1) % s.cfg.cOut ≠ s.outRing.startIx ∧ (s.enc.count ≠ 0#9 ∨ s.outQ ≠ []) ∧
          s.txEn = true) ∧
      exec (.resolve n) s = .next
        { s with budget := n, samples := ⟨inE, outOk, s.samples.dir⟩, result := .ok }

/-- 43_arbiter_resolver.md R181 to R185: the first action of a `RESOLVE` that does not stop samples the predicates,
writes `last_dir` by the three rules, and owes one step of the chosen direction, the error report and the next
`A_EVAL`. Seen by suspending the main context after one action. That `last_dir` is written whichever rule chose is the
spec's own decision (D8; assumption 21); that the samples are a field of the state is the model's choice (assumption 18,
DESIGN CHOICE). -/
def Obligations.EvalSamplesAndChoosesTheTurn : Prop :=
  ∀ (n : Nat) (s : State) (inE outOk : Bool), s.todo = [] → s.quantum = some 1 → s.configured = true → n ≠ 0 →
    (inE = true ↔ s.inRing.startIx = s.inRing.endIx) →
    (outOk = true ↔
      (s.outRing.endIx + 1) % s.cfg.cOut ≠ s.outRing.startIx ∧ (s.enc.count ≠ 0#9 ∨ s.outQ ≠ []) ∧
        s.txEn = true) →
    (inE = false ∨ outOk = true) →
    ∃ d : Dir,
      (inE = true → d = .outbound) ∧ (inE = false → outOk = false → d = .inbound) ∧
      (inE = false → outOk = true → d ≠ s.lastDir) ∧
      exec (.resolve n) s = .next
        { s with
          budget := n, samples := ⟨inE, outOk, d⟩, lastDir := d
          todo := [if d = .inbound then .pop else .enc1, .err1 true, .eval] }

/-- 43_arbiter_resolver.md R190 with R182 and R187: from every invariant state `RESOLVE N` returns, for every `N`; it
owes nothing, it spent at most its budget, and it stopped for one of the reasons of R182. That the budget keeps what is
left when it has returned is inferred (assumption 19, DEDUCED). -/
def Obligations.ResolveReturns : Prop :=
  ∀ (n : Nat) (s : State), s.Inv → s.Ready → s.configured = true →
    ∃ t, exec (.resolve n) s = .next t ∧ t.todo = [] ∧ t.budget ≤ n ∧
      (t.budget = 0 ∨
        (t.inRing.startIx = t.inRing.endIx ∧
          ((t.outRing.endIx + 1) % t.cfg.cOut = t.outRing.startIx ∨ (t.enc.count = 0#9 ∧ t.outQ = []) ∨
            t.txEn = false)))

/-- 10_state.md R37 with 43_arbiter_resolver.md R181: while `TX_EN` is 0 a whole `RESOLVE` leaves the outbound ring,
the encoder, `tx_busy`, `tx_ie` and the wire as they are. -/
def Obligations.ResolveSendsNothingWhileDisabled : Prop :=
  ∀ (n : Nat) (s t : State), s.txEn = false → s.Ready → exec (.resolve n) s = .next t →
    t.outRing = s.outRing ∧ t.enc = s.enc ∧ t.txBusy = s.txBusy ∧ t.txIe = s.txIe ∧ t.wire = s.wire

/-- 70_reset_and_hazards.md R281 with 43_arbiter_resolver.md R195: while an operation is in progress every other
main-context operation and every frame is refused. -/
def Obligations.OverlappingOperationsAreRefused : Prop :=
  ∀ (i : Instr) (s : State), s.todo ≠ [] → s.configured = true → ByMain i → i ≠ .reset →
    exec i s = .refused .mainBusy

/-! ### The handlers -/

/-- 44_interrupt_handlers.md R211: `RXH`, pending and enabled, reads the byte, which clears the request, and pushes it
into the inbound ring; if the ring is full the byte is dropped and `ERR_BUFFER_FULL` recorded. Whatever the main
context has in progress. That the read clears the request is assumed of the hardware boundary (20_memory.md R67, from
general knowledge, decision D17; assumption 12, PRESUMED). -/
def Obligations.RxhPushesOrRecordsTheOverrun : Prop :=
  ∀ s : State, s.rxReq = true → s.rxIe = true → s.inRing.endIx < s.cfg.cIn →
    ((s.inRing.endIx + 1) % s.cfg.cIn ≠ s.inRing.startIx →
      exec .rxh s = .next
        { s with
          rxReq := false, rxResult := .ok
          inRing := ⟨s.inRing.startIx, (s.inRing.endIx + 1) % s.cfg.cIn,
            s.inRing.buf.write s.inRing.endIx s.rxByte⟩ }) ∧
    ((s.inRing.endIx + 1) % s.cfg.cIn = s.inRing.startIx →
      exec .rxh s = .next
        { s with rxReq := false, rxResult := .full, lastError := s.cfg.errBufferFull })

/-- 44_interrupt_handlers.md R212: `TXH`, pending and enabled, pops a byte and writes it to the hardware, which
clears the request; on an empty ring it clears `tx_busy` and `tx_ie`, and `last_error` and `tx_req` stay. That the write
clears the request is assumed of the hardware boundary (20_memory.md R68, from general knowledge, decision D17;
assumption 12, PRESUMED). -/
def Obligations.TxhSendsOrStopsTheTransmitter : Prop :=
  ∀ s : State, s.txReq = true → s.txIe = true → s.outRing.startIx < s.cfg.cOut →
    (s.outRing.startIx ≠ s.outRing.endIx →
      exec .txh s = .next
        { s with
          txReq := false
          wire := s.wire ++ [s.outRing.buf.read s.outRing.startIx]
          txResult := .okByte (s.outRing.buf.read s.outRing.startIx)
          outRing := ⟨(s.outRing.startIx + 1) % s.cfg.cOut, s.outRing.endIx, s.outRing.buf⟩ }) ∧
    (s.outRing.startIx = s.outRing.endIx →
      exec .txh s = .next { s with txBusy := false, txIe := false, txResult := .empty })

/-- 60_exceptions.md R231, R232: a handler runs only while its request is pending and enabled; any other schedule is
refused (93_implementation_defined.md U12). -/
def Obligations.HandlersRunOnlyPendingAndEnabled : Prop :=
  ∀ s : State,
    (s.rxReq = false ∨ s.rxIe = false → exec .rxh s = .refused .handlerNotEnabled) ∧
    (s.txReq = false ∨ s.txIe = false → exec .txh s = .refused .handlerNotEnabled)

/-- 20_memory.md R82 (a) with 60_exceptions.md R234: when both handlers may run, either order gives the same state. -/
def Obligations.HandlersCommute : Prop :=
  ∀ s : State, s.Inv → s.rxReq = true → s.rxIe = true → s.txReq = true → s.txIe = true →
    ∃ u v t, exec .rxh s = .next u ∧ exec .txh u = .next t ∧ exec .txh s = .next v ∧ exec .rxh v = .next t

/-- 70_reset_and_hazards.md R274: an overrun between the report's read and its clear is recorded and then cleared
unreported. The schedule: `RXH` runs while `A_ERR2` is the next action owed, and the main context goes on for one
action. -/
def Obligations.OverrunBetweenReadAndClearIsLost : Prop :=
  ∀ (s : State) (c : Byte) (l : Bool) (rest : List Action) (later : List Turn) (q : Option Nat),
    s.todo = .err2 c l :: rest → s.rxReq = true → s.rxIe = true →
    (s.inRing.endIx + 1) % s.cfg.cIn = s.inRing.startIx →
    s.agenda = ⟨.invoke (.op 0b0011#4 .none), q⟩ :: ⟨.resume, some 1⟩ :: later →
    ∃ u t, step s = .next u ∧ u.lastError = s.cfg.errBufferFull ∧ u.todo = s.todo ∧
      step u = .next t ∧ t.lastError = 0x00#8 ∧ t.outQ = s.outQ ∧ t.todo = rest

/-! ### Reset, start, the environment -/

/-- 70_reset_and_hazards.md R260 with 10_state.md R50: what `RESET` leaves, from any state; the parameters, the
queues, the wire and the platform's inputs are not the block's. That `RESET` leaves the queues, and leaves `rx_req`
and `tx_req` at their R50 values, is assumption 6. -/
def Obligations.ResetLeavesTheInitialState : Prop :=
  ∀ s : State, ∃ t, exec .reset s = .next t ∧
    t.inRing.startIx = 0 ∧ t.inRing.endIx = 0 ∧ t.outRing.startIx = 0 ∧ t.outRing.endIx = 0 ∧
    t.dec.count = 0#9 ∧ t.enc.count = 0#9 ∧ t.txBusy = false ∧ t.lastError = 0x00#8 ∧
    t.rxIe = false ∧ t.txIe = false ∧ t.lastDir = .outbound ∧ t.todo = [] ∧
    t.rxReq = false ∧ t.txReq = true ∧
    t.cfg = s.cfg ∧ t.inQ = s.inQ ∧ t.outQ = s.outQ ∧ t.wire = s.wire ∧ t.txEn = s.txEn ∧ t.agenda = s.agenda

/-- 70_reset_and_hazards.md R263: `START` sets `rx_ie` and nothing else, once the platform's configuration is
complete; before that the schedule is refused (R266). -/
def Obligations.StartEnablesReceiveOnly : Prop :=
  ∀ s : State,
    (s.configured = true → s.todo = [] → exec .start s = .next { s with rxIe := true, result := .ok }) ∧
    (s.configured = false → exec .start s = .refused .notConfigured)

/-- The moves of the environment, each one step: when it is enabled and what it does, and that it is refused otherwise.
On the serial boundary (20_memory.md R69) a byte arrives while none is unread, and the transmitter becomes ready while it
is not. That the requests are levels (assumption 12, PRESUMED) and that no byte arrives while one is unread
(assumption 13, PRESUMED: the spec assumes it does not happen, decision D17) are assumptions about the hardware at the
boundary. On the message queues (R70) the producer appends while the outbound queue is not full, and the consumer
removes the oldest inbound message. The start-up configuration decides `TX_EN` while `rx_ie` is 0 (10_state.md R37; U5);
that it is a move, and that a `RESET` opens it again, is the model's choice (assumption 14, DESIGN CHOICE). -/
def Obligations.EnvironmentMovesAndWhenTheyAreEnabled : Prop :=
  ∀ (s : State) (b : Byte) (m : Message) (tx : Bool) (q : Option Nat) (rest : List Turn),
    (s.agenda = ⟨.env (.rx b), q⟩ :: rest →
      (s.rxReq = false →
        step s = .next { s with agenda := rest, quantum := q, rxByte := b, rxReq := true }) ∧
      (s.rxReq = true → step s = .refused .envNotEnabled)) ∧
    (s.agenda = ⟨.env .txRdy, q⟩ :: rest →
      (s.txReq = false → step s = .next { s with agenda := rest, quantum := q, txReq := true }) ∧
      (s.txReq = true → step s = .refused .envNotEnabled)) ∧
    (s.agenda = ⟨.env (.oqPush m), q⟩ :: rest →
      (s.outQ.length < s.cfg.qcapOut →
        step s = .next { s with agenda := rest, quantum := q, outQ := s.outQ ++ [m] }) ∧
      (s.cfg.qcapOut ≤ s.outQ.length → step s = .refused .envNotEnabled)) ∧
    (s.agenda = ⟨.env .iqPop, q⟩ :: rest →
      (∀ oldest others, s.inQ = oldest :: others →
        step s = .next { s with agenda := rest, quantum := q, inQ := others }) ∧
      (s.inQ = [] → step s = .refused .envNotEnabled)) ∧
    (s.agenda = ⟨.env (.configured tx), q⟩ :: rest →
      (s.rxIe = false →
        step s = .next { s with agenda := rest, quantum := q, txEn := tx, configured := true }) ∧
      (s.rxIe = true → step s = .refused .envNotEnabled))

/-! ### Rules of the whole machine -/

/-- 00_scope.md R8: the parameters are constant; no step writes them. -/
def Obligations.ParametersAreConstant : Prop :=
  ∀ s t : State, step s = .next t → t.cfg = s.cfg

/-- 10_state.md R35, R37: once `rx_ie` is 1 it stays 1 and `TX_EN` keeps its value, in every step but a `RESET`. -/
def Obligations.ReceiveStaysEnabledAndTxEnConstant : Prop :=
  ∀ s t : State, step s = .next t → s.rxIe = true →
    (∀ q rest, s.agenda ≠ ⟨.invoke (.op 0b0000#4 .none), q⟩ :: rest) →
    t.rxIe = true ∧ t.txEn = s.txEn

/-- 20_memory.md R78: for each ring only a producer moves `end` and writes the array, and only a consumer moves
`start`. The operations named are the producers and consumers of 10_state.md R45, the direct ones among them, and
`RESET`; every other instruction, however it is interrupted, leaves the index. A step that invokes no instruction (a
move of the environment, or the going on of an operation in progress) moves a producer's or a consumer's index of `MAIN`
only while an action that does so, or leads to one, is owed, and never the handlers' indices. -/
def Obligations.OnlyProducersMoveEndOnlyConsumersMoveStart : Prop :=
  (∀ s t : State, step s = .next t → InvokesNothing s →
    t.inRing.endIx = s.inRing.endIx ∧ t.inRing.buf = s.inRing.buf ∧ t.outRing.startIx = s.outRing.startIx ∧
    ((∀ a ∈ s.todo, popsInbound a = false) → t.inRing.startIx = s.inRing.startIx) ∧
    ((∀ a ∈ s.todo, pushesOutbound a = false) →
      t.outRing.endIx = s.outRing.endIx ∧ t.outRing.buf = s.outRing.buf)) ∧
  ∀ (i : Instr) (s t : State), exec i s = .next t → i ≠ .reset →
    (i ≠ .rxh → (∀ b, i ≠ .rbPush .inbound b) →
      t.inRing.endIx = s.inRing.endIx ∧ t.inRing.buf = s.inRing.buf) ∧
    (i ≠ .inTurn → (∀ n, i ≠ .resolve n) → i ≠ .rbPop .inbound → i ≠ .rbClear .inbound →
      t.inRing.startIx = s.inRing.startIx) ∧
    (i ≠ .encStep → (∀ n, i ≠ .resolve n) → (∀ b, i ≠ .rbPush .outbound b) →
      t.outRing.endIx = s.outRing.endIx ∧ t.outRing.buf = s.outRing.buf) ∧
    (i ≠ .txh → i ≠ .rbPop .outbound → i ≠ .rbClear .outbound →
      t.outRing.startIx = s.outRing.startIx)

/-- 41_codec_decode.md R150 and 42_codec_encode.md R172 with 10_state.md R45: only what feeds the decoder, and
`RESET`, writes the decode cursor, `in_msg` or `INPAY`; only `ENC_STEP`, `RESOLVE` and `RESET` write the encode
cursor, `out_msg` or `OUTPAY`. A step that invokes no instruction writes one only while an action of that codec, or one
that leads to it, is owed. -/
def Obligations.CodecCursorsHaveNoOtherWriter : Prop :=
  (∀ s t : State, step s = .next t → InvokesNothing s →
    ((∀ a ∈ s.todo, decodes a = false) → t.dec = s.dec) ∧
    ((∀ a ∈ s.todo, encodes a = false) → t.enc = s.enc)) ∧
  ∀ (i : Instr) (s t : State), exec i s = .next t → i ≠ .reset →
    (feedsDecoder i = false → t.dec = s.dec) ∧
    (i ≠ .encStep → (∀ n, i ≠ .resolve n) → t.enc = s.enc)

/-- 44_interrupt_handlers.md R210 (clause (d) as narrowed by C5): only `RXH` reads the receive register and only
`TXH` writes the transmit register, so no other instruction but `RESET` changes a request, the received byte or the
wire; and `RXH` leaves the transmit side, `TXH` the receive side. A step that invokes no instruction writes no byte to
the wire, and it changes a request or the received byte only where it is the environment's own move on the serial
boundary (20_memory.md R69), an arrival the receive side and a ready transmitter its request. -/
def Obligations.OnlyHandlersTouchTheDataRegisters : Prop :=
  (∀ s t : State, step s = .next t → InvokesNothing s →
    t.wire = s.wire ∧
    ((∀ b q rest, s.agenda ≠ ⟨.env (.rx b), q⟩ :: rest) → t.rxReq = s.rxReq ∧ t.rxByte = s.rxByte) ∧
    ((∀ q rest, s.agenda ≠ ⟨.env .txRdy, q⟩ :: rest) → t.txReq = s.txReq)) ∧
  ∀ (i : Instr) (s t : State), exec i s = .next t →
    (i ≠ .txh → t.wire = s.wire) ∧
    (i ≠ .rxh → i ≠ .reset → t.rxReq = s.rxReq) ∧
    (i ≠ .txh → i ≠ .reset → t.txReq = s.txReq) ∧
    t.rxByte = s.rxByte

/-- 60_exceptions.md R226: only `ERR_REPORT`, alone or inside `RESOLVE`, and `RESET` clear the sticky flag. A step that
invokes no instruction clears it only while an action of the report, or one that leads to it, is owed. -/
def Obligations.OnlyTheErrorReportClearsTheFlag : Prop :=
  (∀ s t : State, step s = .next t → InvokesNothing s → s.lastError ≠ 0x00#8 →
    (∀ a ∈ s.todo, reports a = false) → t.lastError ≠ 0x00#8) ∧
  ∀ (i : Instr) (s t : State), exec i s = .next t → s.lastError ≠ 0x00#8 →
    i ≠ .errReport → (∀ n, i ≠ .resolve n) → i ≠ .reset → t.lastError ≠ 0x00#8

/-- 44_interrupt_handlers.md R213: neither handler touches a queue, a cursor, the turn, the budget or what the main
context has in progress, and neither clears the error flag. -/
def Obligations.HandlersLeaveTheMainContextAlone : Prop :=
  ∀ (i : Instr) (s t : State), i = .rxh ∨ i = .txh → exec i s = .next t →
    t.inQ = s.inQ ∧ t.outQ = s.outQ ∧ t.dec = s.dec ∧ t.enc = s.enc ∧ t.lastDir = s.lastDir ∧
    t.budget = s.budget ∧ t.samples = s.samples ∧ t.todo = s.todo ∧ t.result = s.result ∧
    (t.lastError = s.lastError ∨ t.lastError = s.cfg.errBufferFull)

/-! ### Invariants -/

/-- After reset, in every instantiation, the invariant holds and no byte is stranded (10_state.md R50, R55, R56). -/
def Obligations.ResetMeetsTheInvariants : Prop :=
  ∀ (cfg : Params) (tx : Bool), (State.resetOf cfg tx).Inv ∧ (State.resetOf cfg tx).NoByteStranded

/-- 10_state.md R55, R56: every step keeps the invariant: indices below their capacities, cursors within their frame,
byte arrays in canonical form, `tx_busy` equal to `tx_ie`. From every invariant state, whatever the schedule. -/
def Obligations.StepsKeepTheInvariant : Prop :=
  ∀ s t : State, s.Inv → step s = .next t → t.Inv

/-- 20_memory.md R61, 60_exceptions.md R220: from an invariant state no step faults: no operation forms an index
outside its array and no error halts the block. -/
def Obligations.StepsFromInvariantStatesNeverFault : Prop :=
  ∀ (s : State) (f : Fault), s.Inv → step s ≠ .fault f

/-- 42_codec_encode.md R171, no lost wake-up: every step but a direct `RB_PUSH OUT` keeps it that a byte in the
outbound ring has the transmit interrupt enabled, unless the kick is the next action owed. -/
def Obligations.StepsStrandNoByte : Prop :=
  ∀ s t : State, s.Inv → s.NoByteStranded →
    (∀ b q rest, s.agenda ≠ ⟨.invoke (.op 0b0101#4 (.ringByte 1#1 b)), q⟩ :: rest) →
    step s = .next t → t.NoByteStranded

/-- Every instruction of the main context completes from every invariant state in which it may be invoked
(10_state.md R55; 43_arbiter_resolver.md R190): it answers a next state, owes nothing, and the invariant holds.
Well formed or not, and wherever the codecs stand. -/
def Obligations.MainInstructionsComplete : Prop :=
  ∀ (i : Instr) (s : State), s.Inv → s.Ready → s.configured = true → ByMain i →
    ∃ t, exec i s = .next t ∧ t.todo = [] ∧ t.Inv

/-- 43_arbiter_resolver.md R185 to R188, one iteration of the loop: from an invariant state that does not stop,
`RESOLVE (n+1)` is `IN_TURN` or `ENC_STEP` of the direction chosen, performed with the samples and `last_dir` of this
iteration, then `ERR_REPORT`, whatever the step's result was, and then `RESOLVE n`: each iteration spends exactly one
unit, whichever direction ran and whatever was reported. R189: the step never answers `Empty`, `NoByte` or `Full`; and
though other agents act between the sample and the step, the turn still finds its work when it is performed: every step
of the machine keeps it, whoever acts. `last_dir` written in every iteration is the spec's own decision (D8; assumption
21); the samples as a field are the model's choice (assumption 18, DESIGN CHOICE). -/
def Obligations.ResolveIsOneIterationThenTheRest : Prop :=
  (∀ s t : State, s.Inv → TurnFindsItsWork s → step s = .next t → TurnFindsItsWork t) ∧
  ∀ (n : Nat) (s : State) (inE outOk : Bool), s.Inv → s.Ready → s.configured = true →
    (inE = true ↔ s.inRing.startIx = s.inRing.endIx) →
    (outOk = true ↔
      (s.outRing.endIx + 1) % s.cfg.cOut ≠ s.outRing.startIx ∧ (s.enc.count ≠ 0#9 ∨ s.outQ ≠ []) ∧
        s.txEn = true) →
    (inE = false ∨ outOk = true) →
    ∃ (d : Dir) (u v : State),
      (inE = true → d = .outbound) ∧ (inE = false → outOk = false → d = .inbound) ∧
      (inE = false → outOk = true → d ≠ s.lastDir) ∧
      exec (if d = .inbound then .inTurn else .encStep)
        { s with budget := n + 1, samples := ⟨inE, outOk, d⟩, lastDir := d } = .next u ∧
      u.result ≠ .empty ∧ u.result ≠ .noByte ∧ u.result ≠ .full ∧
      exec .errReport u = .next v ∧ v.budget = n + 1 ∧
      exec (.resolve (n + 1)) s = exec (.resolve n) v
end

