-- ==== Sys2Proof/Laws/Memory.lean ====
section
/-!
SUPPORT. Byte arrays: reading after writing, and that every memory operation keeps the canonical form
`Memory.wf`.
-/

namespace Sys2Proof.Machine

theorem lookupCell_insertCell_same (l : List Host.Cell) (i : Nat) (v : Byte) :
    lookupCell (insertCell l i v) i = some v := by
  induction l with
  | nil => simp [insertCell, lookupCell]
  | cons c rest ih =>
    obtain ⟨a, w⟩ := c
    unfold insertCell
    split
    · simp [lookupCell]
    · split
      · simp [lookupCell]
      · have : a ≠ i := by omega
        simp [lookupCell, this, ih]

theorem lookupCell_insertCell_other (l : List Host.Cell) (i j : Nat) (v : Byte) (h : j ≠ i) :
    lookupCell (insertCell l i v) j = lookupCell l j := by
  induction l with
  | nil => simp [insertCell, lookupCell, Ne.symm h]
  | cons c rest ih =>
    obtain ⟨a, w⟩ := c
    unfold insertCell
    split
    · simp [lookupCell, Ne.symm h]
    · split
      · subst_vars; simp [lookupCell, Ne.symm h]
      · by_cases ha : a = j
        · simp [lookupCell, ha]
        · simp [lookupCell, ha, ih]

@[simp] theorem Memory.write_gen (m : Memory) (i : Nat) (v : Byte) : (m.write i v).gen = m.gen := rfl

@[simp] theorem Memory.read_write_same (m : Memory) (i : Nat) (v : Byte) : (m.write i v).read i = v := by
  simp [Memory.read, Memory.write, lookupCell_insertCell_same]

theorem Memory.read_write_other (m : Memory) (i j : Nat) (v : Byte) (h : j ≠ i) :
    (m.write i v).read j = m.read j := by
  simp [Memory.read, Memory.write, lookupCell_insertCell_other _ _ _ _ h]

theorem Memory.read_writeFrom_outside (m : Memory) (vs : List Byte) (i j : Nat)
    (h : j < i ∨ i + vs.length ≤ j) : (m.writeFrom i vs).read j = m.read j := by
  induction vs generalizing m i with
  | nil => rfl
  | cons v vs ih =>
    simp only [Memory.writeFrom, List.length_cons] at *
    rw [ih (m.write i v) (i + 1) (by omega), Memory.read_write_other]
    omega

theorem Memory.read_writeFrom_inside (m : Memory) (vs : List Byte) (i k : Nat) (h : k < vs.length) :
    (m.writeFrom i vs).read (i + k) = vs[k] := by
  induction vs generalizing m i k with
  | nil => simp at h
  | cons v vs ih =>
    cases k with
    | zero =>
      simp only [Memory.writeFrom, Nat.add_zero, List.getElem_cons_zero]
      rw [Memory.read_writeFrom_outside _ _ _ _ (by omega), Memory.read_write_same]
    | succ k =>
      simp only [Memory.writeFrom, List.getElem_cons_succ]
      rw [← Nat.add_assoc, Nat.add_right_comm]
      exact ih (m.write i v) (i + 1) k (by simpa using h)

/-- `readFrom` reads slot by slot. -/
theorem Memory.readFrom_eq_map (m : Memory) (i n : Nat) :
    m.readFrom i n = (List.range n).map (fun k => m.read (i + k)) := by
  induction n generalizing i with
  | zero => rfl
  | succ n ih =>
    simp [Memory.readFrom, ih, List.range_succ_eq_map, Function.comp_def, Nat.add_comm, Nat.add_left_comm]

theorem insertCell_mem (l : List Host.Cell) (i : Nat) (v : Byte) (c : Host.Cell)
    (h : c ∈ insertCell l i v) : c = (i, v) ∨ c ∈ l := by
  induction l with
  | nil => simpa [insertCell] using h
  | cons d rest ih =>
    obtain ⟨a, w⟩ := d
    unfold insertCell at h
    split at h
    · simpa using h
    · split at h
      · rcases List.mem_cons.1 h with h | h
        · exact .inl h
        · exact .inr (List.mem_cons_of_mem _ h)
      · rcases List.mem_cons.1 h with h | h
        · exact .inr (h ▸ List.mem_cons_self)
        · rcases ih h with h | h
          · exact .inl h
          · exact .inr (List.mem_cons_of_mem _ h)

theorem insertCell_sorted (l : List Host.Cell) (i : Nat) (v : Byte)
    (h : l.Pairwise (fun x y => x.1 < y.1)) : (insertCell l i v).Pairwise (fun x y => x.1 < y.1) := by
  induction l with
  | nil => simp [insertCell]
  | cons d rest ih =>
    obtain ⟨a, w⟩ := d
    obtain ⟨hd, hr⟩ := List.pairwise_cons.1 h
    unfold insertCell
    split
    · refine List.pairwise_cons.2 ⟨fun c hc => ?_, h⟩
      rcases List.mem_cons.1 hc with rfl | hc
      · assumption
      · have := hd c hc
        simp only at *
        omega
    · split
      · subst_vars
        exact List.pairwise_cons.2 ⟨hd, hr⟩
      · refine List.pairwise_cons.2 ⟨fun c hc => ?_, ih hr⟩
        rcases insertCell_mem rest i v c hc with rfl | hc
        · simp only
          omega
        · exact hd c hc

theorem Memory.wf_unspecified (bound gen : Nat) : (Memory.unspecified gen).wf bound :=
  ⟨List.Pairwise.nil, fun c hc => absurd hc (by simp [Memory.unspecified])⟩

/-- The four arrays after reset are in canonical form, in every instantiation (10_state.md R50). -/
theorem State.resetOf_arrays_wf (cfg : Params) (tx : Bool) :
    (State.resetOf cfg tx).inRing.buf.wf cfg.cIn ∧ (State.resetOf cfg tx).outRing.buf.wf cfg.cOut ∧
      (State.resetOf cfg tx).dec.pay.wf payMax ∧ (State.resetOf cfg tx).enc.pay.wf payMax :=
  ⟨Memory.wf_unspecified _ _, Memory.wf_unspecified _ _, Memory.wf_unspecified _ _, Memory.wf_unspecified _ _⟩

theorem Memory.wf_write (bound : Nat) (m : Memory) (i : Nat) (v : Byte) (h : m.wf bound) (hi : i < bound) :
    (m.write i v).wf bound := by
  refine ⟨insertCell_sorted _ _ _ h.1, fun c hc => ?_⟩
  rcases insertCell_mem _ _ _ _ hc with rfl | hc
  · exact hi
  · exact h.2 c hc

theorem Memory.wf_writeFrom (bound : Nat) (m : Memory) (vs : List Byte) (i : Nat) (h : m.wf bound)
    (hi : i + vs.length ≤ bound) : (m.writeFrom i vs).wf bound := by
  induction vs generalizing m i with
  | nil => exact h
  | cons v vs ih =>
    simp only [List.length_cons] at hi
    exact ih (m.write i v) (i + 1) (Memory.wf_write bound m i v h (by omega)) (by omega)

theorem Memory.wf_allocate (bound : Nat) (m : Memory) (n gen : Nat) (h : m.wf bound) (hn : n ≤ bound) :
    (m.allocate n gen).wf bound :=
  Memory.wf_writeFrom bound m _ 0 h (by simpa using hn)

@[simp] theorem Memory.allocate_zero (m : Memory) (gen : Nat) : m.allocate 0 gen = m := rfl

/-- Allocation leaves the slots past the payload alone (10_state.md R31). -/
theorem Memory.read_allocate_outside (m : Memory) (n gen j : Nat) (h : n ≤ j) :
    (m.allocate n gen).read j = m.read j :=
  Memory.read_writeFrom_outside m _ 0 j (by simpa using h)

end Sys2Proof.Machine
end

