-- ==== Sys2Proof/Laws/State.lean ====
section
/-!
SUPPORT. What each named update of State leaves in each field, so that no later proof unfolds a record update: one
lemma per update, a conjunction with one part per field, which simp uses part by part.
-/

namespace Sys2Proof.Machine

@[simp] theorem State.ended_fields (s : State) (r : Status) :
    (s.ended r).cfg = s.cfg ∧
    (s.ended r).inRing = s.inRing ∧
    (s.ended r).outRing = s.outRing ∧
    (s.ended r).dec = s.dec ∧
    (s.ended r).enc = s.enc ∧
    (s.ended r).txBusy = s.txBusy ∧
    (s.ended r).lastError = s.lastError ∧
    (s.ended r).rxIe = s.rxIe ∧
    (s.ended r).txIe = s.txIe ∧
    (s.ended r).lastDir = s.lastDir ∧
    (s.ended r).budget = s.budget ∧
    (s.ended r).samples = s.samples ∧
    (s.ended r).todo = s.todo ∧
    (s.ended r).result = r ∧
    (s.ended r).rxResult = s.rxResult ∧
    (s.ended r).txResult = s.txResult ∧
    (s.ended r).txEn = s.txEn ∧
    (s.ended r).configured = s.configured ∧
    (s.ended r).rxReq = s.rxReq ∧
    (s.ended r).rxByte = s.rxByte ∧
    (s.ended r).txReq = s.txReq ∧
    (s.ended r).inQ = s.inQ ∧
    (s.ended r).outQ = s.outQ ∧
    (s.ended r).qAnswers = s.qAnswers ∧
    (s.ended r).wire = s.wire ∧
    (s.ended r).agenda = s.agenda ∧
    (s.ended r).quantum = s.quantum ∧
    (s.ended r).draws = s.draws := by
  repeat' constructor

@[simp] theorem State.owe_fields (s : State) (as : List Action) :
    (s.owe as).cfg = s.cfg ∧
    (s.owe as).inRing = s.inRing ∧
    (s.owe as).outRing = s.outRing ∧
    (s.owe as).dec = s.dec ∧
    (s.owe as).enc = s.enc ∧
    (s.owe as).txBusy = s.txBusy ∧
    (s.owe as).lastError = s.lastError ∧
    (s.owe as).rxIe = s.rxIe ∧
    (s.owe as).txIe = s.txIe ∧
    (s.owe as).lastDir = s.lastDir ∧
    (s.owe as).budget = s.budget ∧
    (s.owe as).samples = s.samples ∧
    (s.owe as).todo = as ++ s.todo ∧
    (s.owe as).result = s.result ∧
    (s.owe as).rxResult = s.rxResult ∧
    (s.owe as).txResult = s.txResult ∧
    (s.owe as).txEn = s.txEn ∧
    (s.owe as).configured = s.configured ∧
    (s.owe as).rxReq = s.rxReq ∧
    (s.owe as).rxByte = s.rxByte ∧
    (s.owe as).txReq = s.txReq ∧
    (s.owe as).inQ = s.inQ ∧
    (s.owe as).outQ = s.outQ ∧
    (s.owe as).qAnswers = s.qAnswers ∧
    (s.owe as).wire = s.wire ∧
    (s.owe as).agenda = s.agenda ∧
    (s.owe as).quantum = s.quantum ∧
    (s.owe as).draws = s.draws := by
  repeat' constructor

@[simp] theorem State.recordError_fields (s : State) (c : Byte) :
    (s.recordError c).cfg = s.cfg ∧
    (s.recordError c).inRing = s.inRing ∧
    (s.recordError c).outRing = s.outRing ∧
    (s.recordError c).dec = s.dec ∧
    (s.recordError c).enc = s.enc ∧
    (s.recordError c).txBusy = s.txBusy ∧
    (s.recordError c).lastError = c ∧
    (s.recordError c).rxIe = s.rxIe ∧
    (s.recordError c).txIe = s.txIe ∧
    (s.recordError c).lastDir = s.lastDir ∧
    (s.recordError c).budget = s.budget ∧
    (s.recordError c).samples = s.samples ∧
    (s.recordError c).todo = s.todo ∧
    (s.recordError c).result = s.result ∧
    (s.recordError c).rxResult = s.rxResult ∧
    (s.recordError c).txResult = s.txResult ∧
    (s.recordError c).txEn = s.txEn ∧
    (s.recordError c).configured = s.configured ∧
    (s.recordError c).rxReq = s.rxReq ∧
    (s.recordError c).rxByte = s.rxByte ∧
    (s.recordError c).txReq = s.txReq ∧
    (s.recordError c).inQ = s.inQ ∧
    (s.recordError c).outQ = s.outQ ∧
    (s.recordError c).qAnswers = s.qAnswers ∧
    (s.recordError c).wire = s.wire ∧
    (s.recordError c).agenda = s.agenda ∧
    (s.recordError c).quantum = s.quantum ∧
    (s.recordError c).draws = s.draws := by
  repeat' constructor

@[simp] theorem State.stopTransmitter_fields (s : State) :
    (s.stopTransmitter).cfg = s.cfg ∧
    (s.stopTransmitter).inRing = s.inRing ∧
    (s.stopTransmitter).outRing = s.outRing ∧
    (s.stopTransmitter).dec = s.dec ∧
    (s.stopTransmitter).enc = s.enc ∧
    (s.stopTransmitter).txBusy = false ∧
    (s.stopTransmitter).lastError = s.lastError ∧
    (s.stopTransmitter).rxIe = s.rxIe ∧
    (s.stopTransmitter).txIe = false ∧
    (s.stopTransmitter).lastDir = s.lastDir ∧
    (s.stopTransmitter).budget = s.budget ∧
    (s.stopTransmitter).samples = s.samples ∧
    (s.stopTransmitter).todo = s.todo ∧
    (s.stopTransmitter).result = s.result ∧
    (s.stopTransmitter).rxResult = s.rxResult ∧
    (s.stopTransmitter).txResult = s.txResult ∧
    (s.stopTransmitter).txEn = s.txEn ∧
    (s.stopTransmitter).configured = s.configured ∧
    (s.stopTransmitter).rxReq = s.rxReq ∧
    (s.stopTransmitter).rxByte = s.rxByte ∧
    (s.stopTransmitter).txReq = s.txReq ∧
    (s.stopTransmitter).inQ = s.inQ ∧
    (s.stopTransmitter).outQ = s.outQ ∧
    (s.stopTransmitter).qAnswers = s.qAnswers ∧
    (s.stopTransmitter).wire = s.wire ∧
    (s.stopTransmitter).agenda = s.agenda ∧
    (s.stopTransmitter).quantum = s.quantum ∧
    (s.stopTransmitter).draws = s.draws := by
  repeat' constructor

@[simp] theorem State.setInRing_fields (s : State) (v : Ring) :
    (s.setRing .inbound v).cfg = s.cfg ∧
    (s.setRing .inbound v).inRing = v ∧
    (s.setRing .inbound v).outRing = s.outRing ∧
    (s.setRing .inbound v).dec = s.dec ∧
    (s.setRing .inbound v).enc = s.enc ∧
    (s.setRing .inbound v).txBusy = s.txBusy ∧
    (s.setRing .inbound v).lastError = s.lastError ∧
    (s.setRing .inbound v).rxIe = s.rxIe ∧
    (s.setRing .inbound v).txIe = s.txIe ∧
    (s.setRing .inbound v).lastDir = s.lastDir ∧
    (s.setRing .inbound v).budget = s.budget ∧
    (s.setRing .inbound v).samples = s.samples ∧
    (s.setRing .inbound v).todo = s.todo ∧
    (s.setRing .inbound v).result = s.result ∧
    (s.setRing .inbound v).rxResult = s.rxResult ∧
    (s.setRing .inbound v).txResult = s.txResult ∧
    (s.setRing .inbound v).txEn = s.txEn ∧
    (s.setRing .inbound v).configured = s.configured ∧
    (s.setRing .inbound v).rxReq = s.rxReq ∧
    (s.setRing .inbound v).rxByte = s.rxByte ∧
    (s.setRing .inbound v).txReq = s.txReq ∧
    (s.setRing .inbound v).inQ = s.inQ ∧
    (s.setRing .inbound v).outQ = s.outQ ∧
    (s.setRing .inbound v).qAnswers = s.qAnswers ∧
    (s.setRing .inbound v).wire = s.wire ∧
    (s.setRing .inbound v).agenda = s.agenda ∧
    (s.setRing .inbound v).quantum = s.quantum ∧
    (s.setRing .inbound v).draws = s.draws := by
  repeat' constructor

@[simp] theorem State.setOutRing_fields (s : State) (v : Ring) :
    (s.setRing .outbound v).cfg = s.cfg ∧
    (s.setRing .outbound v).inRing = s.inRing ∧
    (s.setRing .outbound v).outRing = v ∧
    (s.setRing .outbound v).dec = s.dec ∧
    (s.setRing .outbound v).enc = s.enc ∧
    (s.setRing .outbound v).txBusy = s.txBusy ∧
    (s.setRing .outbound v).lastError = s.lastError ∧
    (s.setRing .outbound v).rxIe = s.rxIe ∧
    (s.setRing .outbound v).txIe = s.txIe ∧
    (s.setRing .outbound v).lastDir = s.lastDir ∧
    (s.setRing .outbound v).budget = s.budget ∧
    (s.setRing .outbound v).samples = s.samples ∧
    (s.setRing .outbound v).todo = s.todo ∧
    (s.setRing .outbound v).result = s.result ∧
    (s.setRing .outbound v).rxResult = s.rxResult ∧
    (s.setRing .outbound v).txResult = s.txResult ∧
    (s.setRing .outbound v).txEn = s.txEn ∧
    (s.setRing .outbound v).configured = s.configured ∧
    (s.setRing .outbound v).rxReq = s.rxReq ∧
    (s.setRing .outbound v).rxByte = s.rxByte ∧
    (s.setRing .outbound v).txReq = s.txReq ∧
    (s.setRing .outbound v).inQ = s.inQ ∧
    (s.setRing .outbound v).outQ = s.outQ ∧
    (s.setRing .outbound v).qAnswers = s.qAnswers ∧
    (s.setRing .outbound v).wire = s.wire ∧
    (s.setRing .outbound v).agenda = s.agenda ∧
    (s.setRing .outbound v).quantum = s.quantum ∧
    (s.setRing .outbound v).draws = s.draws := by
  repeat' constructor

@[simp] theorem State.setInQ_fields (s : State) (q : List Message) :
    (s.setQueue .inbound q).cfg = s.cfg ∧
    (s.setQueue .inbound q).inRing = s.inRing ∧
    (s.setQueue .inbound q).outRing = s.outRing ∧
    (s.setQueue .inbound q).dec = s.dec ∧
    (s.setQueue .inbound q).enc = s.enc ∧
    (s.setQueue .inbound q).txBusy = s.txBusy ∧
    (s.setQueue .inbound q).lastError = s.lastError ∧
    (s.setQueue .inbound q).rxIe = s.rxIe ∧
    (s.setQueue .inbound q).txIe = s.txIe ∧
    (s.setQueue .inbound q).lastDir = s.lastDir ∧
    (s.setQueue .inbound q).budget = s.budget ∧
    (s.setQueue .inbound q).samples = s.samples ∧
    (s.setQueue .inbound q).todo = s.todo ∧
    (s.setQueue .inbound q).result = s.result ∧
    (s.setQueue .inbound q).rxResult = s.rxResult ∧
    (s.setQueue .inbound q).txResult = s.txResult ∧
    (s.setQueue .inbound q).txEn = s.txEn ∧
    (s.setQueue .inbound q).configured = s.configured ∧
    (s.setQueue .inbound q).rxReq = s.rxReq ∧
    (s.setQueue .inbound q).rxByte = s.rxByte ∧
    (s.setQueue .inbound q).txReq = s.txReq ∧
    (s.setQueue .inbound q).inQ = q ∧
    (s.setQueue .inbound q).outQ = s.outQ ∧
    (s.setQueue .inbound q).qAnswers = s.qAnswers ∧
    (s.setQueue .inbound q).wire = s.wire ∧
    (s.setQueue .inbound q).agenda = s.agenda ∧
    (s.setQueue .inbound q).quantum = s.quantum ∧
    (s.setQueue .inbound q).draws = s.draws := by
  repeat' constructor

@[simp] theorem State.setOutQ_fields (s : State) (q : List Message) :
    (s.setQueue .outbound q).cfg = s.cfg ∧
    (s.setQueue .outbound q).inRing = s.inRing ∧
    (s.setQueue .outbound q).outRing = s.outRing ∧
    (s.setQueue .outbound q).dec = s.dec ∧
    (s.setQueue .outbound q).enc = s.enc ∧
    (s.setQueue .outbound q).txBusy = s.txBusy ∧
    (s.setQueue .outbound q).lastError = s.lastError ∧
    (s.setQueue .outbound q).rxIe = s.rxIe ∧
    (s.setQueue .outbound q).txIe = s.txIe ∧
    (s.setQueue .outbound q).lastDir = s.lastDir ∧
    (s.setQueue .outbound q).budget = s.budget ∧
    (s.setQueue .outbound q).samples = s.samples ∧
    (s.setQueue .outbound q).todo = s.todo ∧
    (s.setQueue .outbound q).result = s.result ∧
    (s.setQueue .outbound q).rxResult = s.rxResult ∧
    (s.setQueue .outbound q).txResult = s.txResult ∧
    (s.setQueue .outbound q).txEn = s.txEn ∧
    (s.setQueue .outbound q).configured = s.configured ∧
    (s.setQueue .outbound q).rxReq = s.rxReq ∧
    (s.setQueue .outbound q).rxByte = s.rxByte ∧
    (s.setQueue .outbound q).txReq = s.txReq ∧
    (s.setQueue .outbound q).inQ = s.inQ ∧
    (s.setQueue .outbound q).outQ = q ∧
    (s.setQueue .outbound q).qAnswers = s.qAnswers ∧
    (s.setQueue .outbound q).wire = s.wire ∧
    (s.setQueue .outbound q).agenda = s.agenda ∧
    (s.setQueue .outbound q).quantum = s.quantum ∧
    (s.setQueue .outbound q).draws = s.draws := by
  repeat' constructor

@[simp] theorem State.draw_fields (s : State) :
    (s.drawByte.2).cfg = s.cfg ∧
    (s.drawByte.2).inRing = s.inRing ∧
    (s.drawByte.2).outRing = s.outRing ∧
    (s.drawByte.2).dec = s.dec ∧
    (s.drawByte.2).enc = s.enc ∧
    (s.drawByte.2).txBusy = s.txBusy ∧
    (s.drawByte.2).lastError = s.lastError ∧
    (s.drawByte.2).rxIe = s.rxIe ∧
    (s.drawByte.2).txIe = s.txIe ∧
    (s.drawByte.2).lastDir = s.lastDir ∧
    (s.drawByte.2).budget = s.budget ∧
    (s.drawByte.2).samples = s.samples ∧
    (s.drawByte.2).todo = s.todo ∧
    (s.drawByte.2).result = s.result ∧
    (s.drawByte.2).rxResult = s.rxResult ∧
    (s.drawByte.2).txResult = s.txResult ∧
    (s.drawByte.2).txEn = s.txEn ∧
    (s.drawByte.2).configured = s.configured ∧
    (s.drawByte.2).rxReq = s.rxReq ∧
    (s.drawByte.2).rxByte = s.rxByte ∧
    (s.drawByte.2).txReq = s.txReq ∧
    (s.drawByte.2).inQ = s.inQ ∧
    (s.drawByte.2).outQ = s.outQ ∧
    (s.drawByte.2).qAnswers = s.qAnswers ∧
    (s.drawByte.2).wire = s.wire ∧
    (s.drawByte.2).agenda = s.agenda ∧
    (s.drawByte.2).quantum = s.quantum ∧
    (s.drawByte.2).draws = s.draws + 1 := by
  repeat' constructor

@[simp] theorem State.kick_fields (s : State) :
    (s.kick).cfg = s.cfg ∧
    (s.kick).inRing = s.inRing ∧
    (s.kick).outRing = s.outRing ∧
    (s.kick).dec = s.dec ∧
    (s.kick).enc = s.enc ∧
    (s.kick).txBusy = true ∧
    (s.kick).lastError = s.lastError ∧
    (s.kick).rxIe = s.rxIe ∧
    (s.kick).txIe = (!s.txBusy || s.txIe) ∧
    (s.kick).lastDir = s.lastDir ∧
    (s.kick).budget = s.budget ∧
    (s.kick).samples = s.samples ∧
    (s.kick).todo = s.todo ∧
    (s.kick).result = s.result ∧
    (s.kick).rxResult = s.rxResult ∧
    (s.kick).txResult = s.txResult ∧
    (s.kick).txEn = s.txEn ∧
    (s.kick).configured = s.configured ∧
    (s.kick).rxReq = s.rxReq ∧
    (s.kick).rxByte = s.rxByte ∧
    (s.kick).txReq = s.txReq ∧
    (s.kick).inQ = s.inQ ∧
    (s.kick).outQ = s.outQ ∧
    (s.kick).qAnswers = s.qAnswers ∧
    (s.kick).wire = s.wire ∧
    (s.kick).agenda = s.agenda ∧
    (s.kick).quantum = s.quantum ∧
    (s.kick).draws = s.draws := by
  by_cases h : s.txBusy <;> simp [State.kick, h]

@[simp] theorem State.spend_fields (s : State) (l : Bool) :
    (s.spend l).cfg = s.cfg ∧
    (s.spend l).inRing = s.inRing ∧
    (s.spend l).outRing = s.outRing ∧
    (s.spend l).dec = s.dec ∧
    (s.spend l).enc = s.enc ∧
    (s.spend l).txBusy = s.txBusy ∧
    (s.spend l).lastError = s.lastError ∧
    (s.spend l).rxIe = s.rxIe ∧
    (s.spend l).txIe = s.txIe ∧
    (s.spend l).lastDir = s.lastDir ∧
    (s.spend l).budget = (if l then s.budget - 1 else s.budget) ∧
    (s.spend l).samples = s.samples ∧
    (s.spend l).todo = s.todo ∧
    (s.spend l).result = s.result ∧
    (s.spend l).rxResult = s.rxResult ∧
    (s.spend l).txResult = s.txResult ∧
    (s.spend l).txEn = s.txEn ∧
    (s.spend l).configured = s.configured ∧
    (s.spend l).rxReq = s.rxReq ∧
    (s.spend l).rxByte = s.rxByte ∧
    (s.spend l).txReq = s.txReq ∧
    (s.spend l).inQ = s.inQ ∧
    (s.spend l).outQ = s.outQ ∧
    (s.spend l).qAnswers = s.qAnswers ∧
    (s.spend l).wire = s.wire ∧
    (s.spend l).agenda = s.agenda ∧
    (s.spend l).quantum = s.quantum ∧
    (s.spend l).draws = s.draws := by
  cases l <;> simp [State.spend]

@[simp] theorem State.setRing_fields (s : State) (r : Dir) (v : Ring) :
    (s.setRing r v).cfg = s.cfg ∧
    (s.setRing r v).dec = s.dec ∧
    (s.setRing r v).enc = s.enc ∧
    (s.setRing r v).txBusy = s.txBusy ∧
    (s.setRing r v).lastError = s.lastError ∧
    (s.setRing r v).rxIe = s.rxIe ∧
    (s.setRing r v).txIe = s.txIe ∧
    (s.setRing r v).lastDir = s.lastDir ∧
    (s.setRing r v).budget = s.budget ∧
    (s.setRing r v).samples = s.samples ∧
    (s.setRing r v).todo = s.todo ∧
    (s.setRing r v).result = s.result ∧
    (s.setRing r v).rxResult = s.rxResult ∧
    (s.setRing r v).txResult = s.txResult ∧
    (s.setRing r v).txEn = s.txEn ∧
    (s.setRing r v).configured = s.configured ∧
    (s.setRing r v).rxReq = s.rxReq ∧
    (s.setRing r v).rxByte = s.rxByte ∧
    (s.setRing r v).txReq = s.txReq ∧
    (s.setRing r v).inQ = s.inQ ∧
    (s.setRing r v).outQ = s.outQ ∧
    (s.setRing r v).qAnswers = s.qAnswers ∧
    (s.setRing r v).wire = s.wire ∧
    (s.setRing r v).agenda = s.agenda ∧
    (s.setRing r v).quantum = s.quantum ∧
    (s.setRing r v).draws = s.draws := by
  cases r <;> repeat' constructor

@[simp] theorem State.setQueue_fields (s : State) (d : Dir) (q : List Message) :
    (s.setQueue d q).cfg = s.cfg ∧
    (s.setQueue d q).inRing = s.inRing ∧
    (s.setQueue d q).outRing = s.outRing ∧
    (s.setQueue d q).dec = s.dec ∧
    (s.setQueue d q).enc = s.enc ∧
    (s.setQueue d q).txBusy = s.txBusy ∧
    (s.setQueue d q).lastError = s.lastError ∧
    (s.setQueue d q).rxIe = s.rxIe ∧
    (s.setQueue d q).txIe = s.txIe ∧
    (s.setQueue d q).lastDir = s.lastDir ∧
    (s.setQueue d q).budget = s.budget ∧
    (s.setQueue d q).samples = s.samples ∧
    (s.setQueue d q).todo = s.todo ∧
    (s.setQueue d q).result = s.result ∧
    (s.setQueue d q).rxResult = s.rxResult ∧
    (s.setQueue d q).txResult = s.txResult ∧
    (s.setQueue d q).txEn = s.txEn ∧
    (s.setQueue d q).configured = s.configured ∧
    (s.setQueue d q).rxReq = s.rxReq ∧
    (s.setQueue d q).rxByte = s.rxByte ∧
    (s.setQueue d q).txReq = s.txReq ∧
    (s.setQueue d q).qAnswers = s.qAnswers ∧
    (s.setQueue d q).wire = s.wire ∧
    (s.setQueue d q).agenda = s.agenda ∧
    (s.setQueue d q).quantum = s.quantum ∧
    (s.setQueue d q).draws = s.draws := by
  cases d <;> repeat' constructor

@[simp] theorem State.setRing_ring (s : State) (r : Dir) (v : Ring) : (s.setRing r v).ring r = v := by
  cases r <;> rfl

theorem State.setRing_ring_other (s : State) (r r' : Dir) (v : Ring) (h : r' ≠ r) :
    (s.setRing r v).ring r' = s.ring r' := by
  cases r <;> cases r' <;> first | rfl | exact absurd rfl h

@[simp] theorem State.setRing_cap (s : State) (r r' : Dir) (v : Ring) : (s.setRing r v).cap r' = s.cap r' := by
  cases r <;> cases r' <;> rfl

@[simp] theorem State.ring_inbound (s : State) : s.ring .inbound = s.inRing := rfl

@[simp] theorem State.ring_outbound (s : State) : s.ring .outbound = s.outRing := rfl

@[simp] theorem State.cap_inbound (s : State) : s.cap .inbound = s.cfg.cIn := rfl

@[simp] theorem State.cap_outbound (s : State) : s.cap .outbound = s.cfg.cOut := rfl

@[simp] theorem State.queue_inbound (s : State) : s.queue .inbound = s.inQ := rfl

@[simp] theorem State.queue_outbound (s : State) : s.queue .outbound = s.outQ := rfl

@[simp] theorem State.qcap_inbound (s : State) : s.qcap .inbound = s.cfg.qcapIn := rfl

@[simp] theorem State.qcap_outbound (s : State) : s.qcap .outbound = s.cfg.qcapOut := rfl

@[simp] theorem State.setQueue_queue (s : State) (d : Dir) (q : List Message) : (s.setQueue d q).queue d = q := by
  cases d <;> rfl

theorem State.two_le_cap (s : State) (r : Dir) : 2 ≤ s.cap r := by
  cases r
  · exact s.cfg.two_le_cIn
  · exact s.cfg.two_le_cOut

end Sys2Proof.Machine
end

