-- ==== Sys2Proof/Laws/Ops.lean ====
section
/-!
SUPPORT. One lemma per shared operation that says everything it can do: the ring primitives, the queue ports, the
data registers, and how a main-context operation is invoked and run. Provers cite these instead of unfolding.
-/

namespace Sys2Proof.Machine

/-! ### Ring indices -/

theorem ringNext_lt (c i : Nat) (h : 0 < c) : ringNext c i < c := Nat.mod_lt _ h

theorem ringNext_eq (c i : Nat) (h : i < c) : ringNext c i = if i + 1 = c then 0 else i + 1 := by
  unfold ringNext
  split
  · simp [*]
  · exact Nat.mod_eq_of_lt (by omega)

theorem Ring.isEmpty_iff (r : Ring) : r.isEmpty = true ↔ r.startIx = r.endIx := by
  simp [Ring.isEmpty]

theorem Ring.isFull_iff (c : Nat) (r : Ring) : r.isFull c = true ↔ (r.endIx + 1) % c = r.startIx := by
  simp [Ring.isFull, ringNext]

/-! ### The ring primitives -/

theorem ringPush_cases {r : Dir} {b : Byte} {s t : State} {p : Status} (h : ringPush r b s = .ok (p, t)) :
    (p = .full ∧ t = s ∧ (s.ring r).isFull (s.cap r) = true) ∨
    (p = .ok ∧ (s.ring r).isFull (s.cap r) = false ∧ (s.ring r).endIx < s.cap r ∧
      t = s.setRing r
        { s.ring r with
          buf := (s.ring r).buf.write (s.ring r).endIx b
          endIx := ringNext (s.cap r) (s.ring r).endIx }) := by
  unfold ringPush at h
  split at h
  · cases h
    exact .inl ⟨rfl, rfl, ‹_›⟩
  · rename_i hno
    split at h
    · cases h
      exact .inr ⟨rfl, by simpa using hno, ‹_›, rfl⟩
    · cases h

theorem ringPop_cases {r : Dir} {s t : State} {o : Option Byte} (h : ringPop r s = .ok (o, t)) :
    (o = none ∧ t = s ∧ (s.ring r).isEmpty = true) ∨
    (o = some ((s.ring r).buf.read (s.ring r).startIx) ∧ (s.ring r).isEmpty = false ∧
      (s.ring r).startIx < s.cap r ∧
      t = s.setRing r { s.ring r with startIx := ringNext (s.cap r) (s.ring r).startIx }) := by
  unfold ringPop at h
  split at h
  · cases h
    exact .inl ⟨rfl, rfl, ‹_›⟩
  · rename_i hno
    split at h
    · cases h
      exact .inr ⟨rfl, by simpa using hno, ‹_›, rfl⟩
    · cases h

/-- A push onto a ring whose producer index is a slot does not fault. -/
theorem ringPush_ok (r : Dir) (b : Byte) (s : State) (h : (s.ring r).endIx < s.cap r) :
    ∃ p t, ringPush r b s = .ok (p, t) := by
  unfold ringPush
  rw [if_pos h]
  split <;> exact ⟨_, _, rfl⟩

/-- A pop from a ring whose consumer index is a slot does not fault. -/
theorem ringPop_ok (r : Dir) (s : State) (h : (s.ring r).startIx < s.cap r) :
    ∃ o t, ringPop r s = .ok (o, t) := by
  unfold ringPop
  rw [if_pos h]
  split <;> exact ⟨_, _, rfl⟩

/-! ### Queues and data registers -/

theorem queuePush_cases (m : Message) (d : Dir) (s : State) :
    (s.queueRefuses d = true ∧ queuePush m d s = (.queueFull, { s with qAnswers := s.qAnswers.tail })) ∨
    (s.queueRefuses d = false ∧
      queuePush m d s = (.ok, { s with qAnswers := s.qAnswers.tail }.setQueue d (s.queue d ++ [m]))) := by
  unfold queuePush
  cases s.queueRefuses d <;> simp

theorem queuePop_cases (d : Dir) (s : State) :
    (s.queue d = [] ∧ queuePop d s = (none, s)) ∨
    (∃ m rest, s.queue d = m :: rest ∧ queuePop d s = (some m, s.setQueue d rest)) := by
  unfold queuePop
  cases h : s.queue d with
  | nil => exact .inl ⟨rfl, rfl⟩
  | cons m rest => exact .inr ⟨m, rest, rfl, rfl⟩

@[simp] theorem uartRead_pending (s : State) (h : s.rxReq = true) :
    uartRead s = (s.rxByte, { s with rxReq := false }) := by
  simp [uartRead, h]

/-! ### Outcomes, invocation, running -/

@[simp] theorem outcomeOf_ok (s : State) : outcomeOf (.ok s) = .next s := rfl

@[simp] theorem outcomeOf_error (f : Fault) : outcomeOf (.error f) = .fault f := rfl

theorem outcomeOf_eq_next {e : Except Fault State} {t : State} : outcomeOf e = .next t ↔ e = .ok t := by
  cases e <;> simp [outcomeOf]

theorem outcomeOf_eq_fault {e : Except Fault State} {f : Fault} : outcomeOf e = .fault f ↔ e = .error f := by
  cases e <;> simp [outcomeOf]

theorem outcomeOf_ne_refused {e : Except Fault State} {r : Refusal} : outcomeOf e ≠ .refused r := by
  cases e <;> simp [outcomeOf]

theorem whenIdle_of_idle {s : State} (h : s.todo = []) (k : Host.Outcome State Fault Refusal) :
    whenIdle s k = k := if_pos h

theorem whenIdle_of_busy {s : State} (h : s.todo ≠ []) (k : Host.Outcome State Fault Refusal) :
    whenIdle s k = .refused .mainBusy := if_neg h

theorem whenIdle_eq_next {s t : State} {k : Host.Outcome State Fault Refusal} (h : whenIdle s k = .next t) :
    s.todo = [] ∧ k = .next t := by
  unfold whenIdle at h
  split at h
  · exact ⟨‹_›, h⟩
  · cases h

theorem invoke_of_idle {s : State} (h : s.todo = []) (as : List Action) : invoke as s = goOn (s.owe as) :=
  whenIdle_of_idle h _

@[simp] theorem runMain_zero (s : State) : runMain 0 s = .ok s := rfl

theorem runMain_idle (n : Nat) {s : State} (h : s.todo = []) : runMain n s = .ok s := by
  cases n <;> simp [runMain, h]

/-- One action, then the rest of the slice. -/
theorem runMain_succ (n : Nat) {s : State} {a : Action} {rest : List Action} (h : s.todo = a :: rest) :
    runMain (n + 1) s =
      match act a { s with todo := rest } with
      | .ok s' => runMain n s'
      | .error f => .error f := by
  simp only [runMain, h] <;> rfl

/-- What every action keeps, a run keeps: the one induction over the actions of a slice. -/
theorem runMain_keeps {P : State → Prop}
    (hact : ∀ (a : Action) (rest : List Action) (s t : State),
      s.todo = a :: rest → P s → act a { s with todo := rest } = .ok t → P t)
    (n : Nat) {s t : State} (hs : P s) (h : runMain n s = .ok t) : P t := by
  induction n generalizing s with
  | zero => cases h; exact hs
  | succ n ih =>
    cases htodo : s.todo with
    | nil => rw [runMain_idle _ htodo] at h; cases h; exact hs
    | cons a rest =>
      rw [runMain_succ n htodo] at h
      split at h
      · exact ih (hact a rest s _ htodo hs ‹_›) h
      · cases h

/-- What every action keeps without a fault, a run keeps without a fault. -/
theorem runMain_total {P : State → Prop}
    (hact : ∀ (a : Action) (rest : List Action) (s : State),
      s.todo = a :: rest → P s → ∃ t, act a { s with todo := rest } = .ok t ∧ P t)
    (n : Nat) {s : State} (hs : P s) : ∃ t, runMain n s = .ok t ∧ P t := by
  induction n generalizing s with
  | zero => exact ⟨s, rfl, hs⟩
  | succ n ih =>
    cases htodo : s.todo with
    | nil => exact ⟨s, runMain_idle _ htodo, hs⟩
    | cons a rest =>
      obtain ⟨u, hu, hP⟩ := hact a rest s htodo hs
      obtain ⟨t, ht, hPt⟩ := ih hP
      exact ⟨t, by rw [runMain_succ n htodo, hu]; exact ht, hPt⟩

/-- The length of a slice. -/
@[simp] theorem State.slice_none (s : State) (h : s.quantum = none) : s.slice = s.workBound := by
  simp [State.slice, h]

@[simp] theorem State.slice_some (s : State) (k : Nat) (h : s.quantum = some k) : s.slice = k := by
  simp [State.slice, h]

end Sys2Proof.Machine
end

