-- ==== Sys2Proof/Laws/Codec.lean ====
section
/-!
SUPPORT. The codec's small facts: the fields of a type byte, the completion test, and what `decPlace`, the case
effect of a decode step, can do.
-/

namespace Sys2Proof

@[simp] theorem classOfCode_codeOfClass (c : SizeClass) : classOfCode (codeOfClass c) = c := by
  cases c <;> rfl

theorem codeOfClass_classOfCode (b : BitVec 2) : codeOfClass (classOfCode b) = b := by
  revert b; decide

@[simp] theorem classOf_typeByte (sub : BitVec 6) (c : SizeClass) : classOf (typeByte sub c) = c := by
  revert sub; cases c <;> decide

@[simp] theorem subtypeOf_typeByte (sub : BitVec 6) (c : SizeClass) : subtypeOf (typeByte sub c) = sub := by
  revert sub; cases c <;> decide

@[simp] theorem typeByte_subtypeOf (t : Byte) : typeByte (subtypeOf t) (classOf t) = t := by
  revert t; decide

@[simp] theorem dirOfBit_bitOfDir (d : Dir) : dirOfBit (bitOfDir d) = d := by
  cases d <;> rfl

theorem bitOfDir_dirOfBit (b : BitVec 1) : bitOfDir (dirOfBit b) = b := by
  revert b; decide

theorem hdr_pos (t : Byte) : 1 ≤ hdr t := by
  unfold hdr; split <;> omega

theorem hdr_le (t : Byte) : hdr t ≤ 2 := by
  unfold hdr; split <;> omega

namespace Machine

theorem Cnt.toNat_succ {c : Cnt} (h : c.toNat + 1 < 512) : (Cnt.succ c).toNat = c.toNat + 1 := by
  simp only [Cnt.succ, BitVec.toNat_add, BitVec.toNat_ofNat]
  omega

theorem Cnt.toNat_pos {c : Cnt} (h : c ≠ 0#9) : 1 ≤ c.toNat := by
  rcases Nat.eq_zero_or_pos c.toNat with h0 | h0
  · exact absurd (BitVec.eq_of_toNat_eq (by simpa using h0)) h
  · exact h0

theorem frameComplete_iff (count : Cnt) (t size : Byte) :
    frameComplete count t size = true ↔ classOf t = .noData ∨ count.toNat + 1 = hdr t + size.toNat := by
  simp [frameComplete]

/-- A finished message carries as many payload bytes as its size says (10_state.md R43). -/
theorem Decoder.message_payload_length (d : Decoder) : d.message.payload.length = d.msgSize.toNat :=
  Memory.readFrom_length _ _ _

/-- The case effect of a decode step, in full. -/
theorem decPlace_cases {b : Byte} {s t : State} (h : decPlace b s = .ok t) :
    (s.dec.count = 0#9 ∧
      t = { s with
        dec := ⟨s.dec.count, b, sizeOfClass b, s.dec.pay.allocate (sizeOfClass b).toNat s.draws⟩
        draws := s.draws + 1 }) ∨
    (s.dec.count = 1#9 ∧ classOf s.dec.msgType = .dataNb ∧
      t = { s with
        dec := ⟨s.dec.count, s.dec.msgType, b, s.dec.pay.allocate b.toNat s.draws⟩
        draws := s.draws + 1 }) ∨
    (s.dec.count ≠ 0#9 ∧ ¬(s.dec.count = 1#9 ∧ classOf s.dec.msgType = .dataNb) ∧
      s.dec.count.toNat - hdr s.dec.msgType < payMax ∧
      t = { s with
        dec := { s.dec with pay := s.dec.pay.write (s.dec.count.toNat - hdr s.dec.msgType) b } }) := by
  unfold decPlace at h
  split at h
  · cases h; exact .inl ⟨‹_›, rfl⟩
  · split at h
    · cases h; exact .inr (.inl ⟨(‹_ ∧ _›).1, (‹_ ∧ _›).2, rfl⟩)
    · split at h
      · cases h; exact .inr (.inr ⟨‹_›, ‹_›, ‹_›, rfl⟩)
      · cases h

/-- Delivery, in full: the message is enqueued, or lost with the error recorded; the cursor returns to 0 in both
cases (41_codec_decode.md R145). -/
theorem decDeliver_cases (s : State) :
    (s.queueRefuses .inbound = false ∧
      decDeliver s = { s with
        qAnswers := s.qAnswers.tail, inQ := s.inQ ++ [s.dec.message]
        dec := { s.dec with count := 0#9 }, result := .complete }) ∨
    (s.queueRefuses .inbound = true ∧
      decDeliver s = { s with
        qAnswers := s.qAnswers.tail, lastError := s.cfg.errQueueRejected
        dec := { s.dec with count := 0#9 }, result := .rejected }) := by
  unfold decDeliver
  rcases queuePush_cases s.dec.message .inbound s with ⟨h, e⟩ | ⟨h, e⟩
  · exact .inr ⟨h, by rw [e]; rfl⟩
  · exact .inl ⟨h, by rw [e]; rfl⟩

end Machine

end Sys2Proof
end

