-- ==== Sys2Proof/Laws/PerInstr.lean ====
section
/-!
SUPPORT. Statements made per instruction, one lemma per constructor of Instr.
-/

namespace Sys2Proof.Laws.EncodedShape

/-- The words of a well-formed instruction have the shape the spec gives them: a frame has as many bytes as
`frame_len` of its type byte and its second byte says (30_encoding.md R96), and an operation's code is an assigned one
(30_encoding.md R104). -/
def Statement (i : Instr) : Prop :=
  i.wellFormed = true →
    match encode i with
    | .frame bytes => bytes ≠ [] ∧ bytes.length = frameLen (bytes.headD 0#8) (bytes.tail.headD 0#8)
    | .op sel _ => sel.toNat < 13

theorem msgNoData (sub : BitVec 6) : Statement (.msgNoData sub) :=
  fun _ => by simp [encode, frameLen]

theorem msgData1b (sub : BitVec 6) (p0 : Byte) : Statement (.msgData1b sub p0) :=
  fun _ => by simp [encode, frameLen]

theorem msgData2b (sub : BitVec 6) (p0 p1 : Byte) : Statement (.msgData2b sub p0 p1) :=
  fun _ => by simp [encode, frameLen]

theorem msgDataNb (sub : BitVec 6) (len : Byte) (payload : List Byte) :
    Statement (.msgDataNb sub len payload) := fun h => by
  have h : payload.length = len.toNat := by simpa [Instr.wellFormed] using h
  simp [encode, frameLen, h]
  omega

theorem reset : Statement .reset := fun _ => by simp [encode]

theorem start : Statement .start := fun _ => by simp [encode]

theorem resolve (n : Nat) : Statement (.resolve n) := fun _ => by simp [encode]

theorem rxh : Statement .rxh := fun _ => by simp [encode]

theorem txh : Statement .txh := fun _ => by simp [encode]

theorem rbPush (ring : Dir) (b : Byte) : Statement (.rbPush ring b) := fun _ => by simp [encode]

theorem rbPop (ring : Dir) : Statement (.rbPop ring) := fun _ => by simp [encode]

theorem rbClear (ring : Dir) : Statement (.rbClear ring) := fun _ => by simp [encode]

theorem decStep (b : Byte) : Statement (.decStep b) := fun _ => by simp [encode]

theorem inTurn : Statement .inTurn := fun _ => by simp [encode]

theorem encStep : Statement .encStep := fun _ => by simp [encode]

theorem errReport : Statement .errReport := fun _ => by simp [encode]

theorem arbSel : Statement .arbSel := fun _ => by simp [encode]

end Sys2Proof.Laws.EncodedShape
end

