-- ==== Sys2Proof/Laws/Runs.lean ====
section
/-!
SUPPORT. What each atomic action of the main context can do, one lemma an action, and how the one-action and
two-action operations run when no other agent acts inside them.
-/

namespace Sys2Proof.Machine

/-- Taking the last action off the list of an idle state gives the state back. -/
theorem State.todo_nil {s : State} (h : s.todo = []) : ({ s with todo := [] } : State) = s := by
  cases s; simp_all

/-- The kick as one update (42_codec_encode.md R166): both bits set, `tx_ie` only with `tx_busy`. -/
theorem State.kick_eq (s : State) :
    s.kick = { s with txBusy := true, txIe := if s.txBusy then s.txIe else true } := by
  unfold State.kick
  cases h : s.txBusy
  · simp
  · cases s; simp_all

/-- `last_error` at the end of an iteration's budget (43_arbiter_resolver.md R187). -/
theorem State.spend_eq (s : State) (l : Bool) :
    s.spend l = { s with budget := if l then s.budget - 1 else s.budget } := by
  cases l <;> rfl

/-! ### One lemma per action -/

theorem actPop_cases {s t : State} (h : actPop s = .ok t) :
    (s.inRing.isEmpty = true ∧ t = { s with result := .empty }) ∨
    (s.inRing.isEmpty = false ∧ s.inRing.startIx < s.cfg.cIn ∧
      t = { s with
        inRing := { s.inRing with startIx := ringNext s.cfg.cIn s.inRing.startIx }
        todo := .dec (s.inRing.buf.read s.inRing.startIx) :: s.todo }) := by
  unfold actPop at h
  split at h
  · rename_i b s' hp
    cases h
    rcases ringPop_cases hp with ⟨hb, _⟩ | ⟨hb, he, hi, rfl⟩
    · cases hb
    · cases hb; exact .inr ⟨he, hi, rfl⟩
  · rename_i s' hp
    cases h
    rcases ringPop_cases hp with ⟨_, rfl, he⟩ | ⟨hb, _⟩
    · exact .inl ⟨he, rfl⟩
    · cases hb
  · cases h

theorem actDec_cases {b : Byte} {s t : State} (h : actDec b s = .ok t) :
    ∃ u, decPlace b s = .ok u ∧ t = decFinish u := by
  unfold actDec at h
  split at h
  · cases h; exact ⟨_, ‹_›, rfl⟩
  · cases h

theorem actDec_ok {b : Byte} {s u : State} (h : decPlace b s = .ok u) : actDec b s = .ok (decFinish u) := by
  simp [actDec, h]

theorem actEnc1_cases (s : State) :
    (s.enc.count = 0#9 ∧ s.outQ = [] ∧ actEnc1 s = { s with result := .noByte }) ∨
    (∃ m q, s.enc.count = 0#9 ∧ s.outQ = m :: q ∧
      actEnc1 s = { s with outQ := q, enc := s.enc.load m, todo := .enc2 m.type :: s.todo }) ∨
    (s.enc.count = 1#9 ∧ classOf s.enc.msgType = .dataNb ∧
      actEnc1 s = { s with todo := .enc2 s.enc.msgSize :: s.todo }) ∨
    (s.enc.count ≠ 0#9 ∧ ¬(s.enc.count = 1#9 ∧ classOf s.enc.msgType = .dataNb) ∧
      s.enc.count.toNat - hdr s.enc.msgType < s.enc.plen.toNat ∧
      actEnc1 s =
        { s with todo := .enc2 (s.enc.pay.read (s.enc.count.toNat - hdr s.enc.msgType)) :: s.todo }) ∨
    (s.enc.count ≠ 0#9 ∧ ¬(s.enc.count = 1#9 ∧ classOf s.enc.msgType = .dataNb) ∧
      s.enc.plen.toNat ≤ s.enc.count.toNat - hdr s.enc.msgType ∧
      actEnc1 s = { s with draws := s.draws + 1, todo := .enc2 (Config.anyByte s.draws) :: s.todo }) := by
  unfold actEnc1
  split
  · rename_i h0
    rcases queuePop_cases .outbound s with ⟨hq, e⟩ | ⟨m, q, hq, e⟩
    · exact .inl ⟨h0, hq, by rw [e]; rfl⟩
    · exact .inr (.inl ⟨m, q, h0, hq, by rw [e]; rfl⟩)
  · rename_i h0
    split
    · rename_i h1
      exact .inr (.inr (.inl ⟨h1.1, h1.2, rfl⟩))
    · rename_i h1
      split
      · exact .inr (.inr (.inr (.inl ⟨h0, h1, ‹_›, rfl⟩)))
      · exact .inr (.inr (.inr (.inr ⟨h0, h1, by omega, rfl⟩)))

theorem actEnc2_cases {b : Byte} {s t : State} (h : actEnc2 b s = .ok t) :
    (s.outRing.isFull s.cfg.cOut = true ∧
      t = { s with lastError := s.cfg.errBufferFull, todo := .enc3 .full :: s.todo }) ∨
    (s.outRing.isFull s.cfg.cOut = false ∧ s.outRing.endIx < s.cfg.cOut ∧
      t = { s with
        outRing := { s.outRing with
          buf := s.outRing.buf.write s.outRing.endIx b, endIx := ringNext s.cfg.cOut s.outRing.endIx }
        todo := .enc3 .ok :: s.todo }) := by
  unfold actEnc2 at h
  split at h
  · rename_i s' hp
    cases h
    rcases ringPush_cases hp with ⟨_, rfl, hf⟩ | ⟨hb, _⟩
    · exact .inl ⟨hf, rfl⟩
    · cases hb
  · rename_i p s' hne hp
    cases h
    rcases ringPush_cases hp with ⟨rfl, rfl, _⟩ | ⟨rfl, hf, hi, rfl⟩
    · exact (hne rfl).elim
    · exact .inr ⟨hf, hi, rfl⟩
  · cases h

theorem actEnc3_eq (p : Status) (s : State) :
    actEnc3 p s = { s with
      txBusy := true, txIe := if s.txBusy then s.txIe else true, result := p
      enc := { s.enc with count := nextCount s.enc.count s.enc.msgType s.enc.msgSize } } := by
  simp [actEnc3, State.kick_eq]

theorem actErr1_cases (l : Bool) (s : State) :
    (s.lastError = 0x00#8 ∧
      actErr1 l s = { s with budget := if l then s.budget - 1 else s.budget, result := .ok }) ∨
    (s.lastError ≠ 0x00#8 ∧ s.queueRefuses .outbound = true ∧
      actErr1 l s = { s with qAnswers := s.qAnswers.tail, todo := .err2 s.lastError l :: s.todo }) ∨
    (s.lastError ≠ 0x00#8 ∧ s.queueRefuses .outbound = false ∧
      actErr1 l s = { s with
        qAnswers := s.qAnswers.tail, outQ := s.outQ ++ [errorMessage s.lastError]
        todo := .err2 s.lastError l :: s.todo }) := by
  unfold actErr1
  split
  · exact .inl ⟨‹_›, by rw [State.spend_eq]; rfl⟩
  · rename_i h
    rcases queuePush_cases (errorMessage s.lastError) .outbound s with ⟨hq, e⟩ | ⟨hq, e⟩
    · exact .inr (.inl ⟨h, hq, by rw [e]; rfl⟩)
    · exact .inr (.inr ⟨h, hq, by rw [e]; rfl⟩)

theorem actErr2_eq (c : Byte) (l : Bool) (s : State) :
    actErr2 c l s =
      { s with lastError := 0x00#8, budget := if l then s.budget - 1 else s.budget, result := .ok } := by
  unfold actErr2; rw [State.spend_eq]; rfl

theorem actEval_cases (s : State) :
    (s.stopNow = true ∧
      actEval s = { s with samples := ⟨s.inEmptyNow, s.outOkNow, s.samples.dir⟩, result := .ok }) ∨
    (s.stopNow = false ∧
      actEval s = { s with
        samples := ⟨s.inEmptyNow, s.outOkNow, selectDir s.inEmptyNow s.outOkNow s.lastDir⟩
        lastDir := selectDir s.inEmptyNow s.outOkNow s.lastDir
        todo := turnActions (selectDir s.inEmptyNow s.outOkNow s.lastDir) ++ [.err1 true, .eval] ++ s.todo }) := by
  unfold actEval
  cases h : s.stopNow
  · exact .inr ⟨rfl, by simp [arbSelect, takeSample, State.owe]⟩
  · exact .inl ⟨rfl, by simp [takeSample, State.ended]⟩

/-! ### The handlers -/

theorem actRxh_cases {s t : State} (hreq : s.rxReq = true) (h : actRxh s = .ok t) :
    (s.inRing.isFull s.cfg.cIn = true ∧
      t = { s with rxReq := false, rxResult := .full, lastError := s.cfg.errBufferFull }) ∨
    (s.inRing.isFull s.cfg.cIn = false ∧ s.inRing.endIx < s.cfg.cIn ∧
      t = { s with
        rxReq := false, rxResult := .ok
        inRing := { s.inRing with
          buf := s.inRing.buf.write s.inRing.endIx s.rxByte, endIx := ringNext s.cfg.cIn s.inRing.endIx } }) := by
  unfold actRxh at h
  rw [uartRead_pending s hreq] at h
  split at h
  · rename_i s' hp
    cases h
    rcases ringPush_cases hp with ⟨_, rfl, hf⟩ | ⟨hb, _⟩
    · exact .inl ⟨hf, rfl⟩
    · cases hb
  · rename_i p s' hne hp
    cases h
    rcases ringPush_cases hp with ⟨rfl, rfl, _⟩ | ⟨rfl, hf, hi, rfl⟩
    · exact (hne rfl).elim
    · exact .inr ⟨hf, hi, rfl⟩
  · cases h

theorem actTxh_cases {s t : State} (h : actTxh s = .ok t) :
    (s.outRing.isEmpty = true ∧ t = { s with txBusy := false, txIe := false, txResult := .empty }) ∨
    (s.outRing.isEmpty = false ∧ s.outRing.startIx < s.cfg.cOut ∧
      t = { s with
        outRing := { s.outRing with startIx := ringNext s.cfg.cOut s.outRing.startIx }
        wire := s.wire ++ [s.outRing.buf.read s.outRing.startIx], txReq := false
        txResult := .okByte (s.outRing.buf.read s.outRing.startIx) }) := by
  unfold actTxh at h
  split at h
  · rename_i b s' hp
    cases h
    rcases ringPop_cases hp with ⟨hb, _⟩ | ⟨hb, he, hi, rfl⟩
    · cases hb
    · cases hb; exact .inr ⟨he, hi, rfl⟩
  · rename_i s' hp
    cases h
    rcases ringPop_cases hp with ⟨_, rfl, he⟩ | ⟨hb, _⟩
    · exact .inl ⟨he, rfl⟩
    · cases hb
  · cases h

/-! ### Uninterrupted operations -/

theorem decFinish_todo (s : State) : (decFinish s).todo = s.todo := by
  unfold decFinish
  split
  · rcases decDeliver_cases s with ⟨_, e⟩ | ⟨_, e⟩ <;> simp [e]
  · rfl

theorem actDec_todo {b : Byte} {s t : State} (h : actDec b s = .ok t) : t.todo = s.todo := by
  obtain ⟨u, hu, rfl⟩ := actDec_cases h
  rw [decFinish_todo]
  rcases decPlace_cases hu with ⟨_, rfl⟩ | ⟨_, _, rfl⟩ | ⟨_, _, _, rfl⟩ <;> rfl

/-- The slice of one owed action that is no `A_EVAL`: three actions, as many as any of them leads to. -/
theorem State.slice_owe_one {s : State} (h : s.Ready) {a : Action} (ha : a ≠ .eval) : (s.owe [a]).slice = 3 := by
  obtain ⟨h, hq⟩ := h
  simp [State.slice, hq, State.owe, State.workBound, h, Ne.symm ha]

/-- An operation of one first action, uninterrupted: that action, then what it leads to. -/
theorem invoke_one {s : State} (h : s.Ready) {a : Action} (ha : a ≠ .eval) :
    invoke [a] s =
      match act a s with
      | .ok t => outcomeOf (runMain 2 t)
      | .error f => .fault f := by
  rw [invoke_of_idle h.1, goOn, State.slice_owe_one h ha,
    runMain_succ (a := a) (rest := []) 2 (by simp [State.owe, h.1])]
  have e : ({ s.owe [a] with todo := [] } : State) = s := State.todo_nil h.1
  rw [e]
  cases act a s <;> rfl

/-- `DEC_STEP`, uninterrupted, is its one action. -/
theorem execDecStep_eq {s : State} (h : s.Ready) (b : Byte) : execDecStep b s = outcomeOf (actDec b s) := by
  show invoke [.dec b] s = _
  rw [invoke_one h (by simp)]
  simp only [act]
  cases e : actDec b s with
  | error f => rfl
  | ok t => simp only; rw [runMain_idle 2 (by rw [actDec_todo e, h.1])]

/-- `ENC_STEP`, uninterrupted, is `A_ENC1` and what it leads to. -/
theorem execEncStep_eq {s : State} (h : s.Ready) : execEncStep s = outcomeOf (runMain 2 (actEnc1 s)) := by
  show invoke [.enc1] s = _
  rw [invoke_one h (by simp)]
  rfl

end Sys2Proof.Machine
end

