-- ==== Sys2Proof/Laws/Schedule.lean ====
section
/-!
SUPPORT. An action reads neither the schedule, nor the quantum, nor the actions owed after it: acting commutes with
putting them there. So a run may be cut in two (20_memory.md R75), and an operation runs inside a `RESOLVE` or a frame
as it runs alone.
-/

namespace Sys2Proof.Machine

/-- `s` under the schedule `g` and quantum `q`, with the actions `rest` owed after its own. -/
def State.under (s : State) (rest : List Action) (g : List Turn) (q : Option Nat) : State :=
  { s with todo := s.todo ++ rest, agenda := g, quantum := q }

variable {rest : List Action} {g : List Turn} {q : Option Nat}

theorem ringPush_under (r : Dir) (b : Byte) (s : State) :
    ringPush r b (s.under rest g q) = (ringPush r b s).map (fun p => (p.1, p.2.under rest g q)) := by
  simp only [ringPush, apply_ite (Except.map _)]
  cases r <;> rfl

theorem ringPop_under (r : Dir) (s : State) :
    ringPop r (s.under rest g q) = (ringPop r s).map (fun p => (p.1, p.2.under rest g q)) := by
  simp only [ringPop, apply_ite (Except.map _)]
  cases r <;> rfl

theorem queuePush_under (m : Message) (d : Dir) (s : State) :
    queuePush m d (s.under rest g q) = ((queuePush m d s).1, (queuePush m d s).2.under rest g q) := by
  have h : (s.under rest g q).queueRefuses d = s.queueRefuses d := by cases d <;> rfl
  simp only [queuePush, h]
  cases s.queueRefuses d <;> cases d <;> rfl

theorem queuePop_under (d : Dir) (s : State) :
    queuePop d (s.under rest g q) = ((queuePop d s).1, (queuePop d s).2.under rest g q) := by
  rcases queuePop_cases d s with ⟨h, e⟩ | ⟨m, q', h, e⟩ <;> rw [e] <;> cases d <;>
    simp_all [queuePop, State.queue, State.under, State.setQueue]

theorem decPlace_under (b : Byte) (s : State) :
    decPlace b (s.under rest g q) = (decPlace b s).map (·.under rest g q) := by
  simp only [decPlace, apply_ite (Except.map _)]
  rfl

theorem decFinish_under (s : State) : decFinish (s.under rest g q) = (decFinish s).under rest g q := by
  have h : (s.under rest g q).dec = s.dec := rfl
  simp only [decFinish, decDeliver, h, queuePush_under]
  split
  · rcases queuePush_cases s.dec.message .inbound s with ⟨_, e⟩ | ⟨_, e⟩ <;> rw [e] <;> rfl
  · rfl

theorem actEnc1_under (s : State) : actEnc1 (s.under rest g q) = (actEnc1 s).under rest g q := by
  have h : (s.under rest g q).enc = s.enc := rfl
  simp only [actEnc1, h, queuePop_under]
  split
  · rcases queuePop .outbound s with ⟨_ | m, t⟩ <;> rfl
  · (repeat' split) <;> rfl

/-- Whatever is owed after an action, and whatever the schedule, the action does the same. -/
theorem act_under (a : Action) (s : State) :
    act a (s.under rest g q) = (act a s).map (·.under rest g q) := by
  cases a with
  | eval =>
    have h : (s.under rest g q).stopNow = s.stopNow := rfl
    simp only [act, actEval, h]
    split
    · rfl
    · simp [arbSelect, takeSample, State.owe, State.under, Except.map, State.inEmptyNow, State.outOkNow,
        State.outWorkNow, State.oqEmpty]
  | pop =>
    simp only [act, actPop, ringPop_under]
    rcases ringPop .inbound s with _ | ⟨_ | b, t⟩ <;> rfl
  | dec b =>
    simp only [act, actDec, decPlace_under]
    cases decPlace b s with
    | error => rfl
    | ok t => simp only [Except.map, decFinish_under]
  | enc1 => simp only [act, actEnc1_under, Except.map]
  | enc2 b =>
    simp only [act, actEnc2, ringPush_under]
    rcases ringPush .outbound b s with _ | ⟨_ | _, t⟩ <;> rfl
  | enc3 p => simp only [act, actEnc3_eq, Except.map]; rfl
  | err1 l =>
    have h : (s.under rest g q).lastError = s.lastError := rfl
    simp only [act, actErr1, h, queuePush_under, Except.map]
    split
    · cases l <;> rfl
    · rfl
  | err2 c l => cases l <;> rfl

/-- A run is the same under any schedule and quantum. -/
theorem runMain_under (n : Nat) (s : State) :
    runMain n (s.under [] g q) = (runMain n s).map (·.under [] g q) := by
  induction n generalizing s with
  | zero => rfl
  | succ n ih =>
    cases h : s.todo with
    | nil =>
      rw [runMain_idle _ h, runMain_idle _ (by simp [State.under, h])]; rfl
    | cons a rest =>
      have e : ({ s.under [] g q with todo := rest } : State) = ({ s with todo := rest } : State).under [] g q := by
        simp [State.under]
      rw [runMain_succ n h, runMain_succ (a := a) (rest := rest) n (by simp [State.under, h]), e, act_under]
      cases act a { s with todo := rest } with
      | error => rfl
      | ok t => exact ih t

/-- A run of `m + n` actions is a run of `m` and then one of `n`. -/
theorem runMain_add (m n : Nat) (s : State) : runMain (m + n) s = (runMain m s).bind (runMain n) := by
  induction m generalizing s with
  | zero => rw [Nat.zero_add]; rfl
  | succ m ih =>
    cases h : s.todo with
    | nil => rw [runMain_idle _ h, runMain_idle _ h]; exact (runMain_idle n h).symm
    | cons a rest =>
      rw [Nat.add_right_comm, runMain_succ _ h, runMain_succ _ h]
      cases act a { s with todo := rest } with
      | error => rfl
      | ok t => exact ih t

/-- What a state's own actions do is done just so with others owed after them, in as many actions. -/
theorem runMain_under_own {n : Nat} {s t : State} (h : runMain n s = .ok t) :
    ∃ j ≤ n, ∀ (m : Nat) (rest : List Action) (g : List Turn) (q : Option Nat),
      runMain (j + m) (s.under rest g q) = runMain m (t.under rest g q) := by
  induction n generalizing s with
  | zero => cases h; exact ⟨0, le_rfl, fun m _ _ _ => by rw [Nat.zero_add]⟩
  | succ n ih =>
    cases hs : s.todo with
    | nil => rw [runMain_idle _ hs] at h; cases h; exact ⟨0, by omega, fun m _ _ _ => by rw [Nat.zero_add]⟩
    | cons a own =>
      rw [runMain_succ _ hs] at h
      cases ha : act a { s with todo := own } with
      | error => rw [ha] at h; cases h
      | ok u =>
        rw [ha] at h
        obtain ⟨j, hj, hrun⟩ := ih h
        refine ⟨j + 1, by omega, fun m rest g q => ?_⟩
        have e : ({ s.under rest g q with todo := own ++ rest } : State) =
          ({ s with todo := own } : State).under rest g q := rfl
        rw [Nat.add_right_comm, runMain_succ (a := a) (rest := own ++ rest) _ (by simp [State.under, hs]), e, act_under,
          ha]
        exact hrun m rest g q

end Sys2Proof.Machine
end

