-- ==== Sys2Proof/Tests/Slice0.lean ====
section
/-!
SUPPORT. The model's own tests: the smoke test of WellFormed, words written out from the spec's encodings, single
steps with the values of spec/95_test_vectors.md, and for every obligation with hypotheses a witness that meets them.
-/

open Sys2Proof Sys2Proof.Machine Sys2Proof.Claims

namespace Sys2Proof.Tests

/-! ### WellFormed: the one check, and a term it refuses -/

theorem test_wellFormed_nb_payload_too_short : (Instr.msgDataNb 2#6 5#8 [0x10#8]).wellFormed = false := by decide

theorem test_wellFormed_nb_payload_too_long : (Instr.msgDataNb 2#6 0#8 [0x10#8]).wellFormed = false := by decide

theorem test_wellFormed_nb : (Instr.msgDataNb 2#6 2#8 [0xDE#8, 0xAD#8]).wellFormed = true := by decide

/-! ### Words written out from 30_encoding.md R91, R93, R104 -/

theorem test_decode_msgNoData : decode (.frame [0b11111100#8]) = .ok (.msgNoData 63#6) := by decide

theorem test_decode_msgData1b : decode (.frame [0b00001001#8, 0x7A#8]) = .ok (.msgData1b 2#6 0x7A#8) := by decide

theorem test_decode_msgData2b :
    decode (.frame [0b00001110#8, 0xAA#8, 0xBB#8]) = .ok (.msgData2b 3#6 0xAA#8 0xBB#8) := by decide

theorem test_decode_msgDataNb :
    decode (.frame [0b00001011#8, 0x05#8, 0x10#8, 0x11#8, 0x12#8, 0x13#8, 0x14#8]) =
      .ok (.msgDataNb 2#6 5#8 [0x10#8, 0x11#8, 0x12#8, 0x13#8, 0x14#8]) := by decide

theorem test_decode_reset : decode (.op 0b0000#4 .none) = .ok .reset := by decide
theorem test_decode_start : decode (.op 0b0001#4 .none) = .ok .start := by decide
theorem test_decode_resolve : decode (.op 0b0010#4 (.budget 100)) = .ok (.resolve 100) := by decide
theorem test_decode_rxh : decode (.op 0b0011#4 .none) = .ok .rxh := by decide
theorem test_decode_txh : decode (.op 0b0100#4 .none) = .ok .txh := by decide
theorem test_decode_rbPush_in : decode (.op 0b0101#4 (.ringByte 0#1 0x41#8)) = .ok (.rbPush .inbound 0x41#8) := by
  decide
theorem test_decode_rbPush_out : decode (.op 0b0101#4 (.ringByte 1#1 0x41#8)) = .ok (.rbPush .outbound 0x41#8) := by
  decide
theorem test_decode_rbPop : decode (.op 0b0110#4 (.ring 1#1)) = .ok (.rbPop .outbound) := by decide
theorem test_decode_rbClear : decode (.op 0b0111#4 (.ring 0#1)) = .ok (.rbClear .inbound) := by decide
theorem test_decode_decStep : decode (.op 0b1000#4 (.byte 0x09#8)) = .ok (.decStep 0x09#8) := by decide
theorem test_decode_inTurn : decode (.op 0b1001#4 .none) = .ok .inTurn := by decide
theorem test_decode_encStep : decode (.op 0b1010#4 .none) = .ok .encStep := by decide
theorem test_decode_errReport : decode (.op 0b1011#4 .none) = .ok .errReport := by decide
theorem test_decode_arbSel : decode (.op 0b1100#4 .none) = .ok .arbSel := by decide

theorem test_decode_refuses_a_cut_frame : decode (.frame [0x0B#8, 0x01#8]) = .error .truncatedFrame := by decide

theorem test_decode_refuses_a_long_frame : decode (.frame [0x04#8, 0x00#8]) = .error .trailingBytes := by decide

theorem test_decode_refuses_missing_operands : decode (.op 0b0101#4 .none) = .error (.operandMismatch 5#4) := by
  decide

/-- The first byte is the low one: `09 7A` numbered as the table numbers bits. -/
theorem test_tableWord_frame : decodeTableWord 16 0x7A09 = some (.msgData1b 2#6 0x7A#8) := by decide

/-- Bits above `nbits` are zero: an NB type byte alone has the length byte 0. -/
theorem test_tableWord_short_frame : decodeTableWord 8 0x03 = some (.msgDataNb 0#6 0#8 []) := by decide

/-- 16 bits are always a frame: the error frame of `T0`. -/
theorem test_tableWord_wide_frame : decodeTableWord 16 0x04 = some (.msgNoData 1#6) := by decide

theorem test_tableWord_op :
    decodeTableWord 4 0b0111 = some (.rbClear .inbound) ∧ decodeTableWord 4 0b0000 = some .reset ∧
      decodeTableWord 8 0b1100 = some .arbSel := by decide

theorem test_tableWord_unassigned : decodeTableWord 4 0b1101 = none := by decide

/-! ### Small states -/

/-- Instantiation `T0` with rings of capacity 4 (vectors B1 to B7, E14). -/
def cap4 : Params :=
  { Params.T0 with cIn := 4, cOut := 4, two_le_cIn := by decide, two_le_cOut := by decide }

/-- After `RESET; START` (95_test_vectors.md, start state). -/
def base : State := { State.reset with rxIe := true }

/-- The same with rings of capacity 4. -/
def base4 : State := { State.resetOf cap4 true with rxIe := true }

/-- A ring with the given indices whose array holds `bytes` from slot 0 on. -/
def ringOf (first last : Nat) (bytes : List Byte) : Ring := ⟨first, last, (Memory.unspecified 0).writeFrom 0 bytes⟩

/-- A message of two payload bytes or fewer. -/
def msg0 (t : Byte) : Message := ⟨t, 0#8, [], by decide⟩
def msg1 (t p0 : Byte) : Message := ⟨t, 1#8, [p0], by simp⟩
def msg2 (t p0 p1 : Byte) : Message := ⟨t, 2#8, [p0, p1], by simp⟩

/-- The outcome is a next state of which `p` holds. -/
def andThen (o : Host.Outcome State Fault Refusal) (p : State → Bool) : Bool :=
  match o with
  | .next t => p t
  | .fault _ => false
  | .refused _ => false

/-- The outcome is a fault. -/
def faults (o : Host.Outcome State Fault Refusal) : Bool :=
  match o with
  | .next _ => false
  | .fault _ => true
  | .refused _ => false

/-- A message as the vectors write it. -/
def shown (q : List Message) : List (Byte × Byte × List Byte) := q.map (fun m => (m.type, m.size, m.payload))

/-! ### Rings (vectors B1, B6, B7) -/

theorem test_rbPush_wraps_B1 :
    andThen (exec (.rbPush .inbound 0x55#8) { base4 with inRing := ringOf 2 3 [0x11#8, 0x22#8, 0x33#8] }) (fun t =>
      t.result == .ok && t.inRing.startIx == 2 && t.inRing.endIx == 0 && t.inRing.buf.read 3 == 0x55#8 &&
        t.inRing.buf.read 2 == 0x33#8) = true := by decide

theorem test_rbPush_full_B7 :
    andThen (exec (.rbPush .outbound 0x05#8) { base4 with outRing := ringOf 1 0 [0x01#8, 0x02#8, 0x03#8, 0x04#8] })
      (fun t => t.result == .full && t.outRing == ringOf 1 0 [0x01#8, 0x02#8, 0x03#8, 0x04#8]) = true := by decide

theorem test_rbPop_wraps_B1 :
    andThen (exec (.rbPop .outbound) { base4 with outRing := ringOf 3 1 [0x66#8, 0x22#8, 0x33#8, 0x55#8] }) (fun t =>
      t.result == .okByte 0x55#8 && t.outRing.startIx == 0 && t.outRing.endIx == 1) = true := by decide

theorem test_rbPop_empty_B1 :
    andThen (exec (.rbPop .inbound) { base4 with inRing := ringOf 1 1 [] }) (fun t =>
      t.result == .empty && t.inRing == ringOf 1 1 []) = true := by decide

theorem test_rbClear_B6 :
    andThen (exec (.rbClear .inbound) { base4 with inRing := ringOf 0 3 [0x01#8, 0x02#8, 0x03#8] }) (fun t =>
      t.inRing.startIx == 3 && t.inRing.endIx == 3) = true := by decide

theorem test_rbClear_keeps_the_cursor_R270 :
    andThen (exec (.rbClear .outbound) { base with enc := { base.enc with count := 3#9 }, txBusy := true, txIe := true })
      (fun t => t.enc.count == 3#9 && t.txBusy && t.txIe) = true := by decide

/-! ### Decoder (vectors DEC) -/

/-- In the middle of `0E AA BB`, after `0E AA`. -/
def midFrame : State :=
  { base with dec := ⟨2#9, 0x0E#8, 2#8, (Memory.unspecified 2).write 0 0xAA#8⟩ }

/-- After the type byte of `0B 05 ..`. -/
def atLength : State := { base with dec := ⟨1#9, 0x0B#8, 2#8, Memory.unspecified 2⟩ }

theorem test_decStep_length_DEC5 :
    andThen (exec (.decStep 0x05#8) atLength) (fun t =>
      t.result == .more && t.dec.count == 2#9 && t.dec.msgSize == 5#8) = true := by decide

theorem test_decStep_completes_DEC3 :
    andThen (exec (.decStep 0xBB#8) midFrame) (fun t =>
      t.result == .complete && t.dec.count == 0#9 && shown t.inQ == [(0x0E#8, 2#8, [0xAA#8, 0xBB#8])]) = true := by
  decide

theorem test_inTurn_example_R148 :
    andThen (exec .inTurn { base with inRing := ringOf 0 2 [0x09#8, 0x7A#8] }) (fun t =>
      t.result == .more && t.inRing.startIx == 1 && t.dec.count == 1#9 && t.dec.msgType == 0x09#8 &&
        t.dec.msgSize == 1#8 && t.todo == []) = true := by decide

theorem test_inTurn_empty_R148 : andThen (exec .inTurn base) (fun t => t.result == .empty && t.dec == base.dec) = true := by
  decide

theorem test_msgNoData_DEC1b :
    andThen (exec (.msgNoData 63#6) base) (fun t => shown t.inQ == [(0xFC#8, 0#8, [])] && t.dec.count == 0#9) = true := by
  decide

theorem test_msgData1b_DEC2 :
    andThen (exec (.msgData1b 2#6 0x7A#8) base) (fun t => shown t.inQ == [(0x09#8, 1#8, [0x7A#8])]) = true := by decide

/-- DEC14: the queue is full, the message is lost and the error recorded. -/
theorem test_msgData1b_rejected_DEC14 :
    andThen (exec (.msgData1b 2#6 0x7A#8) { base with inQ := [msg0 0#8, msg0 4#8, msg0 8#8, msg0 12#8] }) (fun t =>
      t.result == .rejected && t.lastError == 0x08#8 && t.inQ.length == 4 && t.dec.count == 0#9) = true := by decide

theorem test_msgData2b_DEC10 :
    andThen (exec (.msgData2b 0#6 0x01#8 0x02#8) base) (fun t => shown t.inQ == [(0x02#8, 2#8, [0x01#8, 0x02#8])]) =
      true := by decide

/-- DEC16: the bytes of a frame that meets the decoder inside another frame are taken as its remainder. -/
theorem test_msgData1b_misframed_DEC16 :
    andThen (exec (.msgData1b 2#6 0x7A#8) midFrame) (fun t =>
      shown t.inQ == [(0x0E#8, 2#8, [0xAA#8, 0x09#8])] && t.dec.msgType == 0x7A#8 && t.dec.count == 1#9) = true := by
  decide

theorem test_msgDataNb_DEC7 :
    andThen (exec (.msgDataNb 63#6 1#8 [0x99#8]) base) (fun t => shown t.inQ == [(0xFF#8, 1#8, [0x99#8])]) = true := by
  decide

/-! ### Encoder (vectors E4, E5, E14, E15) -/

theorem test_encStep_rederives_E5 :
    andThen (exec .encStep { base with outQ := [msg1 0x09#8 0x7A#8] }) (fun t =>
      t.enc.count == 0#9 && t.enc.msgSize == 0#8 && t.outRing.endIx == 1 && t.outRing.buf.read 0 == 0x09#8 &&
        t.outQ == [] && t.txBusy && t.txIe && t.lastError == 0#8 && t.result == .ok) = true := by decide

/-- E14, fourth step: the byte is dropped, the cursor advances, the error is recorded. -/
theorem test_encStep_full_E14 :
    andThen (exec .encStep
        { base4 with
          outRing := ringOf 0 3 [0x0B#8, 0x05#8, 0x10#8], txBusy := true, txIe := true
          enc := ⟨3#9, 0x0B#8, 5#8, 5#8,
            (Memory.unspecified 3).writeFrom 0 [0x10#8, 0x11#8, 0x12#8, 0x13#8, 0x14#8]⟩ }) (fun t =>
      t.result == .full && t.outRing == ringOf 0 3 [0x0B#8, 0x05#8, 0x10#8] && t.enc.count == 4#9 &&
        t.lastError == 0x04#8 && t.txBusy && t.txIe) = true := by decide

/-! ### Resolver (vectors P1, X2, X3, A1, X5) -/

theorem test_resolve_P1 :
    andThen (exec (.resolve 10) { base with inRing := ringOf 0 2 [0x09#8, 0x7A#8] }) (fun t =>
      shown t.inQ == [(0x09#8, 1#8, [0x7A#8])] && t.inRing.startIx == 2 && t.lastDir == .inbound && t.budget == 8 &&
        t.dec.count == 0#9 && t.todo == [] && t.outRing == base.outRing && !t.txBusy) = true := by decide

/-- X5: the four inbound slots are taken; after `A_EVAL`, `A_POP`, `A_DEC`, `A_ERR1` of `RESOLVE 1` the rejection is
queued for the host and the flag not yet cleared. -/
theorem test_resolve_suspended_X5 :
    andThen (exec (.resolve 1)
        { base with
          txEn := false, quantum := some 4, inRing := ringOf 0 6 [0#8, 0#8, 0#8, 0#8, 0#8, 0#8]
          inQ := [msg0 0#8, msg0 0#8, msg0 0#8, msg0 0#8] }) (fun t =>
      shown t.outQ == [(0x08#8, 0#8, [])] && t.lastError == 0x08#8 && t.inRing.startIx == 1 &&
        t.todo == [.err2 0x08#8 true, .eval]) = true := by decide

theorem test_errReport_X2 :
    andThen (exec .errReport { base with lastError := 0x04#8 }) (fun t =>
      shown t.outQ == [(0x04#8, 0#8, [])] && t.lastError == 0#8) = true := by decide

theorem test_errReport_refused_X3 :
    andThen (exec .errReport
        { base with lastError := 0x08#8, outQ := [msg0 4#8, msg0 4#8, msg0 4#8, msg0 4#8] }) (fun t =>
      t.outQ.length == 4 && t.lastError == 0#8) = true := by decide

theorem test_arbSel_alternates_A1 :
    andThen (exec .arbSel { base with samples := ⟨false, true, .inbound⟩, lastDir := .inbound }) (fun t =>
      t.lastDir == .outbound && t.result == .okDir .outbound) = true := by decide

theorem test_arbSel_rule2_A1 :
    andThen (exec .arbSel { base with samples := ⟨false, false, .inbound⟩, lastDir := .inbound }) (fun t =>
      t.lastDir == .inbound) = true := by decide

/-! ### Handlers, reset, start (vectors H1, H3, H4, H5, Z1, Z2) -/

theorem test_rxh_H1 :
    andThen (exec .rxh { base with rxReq := true, rxByte := 0x5A#8 }) (fun t =>
      t.inRing.buf.read 0 == 0x5A#8 && t.inRing.endIx == 1 && !t.rxReq && t.lastError == 0#8) = true := by decide

theorem test_rxh_overrun_H3 :
    andThen (exec .rxh { base with rxReq := true, rxByte := 0x01#8, inRing := ringOf 0 7 [], lastError := 0x08#8 })
      (fun t => t.inRing == ringOf 0 7 [] && !t.rxReq && t.lastError == 0x04#8 && t.rxResult == .full) = true := by
  decide

theorem test_txh_H4 :
    andThen (exec .txh
        { base with outRing := ringOf 2 4 [0#8, 0#8, 0x0B#8, 0x05#8], txIe := true, txBusy := true }) (fun t =>
      t.wire == [0x0B#8] && t.outRing.startIx == 3 && !t.txReq && t.txBusy && t.txIe) = true := by decide

theorem test_txh_empty_H5 :
    andThen (exec .txh { base with outRing := ringOf 4 4 [], txIe := true, txBusy := true, lastError := 0x08#8 })
      (fun t => t.wire == [] && !t.txBusy && !t.txIe && t.txReq && t.lastError == 0x08#8) = true := by decide

theorem test_reset_Z1 :
    andThen (exec .reset
        { midFrame with inRing := ringOf 7 7 [], outRing := ringOf 1 1 [], lastDir := .inbound }) (fun t =>
      t.inRing.startIx == 0 && t.inRing.endIx == 0 && t.outRing.startIx == 0 && t.outRing.endIx == 0 &&
        t.dec.count == 0#9 && t.enc.count == 0#9 && !t.txBusy && !t.txIe && !t.rxIe && t.lastError == 0#8 &&
        t.lastDir == .outbound) = true := by decide

theorem test_start_Z2 : andThen (exec .start State.reset) (fun t => t.rxIe && !t.txIe) = true := by decide

/-- The first step after reset of a placed frame (vector DEC1). -/
theorem test_step_places_a_frame :
    andThen (step (State.reset.withFetchWord 8 0x00)) (fun t => shown t.inQ == [(0#8, 0#8, [])] && t.agenda == []) =
      true := by decide

/-! ### Witnesses: for every obligation with hypotheses, states and operands that meet them -/

/-- A schedule that invokes one word. -/
def scheduled (w : CodeWord) : State := { base with agenda := [⟨.invoke w, none⟩] }

theorem witness_UnassignedOpSelIsRefused :
    13 ≤ (13#4).toNat ∧ 13 ≤ (15#4).toNat ∧
      (scheduled (.op 13#4 .none)).agenda = ⟨.invoke (.op 13#4 .none), none⟩ :: [] ∧
      (scheduled (.op 15#4 (.byte 1#8))).agenda = ⟨.invoke (.op 15#4 (.byte 1#8)), none⟩ :: [] := by decide

/-- A payload of the longest frame, 255 bytes. -/
def longPayload : List Byte := (Memory.unspecified 0).readFrom 0 255

theorem longPayload_length : longPayload.length = 255 := Memory.readFrom_length _ _ _

/-- The length premise of `EveryByteStringOfFrameLengthDecodes`, as that statement writes it. -/
def hasFrameLength (t : Byte) (rest : List Byte) : Prop :=
  rest.length + 1 =
    (match t.extractLsb' 0 2 with
      | 0b00#2 => 1
      | 0b01#2 => 2
      | 0b10#2 => 3
      | _ => 2 + (rest.headD 0#8).toNat)

theorem witness_EveryByteStringOfFrameLengthDecodes :
    hasFrameLength 0xFC#8 [] ∧ hasFrameLength 0xC1#8 [0xFF#8] ∧ hasFrameLength 0x02#8 [0x00#8, 0xFF#8] ∧
      hasFrameLength 0xFF#8 [0x00#8] ∧ hasFrameLength 0x03#8 (255#8 :: longPayload) :=
  ⟨rfl, rfl, rfl, rfl, by
    show (longPayload.length + 1) + 1 = 257
    rw [longPayload_length]⟩

theorem witness_DecodeOfEncodeIsTheInstruction :
    (Instr.msgDataNb 63#6 0#8 []).wellFormed = true ∧ (Instr.msgDataNb 2#6 2#8 [0xDE#8, 0xAD#8]).wellFormed = true ∧
      (Instr.msgDataNb 0#6 255#8 longPayload).wellFormed = true ∧
      (Instr.rbPush .outbound 0xFF#8).wellFormed = true :=
  ⟨rfl, rfl, by simp only [Instr.wellFormed, longPayload_length]; decide, rfl⟩

theorem witness_DecodedWordsAreTheEncoding :
    decode (.frame [0xFF#8, 0x01#8, 0x99#8]) = .ok (.msgDataNb 63#6 1#8 [0x99#8]) ∧
      decode (.op 12#4 .none) = .ok .arbSel := by decide

theorem witness_StepRunsTheScheduledInstruction :
    (scheduled (.op 10#4 .none)).agenda = ⟨.invoke (.op 10#4 .none), none⟩ :: [] ∧
      decode (.op 10#4 .none) = .ok .encStep := by decide

theorem witness_PlacedWordIsTheNextStep :
    decodeTableWord 16 0x7A09 = some (.msgData1b 2#6 0x7A#8) ∧ decodeTableWord 4 12 = some .arbSel := by decide

theorem witness_IdleStepChangesNothing : base.agenda = [] ∧ base.todo = [] := by decide

/-- An inbound turn owed. -/
def owesPop : State := { base with todo := [.pop] }

/-- Both rings full, the producer index at the last slot. -/
def bothFull : State := { base4 with inRing := ringOf 0 3 [], outRing := ringOf 0 3 [] }

/-- Both rings empty, both indices at the last slot. -/
def bothEmpty : State := { base4 with inRing := ringOf 3 3 [], outRing := ringOf 3 3 [] }

/-- `base` with a message queued and a schedule of two entries: `e` with quantum `m`, then `resume` with quantum `n`. -/
def twoEntries (s : State) (e : Event) (m n : Nat) : State := { s with agenda := [⟨e, some m⟩, ⟨.resume, some n⟩] }

/-- Both steps answer a next state, and the second performs what the first left: the push and the kick. -/
theorem witness_InterruptedRunsCompose :
    decode (.op 10#4 .none) = .ok .encStep ∧ Instr.encStep ≠ .rxh ∧ Instr.encStep ≠ .txh ∧
    (∀ s ∈ [twoEntries { base with outQ := [msg0 4#8] } (.invoke (.op 10#4 .none)) 1 2,
        twoEntries { base with todo := [.enc1], outQ := [msg0 4#8] } .resume 1 2],
      andThen (step s) (fun u => u.todo == [.enc2 4#8] && u.outRing.endIx == 0 &&
        andThen (step u) (fun t => t.todo == [] && t.outRing.endIx == 1 && t.txIe)) = true) ∧
    faults (step (twoEntries { bothEmpty with outRing := ringOf 2 4 [], todo := [.enc2 0#8] } .resume 1 2)) = true ∧
    andThen
      (step (twoEntries { bothEmpty with outRing := ringOf 2 4 [], outQ := [msg0 4#8] } (.invoke (.op 10#4 .none)) 1 2))
      (fun u => faults (step u)) = true := by decide

/-- Both rings hold the one byte of the last slot. -/
def bothOne : State :=
  { base4 with inRing := ringOf 3 0 [1#8, 2#8, 3#8, 4#8], outRing := ringOf 3 0 [1#8, 2#8, 3#8, 4#8] }

theorem witness_RbPushStoresAtEndOrReportsFull :
    ∀ r : Dir,
      (bothFull.todo = [] ∧ (bothFull.ring r).endIx < bothFull.cap r ∧
        ((bothFull.ring r).endIx + 1) % bothFull.cap r = (bothFull.ring r).startIx) ∧
      (bothEmpty.todo = [] ∧ (bothEmpty.ring r).endIx < bothEmpty.cap r ∧
        ((bothEmpty.ring r).endIx + 1) % bothEmpty.cap r ≠ (bothEmpty.ring r).startIx) := by
  intro r; cases r <;> decide

theorem witness_RbPopTakesAtStartOrReportsEmpty :
    ∀ r : Dir,
      (bothEmpty.todo = [] ∧ (bothEmpty.ring r).startIx < bothEmpty.cap r ∧
        (bothEmpty.ring r).startIx = (bothEmpty.ring r).endIx) ∧
      (bothOne.todo = [] ∧ (bothOne.ring r).startIx < bothOne.cap r ∧
        (bothOne.ring r).startIx ≠ (bothOne.ring r).endIx) := by
  intro r; cases r <;> decide

theorem witness_RbClearSetsStartToEnd : bothFull.todo = [] := by decide

/-- The rings of the small states are in form. -/
theorem small_rings_wf (r : Dir) :
    (bothFull.ring r).wf (bothFull.cap r) ∧ (bothEmpty.ring r).wf (bothEmpty.cap r) ∧
      (bothOne.ring r).wf (bothOne.cap r) := by
  unfold Ring.wf
  cases r <;> decide

theorem witness_PushAppendsToTheBytesHeld (r : Dir) :
    (bothFull.todo = [] ∧ (bothFull.ring r).wf (bothFull.cap r) ∧
      (bothFull.ring r).count (bothFull.cap r) = bothFull.cap r - 1) ∧
    (bothOne.todo = [] ∧ (bothOne.ring r).wf (bothOne.cap r) ∧
      (bothOne.ring r).count (bothOne.cap r) < bothOne.cap r - 1) :=
  ⟨⟨rfl, (small_rings_wf r).1, by cases r <;> decide⟩, rfl, (small_rings_wf r).2.2, by cases r <;> decide⟩

theorem witness_PopRemovesTheOldestByte (r : Dir) :
    (bothEmpty.todo = [] ∧ (bothEmpty.ring r).wf (bothEmpty.cap r) ∧ (bothEmpty.ring r).bytes (bothEmpty.cap r) = []) ∧
    (bothOne.todo = [] ∧ (bothOne.ring r).wf (bothOne.cap r) ∧
      (bothOne.ring r).bytes (bothOne.cap r) = [4#8]) :=
  ⟨⟨rfl, (small_rings_wf r).2.1, by cases r <;> decide⟩, rfl, (small_rings_wf r).2.2, by cases r <;> decide⟩

theorem witness_ClearEmptiesAndIsIdempotent (r : Dir) :
    (bothFull.todo = [] ∧ (bothFull.ring r).wf (bothFull.cap r)) ∧
    (bothEmpty.todo = [] ∧ (bothEmpty.ring r).wf (bothEmpty.cap r) ∧
      (bothEmpty.ring r).startIx = (bothEmpty.ring r).endIx) :=
  ⟨⟨rfl, (small_rings_wf r).1⟩, rfl, (small_rings_wf r).2.1, by cases r <;> rfl⟩

/-- A byte waits in the hardware, both handlers may run, the last inbound slot is free and a byte waits outbound. -/
def bothPending : State :=
  { base with
    rxReq := true, rxByte := 0x5A#8, txBusy := true, txIe := true
    inRing := ringOf 1 7 [], outRing := ringOf 7 0 [0#8, 0#8, 0#8, 0#8, 0#8, 0#8, 0#8, 0x41#8] }

theorem witness_PushesStoreOneByteOnly :
    andThen (exec (.rbPush .outbound 0x41#8) bothEmpty) (fun t => t.result == .ok) = true ∧
    andThen (exec .rxh bothPending) (fun t => t.rxResult == .ok) = true ∧
    ({ base with outQ := [msg0 4#8] } : State).todo = [] ∧
    andThen (exec .encStep { base with outQ := [msg0 4#8] }) (fun t => t.result == .ok) = true := by decide

/-- The inbound queue is full. -/
def inQFull (s : State) : State := { s with inQ := [msg0 0#8, msg0 0#8, msg0 0#8, msg0 0#8] }

theorem witness_NoDataTypeByteCompletes :
    base.Ready ∧ base.dec.count = 0#9 ∧ (0xFC#8).extractLsb' 0 2 = 0b00#2 ∧ ¬Refuses base .inbound ∧
    (inQFull base).Ready ∧ (inQFull base).dec.count = 0#9 ∧ Refuses (inQFull base) .inbound := by
  unfold State.Ready Refuses
  decide

theorem witness_TypeByteStartsAFrame :
    base.Ready ∧ base.dec.count = 0#9 ∧ (0x09#8).extractLsb' 0 2 ≠ 0b00#2 ∧ (0xFE#8).extractLsb' 0 2 ≠ 0b00#2 ∧
      (0xFF#8).extractLsb' 0 2 ≠ 0b00#2 := by
  unfold State.Ready
  decide

theorem witness_LengthByteSetsTheSize :
    atLength.Ready ∧ atLength.dec.count = 1#9 ∧ atLength.dec.msgType.extractLsb' 0 2 = 0b11#2 ∧
    (255#8 : Byte) ≠ 0#8 ∧ (1#8 : Byte) ≠ 0#8 ∧ ¬Refuses atLength .inbound ∧
    (inQFull atLength).Ready ∧ (inQFull atLength).dec.count = 1#9 ∧
    (inQFull atLength).dec.msgType.extractLsb' 0 2 = 0b11#2 ∧ Refuses (inQFull atLength) .inbound := by
  unfold State.Ready Refuses
  decide

/-- Before the last payload byte but one of the longest frame: 255 bytes consumed of 257. -/
def nearEnd : State := { base with dec := ⟨255#9, 0x07#8, 255#8, Memory.unspecified 2⟩ }

/-- Before the last payload byte of the longest frame, and of `0E AA BB`. -/
def atEnd : State := { base with dec := ⟨256#9, 0x07#8, 255#8, Memory.unspecified 2⟩ }

theorem witness_PayloadByteIsStored :
    nearEnd.Ready ∧ nearEnd.dec.count ≠ 0#9 ∧
      ¬(nearEnd.dec.count = 1#9 ∧ nearEnd.dec.msgType.extractLsb' 0 2 = 0b11#2) ∧
      nearEnd.dec.msgType.extractLsb' 0 2 ≠ 0b00#2 ∧
      nearEnd.dec.count.toNat + 1 <
        (if nearEnd.dec.msgType.extractLsb' 0 2 = 0b11#2 then 2 else 1) + nearEnd.dec.msgSize.toNat := by
  unfold State.Ready
  decide

theorem witness_LastPayloadByteDelivers :
    (atEnd.Ready ∧ atEnd.dec.count ≠ 0#9 ∧
      ¬(atEnd.dec.count = 1#9 ∧ atEnd.dec.msgType.extractLsb' 0 2 = 0b11#2) ∧
      atEnd.dec.count.toNat + 1 =
        (if atEnd.dec.msgType.extractLsb' 0 2 = 0b11#2 then 2 else 1) + atEnd.dec.msgSize.toNat ∧
      ¬Refuses atEnd .inbound) ∧
    ((inQFull midFrame).Ready ∧ (inQFull midFrame).dec.count ≠ 0#9 ∧
      ¬((inQFull midFrame).dec.count = 1#9 ∧ (inQFull midFrame).dec.msgType.extractLsb' 0 2 = 0b11#2) ∧
      (inQFull midFrame).dec.count.toNat + 1 =
        (if (inQFull midFrame).dec.msgType.extractLsb' 0 2 = 0b11#2 then 2 else 1) +
          (inQFull midFrame).dec.msgSize.toNat ∧
      Refuses (inQFull midFrame) .inbound) := by
  unfold State.Ready Refuses
  decide

/-- The frame `0E AA ..` is within the invariant. -/
theorem midFrame_inv : midFrame.Inv where
  inRing := by unfold Ring.wf; decide
  outRing := by unfold Ring.wf; decide
  dec := by unfold Decoder.wf; decide
  enc := by unfold Encoder.wf; decide
  busy := by decide

theorem witness_DecStepStoresWithinThePayload :
    base.Ready ∧ andThen (exec (.decStep 0x09#8) base) (fun t => t.result == .more) = true ∧
    midFrame.Inv ∧ midFrame.Ready ∧ midFrame.dec.count ≠ 0#9 ∧
      ¬(midFrame.dec.count = 1#9 ∧ classOf midFrame.dec.msgType = .dataNb) ∧
      andThen (exec (.decStep 0xBB#8) midFrame) (fun t => t.result == .complete) = true ∧
    atLength.Ready ∧ atLength.dec.count = 1#9 ∧ classOf atLength.dec.msgType = .dataNb ∧
      andThen (exec (.decStep 0x00#8) atLength) (fun t => t.result == .complete) = true := by
  refine ⟨⟨rfl, rfl⟩, by decide, midFrame_inv, ⟨rfl, rfl⟩, by decide, by decide, by decide, ⟨rfl, rfl⟩, by decide⟩

theorem witness_InTurnPopsThenDecodes :
    (bothEmpty.Ready ∧ bothEmpty.inRing.startIx < bothEmpty.cfg.cIn ∧
      bothEmpty.inRing.startIx = bothEmpty.inRing.endIx) ∧
    (bothOne.Ready ∧ bothOne.inRing.startIx < bothOne.cfg.cIn ∧ bothOne.inRing.startIx ≠ bothOne.inRing.endIx) := by
  unfold State.Ready
  decide

/-- For the first conjunct a frame that meets the decoder inside another one (DEC16), and one whose payload is short. -/
theorem witness_FrameDeliversItsMessage :
    (encode (.msgData1b 2#6 0x7A#8) = .frame [0x09#8, 0x7A#8] ∧ midFrame.Ready ∧ midFrame.dec.count ≠ 0#9 ∧
      encode (.msgDataNb 2#6 5#8 []) = .frame [0x0B#8, 5#8]) ∧
    (frameFields (.msgDataNb 63#6 0#8 []) = some (0xFF#8, 0#8, []) ∧ (Instr.msgDataNb 63#6 0#8 []).wellFormed = true) ∧
    (frameFields (.msgData2b 0#6 1#8 2#8) = some (0x02#8, 2#8, [1#8, 2#8]) ∧
      (Instr.msgData2b 0#6 1#8 2#8).wellFormed = true) ∧
    (base.Ready ∧ base.dec.count = 0#9 ∧ ¬Refuses base .inbound) ∧
    ((inQFull base).Ready ∧ (inQFull base).dec.count = 0#9 ∧ Refuses (inQFull base) .inbound) := by
  unfold State.Ready Refuses
  decide

theorem witness_EncStepWithoutMessageDoesNothing : base.Ready ∧ base.enc.count = 0#9 ∧ base.outQ = [] := by
  unfold State.Ready
  decide

/-- One message queued; the outbound ring full or empty at its last slot. -/
def sending (s : State) (m : Message) : State := { s with outQ := [m] }

theorem witness_EncStepSendsTheTypeByte :
    ∀ s ∈ [sending bothFull (msg0 0xC0#8), sending bothEmpty (msg1 0x09#8 0x7A#8), sending bothEmpty (msg0 0x0B#8)],
      (s.todo = [] ∧ s.quantum = none) ∧ s.enc.count = 0#9 ∧ (∃ m, s.outQ = m :: []) ∧
        s.outRing.endIx < s.cfg.cOut := by
  intro s hs
  simp only [List.mem_cons, List.not_mem_nil, or_false] at hs
  rcases hs with rfl | rfl | rfl <;> exact ⟨⟨rfl, rfl⟩, rfl, ⟨_, rfl⟩, by decide⟩

/-- An NB message after its type byte; its size is 0 or 255. -/
def encAtLength (size : Byte) : State :=
  { bothEmpty with enc := ⟨1#9, 0x0B#8, size, 0#8, Memory.unspecified 3⟩ }

theorem witness_EncStepSendsTheLengthByte :
    ∀ size ∈ [0#8, 255#8],
      ((encAtLength size).todo = [] ∧ (encAtLength size).quantum = none) ∧ (encAtLength size).enc.count = 1#9 ∧
        (encAtLength size).enc.msgType.extractLsb' 0 2 = 0b11#2 ∧
        (encAtLength size).outRing.endIx < (encAtLength size).cfg.cOut := by decide

/-- `{0xC1, 1, [0x7A]}` (vector E7) before its payload byte, and before its first over-read. -/
def encAt (count : Cnt) : State :=
  { bothEmpty with enc := ⟨count, 0xC1#8, 3#8, 1#8, (Memory.unspecified 3).write 0 0x7A#8⟩ }

theorem witness_EncStepSendsAPayloadByte :
    (∀ c ∈ [1#9, 2#9, 3#9],
      ((encAt c).todo = [] ∧ (encAt c).quantum = none) ∧ (encAt c).enc.count ≠ 0#9 ∧
        ¬((encAt c).enc.count = 1#9 ∧ (encAt c).enc.msgType.extractLsb' 0 2 = 0b11#2) ∧
        (encAt c).enc.msgType.extractLsb' 0 2 ≠ 0b00#2 ∧ (encAt c).outRing.endIx < (encAt c).cfg.cOut) ∧
    (encAt 1#9).enc.count.toNat - 1 < (encAt 1#9).enc.plen.toNat ∧
    (encAt 2#9).enc.plen.toNat ≤ (encAt 2#9).enc.count.toNat - 1 ∧
    (encAt 3#9).enc.count.toNat + 1 = 1 + (encAt 3#9).enc.msgSize.toNat := by decide

theorem witness_EncStepStoresTheDequeuedPayload :
    (sending base (msg2 0x82#8 0xAA#8 0xBB#8)).Ready ∧ (sending base (msg2 0x82#8 0xAA#8 0xBB#8)).enc.count = 0#9 ∧
      (sending base (msg2 0x82#8 0xAA#8 0xBB#8)).outQ = msg2 0x82#8 0xAA#8 0xBB#8 :: [] ∧
      andThen (exec .encStep (sending base (msg2 0x82#8 0xAA#8 0xBB#8))) (fun t => t.result == .ok) = true ∧
    base.Ready ∧ base.outQ = [] ∧ andThen (exec .encStep base) (fun t => t.result == .noByte) = true ∧
    (encAtLength 255#8).Ready ∧ (encAtLength 255#8).enc.count ≠ 0#9 ∧
      andThen (exec .encStep (encAtLength 255#8)) (fun t => t.result == .ok) = true := by
  unfold State.Ready
  decide

/-- The invariant of a state of `T0` whose arrays list nothing. -/
theorem base_inv : base.Inv where
  inRing := by unfold Ring.wf; decide
  outRing := by unfold Ring.wf; decide
  dec := by unfold Decoder.wf; decide
  enc := by unfold Encoder.wf; decide
  busy := by decide

/-- Two messages queued, the first of three frame bytes. -/
def queued : State := { base with outQ := [msg2 0x82#8 0xAA#8 0xBB#8, msg0 4#8] }

theorem queued_inv : queued.Inv where
  inRing := by unfold Ring.wf; decide
  outRing := by unfold Ring.wf; decide
  dec := by unfold Decoder.wf; decide
  enc := by unfold Encoder.wf; decide
  busy := by decide

theorem witness_EncoderSendsTheWireImage :
    queued.Inv ∧ queued.Ready ∧ queued.enc.count = 0#9 ∧ queued.outQ = msg2 0x82#8 0xAA#8 0xBB#8 :: [msg0 4#8] ∧
      payloadSent (msg2 0x82#8 0xAA#8 0xBB#8) ≤ (msg2 0x82#8 0xAA#8 0xBB#8).payload.length ∧
      queued.outRing.count queued.cfg.cOut + (wireImage (msg2 0x82#8 0xAA#8 0xBB#8)).length ≤ queued.cfg.cOut - 1 :=
  ⟨queued_inv, ⟨rfl, rfl⟩, rfl, rfl, by decide, by decide⟩

/-- Messages with the bytes sent past their payload: none, or those of the over-reads (vectors E7, E11, E12). -/
theorem witness_RoundTripHoldsExactlyWhenSizesAgree :
    ∀ p ∈ [(msg0 0xFC#8, []), (msg1 0x41#8 0x7A#8, []), (msg1 0x09#8 0x7A#8, []), (msg2 0x82#8 0xAA#8 0xBB#8, []),
        (msg2 0x42#8 0xAA#8 0xBB#8, []), (msg2 0x03#8 0xDE#8 0xAD#8, []), (msg1 0x81#8 0x7A#8, [1#8]),
        (msg1 0xC1#8 0x7A#8, [1#8, 2#8]), (msg2 0xC2#8 0xAA#8 0xBB#8, [3#8])],
      p.1.payload.length = p.1.size.toNat ∧
        (p.1.type.extractLsb' 0 2 = 0b11#2 ∨ p.1.size.toNat = (p.1.type.extractLsb' 0 2).toNat) ∧
        p.2.length = payloadSent p.1 - p.1.payload.length := by decide

theorem witness_ArbSelFollowsTheThreeRules :
    ∀ sm ∈ [(⟨true, false, .inbound⟩ : Samples), ⟨false, false, .inbound⟩, ⟨false, true, .outbound⟩],
      ({ base with samples := sm } : State).todo = [] := by decide

theorem witness_ErrReportWithoutErrorDoesNothing : base.Ready ∧ base.lastError = 0x00#8 := by
  unfold State.Ready
  decide

/-- An error recorded, the outbound queue empty or full. -/
def withError (q : List Message) : State := { base with lastError := 0x04#8, outQ := q }

theorem witness_ErrReportQueuesTheCodeAndClears :
    (withError []).Ready ∧ (withError []).lastError ≠ 0x00#8 ∧ ¬Refuses (withError []) .outbound ∧
    (withError [msg0 4#8, msg0 4#8, msg0 4#8, msg0 4#8]).Ready ∧
    Refuses (withError [msg0 4#8, msg0 4#8, msg0 4#8, msg0 4#8]) .outbound ∧
    Refuses { withError [] with qAnswers := [true] } .outbound := by
  unfold State.Ready Refuses
  decide

/-- A message queued and nothing inbound, the outbound ring full. -/
def outFull : State := { bothFull with inRing := ringOf 3 3 [], outQ := [msg0 4#8] }

/-- A message queued and nothing inbound, transmission disabled. -/
def outDisabled : State := { base with outQ := [msg0 4#8], txEn := false }

theorem witness_ResolveStopsWithoutWork :
    (base.Ready ∧ base.configured = true ∧ base.inRing.startIx = base.inRing.endIx ∧ base.enc.count = 0#9 ∧
      base.outQ = []) ∧
    (bothOne.Ready ∧ bothOne.configured = true) ∧
    (outFull.Ready ∧ outFull.configured = true ∧ outFull.inRing.startIx = outFull.inRing.endIx ∧ outFull.outQ ≠ [] ∧
      (outFull.outRing.endIx + 1) % outFull.cfg.cOut = outFull.outRing.startIx) ∧
    (outDisabled.Ready ∧ outDisabled.configured = true ∧ outDisabled.inRing.startIx = outDisabled.inRing.endIx ∧
      outDisabled.outQ ≠ [] ∧ outDisabled.txEn = false) := by
  unfold State.Ready
  decide

/-- Both directions have work, and the main context is suspended after one action. -/
def contested : State :=
  { base with inRing := ringOf 0 1 [0x00#8], outQ := [msg0 4#8], quantum := some 1 }

theorem witness_EvalSamplesAndChoosesTheTurn :
    contested.todo = [] ∧ contested.quantum = some 1 ∧ contested.configured = true ∧ (1 : Nat) ≠ 0 ∧
      (false = true ↔ contested.inRing.startIx = contested.inRing.endIx) ∧
      (true = true ↔
        (contested.outRing.endIx + 1) % contested.cfg.cOut ≠ contested.outRing.startIx ∧
          (contested.enc.count ≠ 0#9 ∨ contested.outQ ≠ []) ∧ contested.txEn = true) := by decide

theorem witness_ResolveReturns : queued.Inv ∧ queued.Ready ∧ queued.configured = true :=
  ⟨queued_inv, ⟨rfl, rfl⟩, rfl⟩

theorem witness_ResolveSendsNothingWhileDisabled :
    ({ queued with txEn := false } : State).txEn = false ∧ ({ queued with txEn := false } : State).Ready ∧
      andThen (exec (.resolve 100) { queued with txEn := false }) (fun t => t.outRing == queued.outRing) = true := by
  unfold State.Ready
  decide

theorem witness_OverlappingOperationsAreRefused :
    owesPop.todo ≠ [] ∧ owesPop.configured = true ∧ ByMain (.resolve 3) ∧ Instr.resolve 3 ≠ .reset := by
  unfold ByMain
  decide

theorem witness_RxhPushesOrRecordsTheOverrun :
    (bothPending.rxReq = true ∧ bothPending.rxIe = true ∧ bothPending.inRing.endIx < bothPending.cfg.cIn ∧
      (bothPending.inRing.endIx + 1) % bothPending.cfg.cIn ≠ bothPending.inRing.startIx) ∧
    (({ bothFull with rxReq := true } : State).rxReq = true ∧ bothFull.rxIe = true ∧
      bothFull.inRing.endIx < bothFull.cfg.cIn ∧
      (bothFull.inRing.endIx + 1) % bothFull.cfg.cIn = bothFull.inRing.startIx) := by decide

theorem witness_TxhSendsOrStopsTheTransmitter :
    (bothPending.txReq = true ∧ bothPending.txIe = true ∧ bothPending.outRing.startIx < bothPending.cfg.cOut ∧
      bothPending.outRing.startIx ≠ bothPending.outRing.endIx) ∧
    (({ bothEmpty with txIe := true } : State).txIe = true ∧ bothEmpty.txReq = true ∧
      bothEmpty.outRing.startIx < bothEmpty.cfg.cOut ∧ bothEmpty.outRing.startIx = bothEmpty.outRing.endIx) := by
  decide

theorem witness_HandlersRunOnlyPendingAndEnabled :
    (base.rxReq = false ∧ State.reset.rxIe = false) ∧ (base.txIe = false ∧
      ({ bothPending with txReq := false } : State).txReq = false) := by decide

theorem bothPending_inv : bothPending.Inv where
  inRing := by unfold Ring.wf; decide
  outRing := by unfold Ring.wf; decide
  dec := by unfold Decoder.wf; decide
  enc := by unfold Encoder.wf; decide
  busy := by decide

theorem witness_HandlersCommute :
    bothPending.Inv ∧ bothPending.rxReq = true ∧ bothPending.rxIe = true ∧ bothPending.txReq = true ∧
      bothPending.txIe = true :=
  ⟨bothPending_inv, rfl, rfl, rfl, rfl⟩

/-- X5, second schedule: the overrun falls between `A_ERR1` and `A_ERR2`. -/
def betweenReports : State :=
  { bothFull with
    todo := [.err2 0x08#8 true, .eval], rxReq := true, lastError := 0x08#8
    agenda := [⟨.invoke (.op 0b0011#4 .none), none⟩, ⟨.resume, some 1⟩] }

theorem witness_OverrunBetweenReadAndClearIsLost :
    betweenReports.todo = .err2 0x08#8 true :: [.eval] ∧ betweenReports.rxReq = true ∧ betweenReports.rxIe = true ∧
      (betweenReports.inRing.endIx + 1) % betweenReports.cfg.cIn = betweenReports.inRing.startIx ∧
      betweenReports.agenda = ⟨.invoke (.op 0b0011#4 .none), none⟩ :: ⟨.resume, some 1⟩ :: [] := by decide

theorem witness_StartEnablesReceiveOnly :
    State.reset.configured = true ∧ State.reset.todo = [] ∧
      ({ State.reset with configured := false } : State).configured = false := by decide

/-- `s` with one move of the environment scheduled. -/
def moving (s : State) (m : EnvMove) : State := { s with agenda := [⟨.env m, none⟩] }

/-- Three messages of at most four queued outbound, and four. -/
def outQueued (n : Nat) : State := { base with outQ := List.replicate n (msg0 4#8) }

theorem witness_EnvironmentMovesAndWhenTheyAreEnabled :
    (∀ m ∈ [.rx 0x33#8, .txRdy, .oqPush (msg0 4#8), .iqPop, .configured false],
      ∀ s ∈ [base, bothPending, outQueued 3], (moving s m).agenda = ⟨.env m, none⟩ :: []) ∧
    (moving base (.rx 0x33#8)).rxReq = false ∧ (moving bothPending (.rx 0x33#8)).rxReq = true ∧
    (moving { base with txReq := false } .txRdy).txReq = false ∧ (moving base .txRdy).txReq = true ∧
    (moving (outQueued 3) (.oqPush (msg0 4#8))).outQ.length < base.cfg.qcapOut ∧
      base.cfg.qcapOut ≤ (moving (outQueued 4) (.oqPush (msg0 4#8))).outQ.length ∧
    (moving { base with inQ := [msg0 0#8] } .iqPop).inQ = msg0 0#8 :: [] ∧ (moving base .iqPop).inQ = [] ∧
    (moving State.reset (.configured false)).rxIe = false ∧ (moving base (.configured false)).rxIe = true := by
  decide

theorem witness_ParametersAreConstant :
    andThen (step { bothPending with agenda := [⟨.invoke (.op 3#4 .none), none⟩] }) (fun t => t.cfg == base.cfg) =
      true := by decide

theorem witness_ReceiveStaysEnabledAndTxEnConstant :
    andThen (step (scheduled (.op 2#4 (.budget 7)))) (fun t => t.rxIe) = true ∧
      (scheduled (.op 2#4 (.budget 7))).rxIe = true ∧
      ∀ q rest, (scheduled (.op 2#4 (.budget 7))).agenda ≠ ⟨.invoke (.op 0b0000#4 .none), q⟩ :: rest :=
  ⟨by decide, rfl, fun q rest h => by cases h⟩

/-- Suspended before `A_ENC3`, with only a `resume` scheduled. -/
def resuming (todo : List Action) : State := { midFrame with todo := todo, agenda := [⟨.resume, some 1⟩] }

theorem resuming_invokes_nothing (todo : List Action) : InvokesNothing (resuming todo) := by
  intro w q rest h
  simp [resuming] at h

theorem witness_OnlyProducersMoveEndOnlyConsumersMoveStart :
    (InvokesNothing (resuming [.enc3 .ok]) ∧ (∀ a ∈ [Action.enc3 .ok], popsInbound a = false) ∧
      (∀ a ∈ [Action.enc3 .ok], pushesOutbound a = false) ∧
      andThen (step (resuming [.enc3 .ok])) (fun t => t.txIe) = true) ∧
    andThen (exec .txh bothPending) (fun t => t.outRing.startIx == 0) = true ∧ Instr.txh ≠ .reset ∧
      Instr.txh ≠ .rxh ∧ Instr.txh ≠ .inTurn ∧ Instr.txh ≠ .encStep ∧
    andThen (exec .rxh bothPending) (fun t => t.inRing.endIx == 0) = true ∧ Instr.rxh ≠ .reset ∧
      Instr.rxh ≠ .txh ∧ Instr.rxh ≠ .rbPop .outbound :=
  ⟨⟨resuming_invokes_nothing _, by decide, by decide, by decide⟩, by decide⟩

theorem witness_CodecCursorsHaveNoOtherWriter :
    (InvokesNothing (resuming [.err1 false]) ∧ (∀ a ∈ [Action.err1 false], decodes a = false) ∧
      (∀ a ∈ [Action.err1 false], encodes a = false) ∧
      andThen (step (resuming [.err1 false])) (fun t => t.result == .ok) = true) ∧
    andThen (exec (.rbClear .inbound) midFrame) (fun t => t.dec == midFrame.dec) = true ∧
      Instr.rbClear .inbound ≠ .reset ∧ feedsDecoder (.rbClear .inbound) = false ∧
      Instr.rbClear .inbound ≠ .encStep :=
  ⟨⟨resuming_invokes_nothing _, by decide, by decide, by decide⟩, by decide⟩

theorem witness_OnlyHandlersTouchTheDataRegisters :
    (InvokesNothing (resuming [.enc3 .ok]) ∧ andThen (step (resuming [.enc3 .ok])) (fun t => t.txIe) = true ∧
      (∀ b q rest, (resuming [.enc3 .ok]).agenda ≠ ⟨.env (.rx b), q⟩ :: rest) ∧
      ∀ q rest, (resuming [.enc3 .ok]).agenda ≠ ⟨.env .txRdy, q⟩ :: rest) ∧
    (InvokesNothing (moving base (.rx 0x33#8)) ∧ andThen (step (moving base (.rx 0x33#8))) (fun t => t.rxReq) = true ∧
      ∀ q rest, (moving base (.rx 0x33#8)).agenda ≠ ⟨.env .txRdy, q⟩ :: rest) ∧
    andThen (exec .encStep queued) (fun t => t.wire == []) = true ∧ Instr.encStep ≠ .txh ∧ Instr.encStep ≠ .rxh ∧
      Instr.encStep ≠ .reset := by
  refine ⟨⟨resuming_invokes_nothing _, by decide, ?_, ?_⟩, ⟨?_, by decide, ?_⟩, by decide⟩
  · simp [resuming]
  · simp [resuming]
  · simp [InvokesNothing, moving]
  · simp [moving]

theorem witness_OnlyTheErrorReportClearsTheFlag :
    (InvokesNothing { resuming [.dec 0xBB#8] with lastError := 0x08#8 } ∧
      (∀ a ∈ [Action.dec 0xBB#8], reports a = false) ∧
      andThen (step { resuming [.dec 0xBB#8] with lastError := 0x08#8 }) (fun t => t.lastError == 0x08#8) = true) ∧
    andThen (exec .rxh { bothFull with rxReq := true, lastError := 0x08#8 }) (fun t => t.lastError == 0x04#8) = true ∧
      (0x08#8 : Byte) ≠ 0x00#8 ∧ Instr.rxh ≠ .errReport ∧ Instr.rxh ≠ .reset ∧
      ∀ n, Instr.rxh ≠ .resolve n :=
  ⟨⟨resuming_invokes_nothing [.dec 0xBB#8], by decide, by decide⟩, by decide, by decide, by decide, by decide,
    fun n h => by cases h⟩

theorem witness_HandlersLeaveTheMainContextAlone :
    andThen (exec .rxh bothPending) (fun t => t.rxResult == .ok) = true ∧
      andThen (exec .txh bothPending) (fun t => t.txResult == .okByte 0x41#8) = true := by decide

theorem witness_StepsKeepTheInvariant :
    bothPending.Inv ∧ andThen (step bothPending) (fun t => t.inRing.endIx == 7) = true :=
  ⟨bothPending_inv, by decide⟩

theorem witness_StepsFromInvariantStatesNeverFault : bothPending.Inv := bothPending_inv

/-- Bytes wait in the outbound ring with the transmit interrupt enabled, and `TXH` is scheduled. -/
def draining : State := { bothPending with agenda := [⟨.invoke (.op 4#4 .none), none⟩] }

theorem witness_StepsStrandNoByte :
    draining.Inv ∧ draining.NoByteStranded ∧ draining.outRing.isEmpty = false ∧
      (∀ b q rest, draining.agenda ≠ ⟨.invoke (.op 0b0101#4 (.ringByte 1#1 b)), q⟩ :: rest) ∧
      andThen (step draining) (fun t => t.txIe) = true :=
  ⟨⟨bothPending_inv.inRing, bothPending_inv.outRing, bothPending_inv.dec, bothPending_inv.enc, rfl⟩,
    fun _ _ => rfl, by decide, (fun b q rest h => by simp [draining] at h), by decide⟩

theorem witness_MainInstructionsComplete :
    queued.Inv ∧ queued.Ready ∧ queued.configured = true ∧ ByMain (.msgDataNb 2#6 5#8 []) ∧ ByMain .encStep :=
  ⟨queued_inv, ⟨rfl, rfl⟩, rfl, by unfold ByMain; decide, by unfold ByMain; decide⟩

/-- Bytes wait inbound and nothing outbound; nothing inbound and a message outbound; both. -/
def inWork : State := { base with inRing := ringOf 0 1 [0x00#8] }

theorem inWork_inv : inWork.Inv where
  inRing := by unfold Ring.wf; decide
  outRing := by unfold Ring.wf; decide
  dec := by unfold Decoder.wf; decide
  enc := by unfold Encoder.wf; decide
  busy := by decide

theorem bothWork_inv : ({ inWork with outQ := [msg0 4#8] } : State).Inv :=
  ⟨inWork_inv.inRing, inWork_inv.outRing, inWork_inv.dec, inWork_inv.enc, inWork_inv.busy⟩

/-- The premises on the two samples, as `ResolveIsOneIterationThenTheRest` writes them. -/
def Sampled (s : State) (inE outOk : Bool) : Prop :=
  (inE = true ↔ s.inRing.startIx = s.inRing.endIx) ∧
  (outOk = true ↔
    (s.outRing.endIx + 1) % s.cfg.cOut ≠ s.outRing.startIx ∧ (s.enc.count ≠ 0#9 ∨ s.outQ ≠ []) ∧ s.txEn = true) ∧
  (inE = false ∨ outOk = true)

/-- Suspended between the sample of a turn and its step, with `TXH` scheduled in between. -/
def staleOut : State :=
  { draining with todo := [.enc1, .err1 true, .eval], outQ := [msg0 4#8] }

theorem staleOut_finds_work : TurnFindsItsWork staleOut where
  next := by decide
  pop := by decide
  enc1 := by decide
  enc2 := by intro b _ h; cases h

theorem witness_ResolveIsOneIterationThenTheRest :
    (staleOut.Inv ∧ TurnFindsItsWork staleOut ∧ andThen (step staleOut) (fun t => t.wire == [0x41#8]) = true) ∧
    (queued.Inv ∧ queued.Ready ∧ queued.configured = true ∧ Sampled queued true true) ∧
    (inWork.Inv ∧ inWork.Ready ∧ inWork.configured = true ∧ Sampled inWork false false) ∧
    (({ inWork with outQ := [msg0 4#8] } : State).Inv ∧ Sampled { inWork with outQ := [msg0 4#8] } false true) := by
  refine ⟨⟨⟨bothPending_inv.inRing, bothPending_inv.outRing, bothPending_inv.dec, bothPending_inv.enc, rfl⟩,
    staleOut_finds_work, by decide⟩, ⟨queued_inv, ⟨rfl, rfl⟩, rfl, ?_⟩, ⟨inWork_inv, ⟨rfl, rfl⟩, rfl, ?_⟩,
    bothWork_inv, ?_⟩ <;>
    unfold Sampled <;> decide

end Sys2Proof.Tests
end

/-!
PROOF. The parameters are constant (00_scope.md R8). Whatever makes a step (an atomic action, a handler, a direct
ring primitive, a move of the environment) leaves `cfg` as it was; a slice of the main context is a run of actions, so
it does too.
-/

namespace Sys2Proof.Machine

/-! ### What ends in a next state -/

theorem goOn_eq_next {s t : State} : goOn s = .next t ↔ runMain s.slice s = .ok t :=
  outcomeOf_eq_next

theorem invoke_eq_next {as : List Action} {s t : State} (h : invoke as s = .next t) :
    s.todo = [] ∧ runMain (s.owe as).slice (s.owe as) = .ok t := by
  obtain ⟨hidle, hrun⟩ := whenIdle_eq_next h
  exact ⟨hidle, goOn_eq_next.mp hrun⟩

theorem takeHandler_eq_next {taken : Bool} {handler : State → Except Fault State} {s t : State}
    (h : takeHandler taken handler s = .next t) : taken = true ∧ handler s = .ok t := by
  unfold takeHandler at h
  split at h
  · exact ⟨‹_›, outcomeOf_eq_next.mp h⟩
  · cases h

/-! ### The shared operations -/

theorem ringPush_cfg {r : Dir} {b : Byte} {s t : State} {p : Status} (h : ringPush r b s = .ok (p, t)) :
    t.cfg = s.cfg := by
  rcases ringPush_cases h with ⟨_, rfl, _⟩ | ⟨_, _, _, rfl⟩
  · rfl
  · simp

theorem ringPop_cfg {r : Dir} {s t : State} {o : Option Byte} (h : ringPop r s = .ok (o, t)) : t.cfg = s.cfg := by
  rcases ringPop_cases h with ⟨_, rfl, _⟩ | ⟨_, _, _, rfl⟩
  · rfl
  · simp

@[simp] theorem ringClear_cfg (r : Dir) (s : State) : (ringClear r s).cfg = s.cfg := by simp [ringClear]

/-! ### The actions of the main context and the handlers -/

theorem decPlace_cfg {b : Byte} {s t : State} (h : decPlace b s = .ok t) : t.cfg = s.cfg := by
  rcases decPlace_cases h with ⟨_, rfl⟩ | ⟨_, _, rfl⟩ | ⟨_, _, _, rfl⟩ <;> rfl

@[simp] theorem decFinish_cfg (s : State) : (decFinish s).cfg = s.cfg := by
  unfold decFinish
  split
  · rcases decDeliver_cases s with ⟨_, e⟩ | ⟨_, e⟩ <;> rw [e]
  · rfl

theorem actPop_cfg {s t : State} (h : actPop s = .ok t) : t.cfg = s.cfg := by
  rcases actPop_cases h with ⟨_, rfl⟩ | ⟨_, _, rfl⟩ <;> rfl

theorem actDec_cfg {b : Byte} {s t : State} (h : actDec b s = .ok t) : t.cfg = s.cfg := by
  obtain ⟨u, hplace, rfl⟩ := actDec_cases h
  rw [decFinish_cfg, decPlace_cfg hplace]

@[simp] theorem actEnc1_cfg (s : State) : (actEnc1 s).cfg = s.cfg := by
  rcases actEnc1_cases s with ⟨_, _, e⟩ | ⟨_, _, _, _, e⟩ | ⟨_, _, e⟩ | ⟨_, _, _, e⟩ | ⟨_, _, _, e⟩ <;> rw [e]

theorem actEnc2_cfg {b : Byte} {s t : State} (h : actEnc2 b s = .ok t) : t.cfg = s.cfg := by
  rcases actEnc2_cases h with ⟨_, rfl⟩ | ⟨_, _, rfl⟩ <;> rfl

@[simp] theorem actErr1_cfg (l : Bool) (s : State) : (actErr1 l s).cfg = s.cfg := by
  rcases actErr1_cases l s with ⟨_, e⟩ | ⟨_, _, e⟩ | ⟨_, _, e⟩ <;> rw [e]

@[simp] theorem actEval_cfg (s : State) : (actEval s).cfg = s.cfg := by
  rcases actEval_cases s with ⟨_, e⟩ | ⟨_, e⟩ <;> rw [e]

theorem act_cfg {a : Action} {s t : State} (h : act a s = .ok t) : t.cfg = s.cfg := by
  cases a with
  | eval => cases h; exact actEval_cfg s
  | pop => exact actPop_cfg h
  | dec b => exact actDec_cfg h
  | enc1 => cases h; exact actEnc1_cfg s
  | enc2 b => exact actEnc2_cfg h
  | enc3 p => cases h; rw [actEnc3_eq]
  | err1 l => cases h; exact actErr1_cfg l s
  | err2 c l => cases h; rw [actErr2_eq]

theorem actRxh_cfg {s t : State} (hreq : s.rxReq = true) (h : actRxh s = .ok t) : t.cfg = s.cfg := by
  rcases actRxh_cases hreq h with ⟨_, rfl⟩ | ⟨_, _, rfl⟩ <;> rfl

theorem actTxh_cfg {s t : State} (h : actTxh s = .ok t) : t.cfg = s.cfg := by
  rcases actTxh_cases h with ⟨_, rfl⟩ | ⟨_, _, rfl⟩ <;> rfl

/-! ### Slices, instructions, environment moves -/

theorem runMain_cfg {n : Nat} {s t : State} (h : runMain n s = .ok t) : t.cfg = s.cfg :=
  runMain_keeps (P := fun u => u.cfg = s.cfg) (fun _ _ _ _ _ hu hact => (act_cfg hact).trans hu) n rfl h

theorem goOn_cfg {s t : State} (h : goOn s = .next t) : t.cfg = s.cfg :=
  runMain_cfg (goOn_eq_next.mp h)

theorem invoke_cfg {as : List Action} {s t : State} (h : invoke as s = .next t) : t.cfg = s.cfg := by
  simpa using runMain_cfg (invoke_eq_next h).2

theorem execStart_cfg {s t : State} (h : execStart s = .next t) : t.cfg = s.cfg := by
  unfold execStart at h
  split at h
  · obtain ⟨_, hnext⟩ := whenIdle_eq_next h
    cases hnext; rfl
  · cases h

theorem execResolve_cfg {n : Nat} {s t : State} (h : execResolve n s = .next t) : t.cfg = s.cfg := by
  unfold execResolve at h
  split at h
  · cases h
  · exact (invoke_cfg h :)

theorem execRxh_cfg {s t : State} (h : execRxh s = .next t) : t.cfg = s.cfg := by
  obtain ⟨htaken, hact⟩ := takeHandler_eq_next h
  obtain ⟨hreq, _⟩ : s.rxReq = true ∧ s.rxIe = true := by simpa [State.rxTaken] using htaken
  exact actRxh_cfg hreq hact

theorem execTxh_cfg {s t : State} (h : execTxh s = .next t) : t.cfg = s.cfg :=
  actTxh_cfg (takeHandler_eq_next h).2

theorem execRbPush_cfg {r : Dir} {b : Byte} {s t : State} (h : execRbPush r b s = .next t) : t.cfg = s.cfg := by
  obtain ⟨_, hnext⟩ := whenIdle_eq_next h
  split at hnext
  · rename_i hpush
    cases hnext; exact (ringPush_cfg hpush :)
  · cases hnext

theorem execRbPop_cfg {r : Dir} {s t : State} (h : execRbPop r s = .next t) : t.cfg = s.cfg := by
  obtain ⟨_, hnext⟩ := whenIdle_eq_next h
  split at hnext
  · rename_i hpop
    cases hnext; exact (ringPop_cfg hpop :)
  · rename_i hpop
    cases hnext; exact (ringPop_cfg hpop :)
  · cases hnext

theorem execRbClear_cfg {r : Dir} {s t : State} (h : execRbClear r s = .next t) : t.cfg = s.cfg := by
  obtain ⟨_, hnext⟩ := whenIdle_eq_next h
  cases hnext; simp

theorem execArbSel_cfg {s t : State} (h : execArbSel s = .next t) : t.cfg = s.cfg := by
  obtain ⟨_, hnext⟩ := whenIdle_eq_next h
  cases hnext; rfl

theorem exec_cfg {i : Instr} {s t : State} (h : exec i s = .next t) : t.cfg = s.cfg := by
  cases i with
  | msgNoData | msgData1b | msgData2b | msgDataNb | decStep | inTurn | encStep | errReport => exact invoke_cfg h
  | reset => cases h; rfl
  | start => exact execStart_cfg h
  | resolve n => exact execResolve_cfg h
  | rxh => exact execRxh_cfg h
  | txh => exact execTxh_cfg h
  | rbPush r b => exact execRbPush_cfg h
  | rbPop r => exact execRbPop_cfg h
  | rbClear r => exact execRbClear_cfg h
  | arbSel => exact execArbSel_cfg h

theorem envMove_cfg {m : EnvMove} {s t : State} (h : envMove m s = .next t) : t.cfg = s.cfg := by
  cases m with
  | rx | txRdy | oqPush | iqPop | configured =>
    simp only [envMove] at h
    split at h <;> cases h
    rfl

theorem runEvent_cfg {e : Event} {s t : State} (h : runEvent e s = .next t) : t.cfg = s.cfg := by
  cases e with
  | invoke w =>
    simp only [runEvent] at h
    split at h
    · exact exec_cfg h
    · cases h
  | env m => exact envMove_cfg h
  | resume => exact goOn_cfg h

theorem runUnscheduled_cfg {s t : State} (h : runUnscheduled s = .next t) : t.cfg = s.cfg :=
  (goOn_cfg h :)

theorem runTurn_cfg {u : Turn} {rest : List Turn} {s t : State} (h : runTurn u rest s = .next t) : t.cfg = s.cfg :=
  (runEvent_cfg h :)

theorem step_cfg {s t : State} (h : step s = .next t) : t.cfg = s.cfg := by
  unfold step at h
  split at h
  · exact runUnscheduled_cfg h
  · exact runTurn_cfg h

/-- Settles O48: the next entry of the schedule, or the operation in progress, keeps `cfg`. -/
theorem parametersAreConstant : Obligations.ParametersAreConstant :=
  fun _ _ => step_cfg

end Sys2Proof.Machine

/-!
PROOF. What every agent keeps, every step keeps: the one case analysis over what a step can be (20_memory.md R75).
-/

namespace Sys2Proof.Machine

/-- Every agent keeps `P`, a property that reads neither the schedule nor the main context's own bookkeeping: each
action of the main context, the ring primitives and `ARB_SEL` performed directly, the handlers, `START`, and the
environment. `RESET` is apart. -/
structure KeptByAgents (P : State → Prop) : Prop where
  bookkeeping : ∀ (s : State) (todo : List Action) (budget : Nat) (r : Status) (agenda : List Turn) (q : Option Nat),
    P s → P { s with todo := todo, budget := budget, result := r, agenda := agenda, quantum := q }
  act : ∀ (a : Action) (s t : State), P s → act a s = .ok t → P t
  push : ∀ (r : Dir) (b : Byte) (s t : State) (p : Status), P s → ringPush r b s = .ok (p, t) → P t
  pop : ∀ (r : Dir) (s t : State) (o : Option Byte), P s → ringPop r s = .ok (o, t) → P t
  clear : ∀ (r : Dir) (s : State), P s → P (ringClear r s)
  arbSel : ∀ s : State, P s → P (arbSelect s)
  rxh : ∀ s t : State, P s → s.rxReq = true → actRxh s = .ok t → P t
  txh : ∀ s t : State, P s → actTxh s = .ok t → P t
  start : ∀ s : State, P s → P { s with rxIe := true }
  env : ∀ (m : EnvMove) (s t : State), P s → envMove m s = .next t → P t

namespace KeptByAgents

variable {P : State → Prop} (hP : KeptByAgents P) {s t : State}
include hP

theorem owing (todo : List Action) (hs : P s) : P { s with todo := todo } :=
  hP.bookkeeping s todo s.budget s.result s.agenda s.quantum hs

theorem ended (r : Status) (hs : P s) : P (s.ended r) :=
  hP.bookkeeping s s.todo s.budget r s.agenda s.quantum hs

theorem scheduled (agenda : List Turn) (q : Option Nat) (hs : P s) : P { s with agenda := agenda, quantum := q } :=
  hP.bookkeeping s s.todo s.budget s.result agenda q hs

theorem runMain {n : Nat} (hs : P s) (h : runMain n s = .ok t) : P t :=
  runMain_keeps (fun a rest _ _ _ hu hact => hP.act a _ _ (hP.owing rest hu) hact) n hs h

theorem goOn (hs : P s) (h : goOn s = .next t) : P t :=
  hP.runMain hs (goOn_eq_next.mp h)

theorem invoke {as : List Action} (hs : P s) (h : invoke as s = .next t) : P t :=
  hP.runMain (hP.owing _ hs) (invoke_eq_next h).2

theorem execStart (hs : P s) (h : execStart s = .next t) : P t := by
  unfold Machine.execStart at h
  split at h
  · obtain ⟨_, hnext⟩ := whenIdle_eq_next h
    cases hnext
    exact hP.ended .ok (hP.start s hs)
  · cases h

theorem execResolve {n : Nat} (hs : P s) (h : execResolve n s = .next t) : P t := by
  unfold Machine.execResolve at h
  split at h
  · cases h
  · exact hP.invoke (hP.bookkeeping s s.todo n s.result s.agenda s.quantum hs) h

theorem execRxh (hs : P s) (h : execRxh s = .next t) : P t := by
  obtain ⟨htaken, hact⟩ := takeHandler_eq_next h
  obtain ⟨hreq, _⟩ : s.rxReq = true ∧ s.rxIe = true := by simpa [State.rxTaken] using htaken
  exact hP.rxh s t hs hreq hact

theorem execTxh (hs : P s) (h : execTxh s = .next t) : P t :=
  hP.txh s t hs (takeHandler_eq_next h).2

theorem execRbPush {r : Dir} {b : Byte} (hs : P s) (h : execRbPush r b s = .next t) : P t := by
  obtain ⟨_, hnext⟩ := whenIdle_eq_next h
  split at hnext
  · rename_i hpush
    cases hnext
    exact hP.ended _ (hP.push r b s _ _ hs hpush)
  · cases hnext

theorem execRbPop {r : Dir} (hs : P s) (h : execRbPop r s = .next t) : P t := by
  obtain ⟨_, hnext⟩ := whenIdle_eq_next h
  split at hnext
  · rename_i hpop
    cases hnext
    exact hP.ended _ (hP.pop r s _ _ hs hpop)
  · rename_i hpop
    cases hnext
    exact hP.ended _ (hP.pop r s _ _ hs hpop)
  · cases hnext

theorem execRbClear {r : Dir} (hs : P s) (h : execRbClear r s = .next t) : P t := by
  obtain ⟨_, hnext⟩ := whenIdle_eq_next h
  cases hnext
  exact hP.ended .ok (hP.clear r s hs)

theorem execArbSel (hs : P s) (h : execArbSel s = .next t) : P t := by
  obtain ⟨_, hnext⟩ := whenIdle_eq_next h
  cases hnext
  exact hP.ended _ (hP.arbSel s hs)

/-- Every instruction keeps it, `RESET` where its own premise says so. -/
theorem exec {i : Instr} (hreset : i = .reset → P (resetBlock s)) (hs : P s) (h : exec i s = .next t) : P t := by
  cases i with
  | msgNoData | msgData1b | msgData2b | msgDataNb | decStep | inTurn | encStep | errReport => exact hP.invoke hs h
  | reset =>
    cases h
    exact hP.ended .ok (hreset rfl)
  | start => exact hP.execStart hs h
  | resolve n => exact hP.execResolve hs h
  | rxh => exact hP.execRxh hs h
  | txh => exact hP.execTxh hs h
  | rbPush r b => exact hP.execRbPush hs h
  | rbPop r => exact hP.execRbPop hs h
  | rbClear r => exact hP.execRbClear hs h
  | arbSel => exact hP.execArbSel hs h

theorem runEvent {e : Event} (hreset : ∀ w, e = .invoke w → decode w = .ok .reset → P (resetBlock s)) (hs : P s)
    (h : runEvent e s = .next t) : P t := by
  cases e with
  | invoke w =>
    simp only [Machine.runEvent] at h
    split at h
    · rename_i i hdec
      exact hP.exec (fun hi => hreset w rfl (hi ▸ hdec)) hs h
    · cases h
  | env m => exact hP.env m s t hs h
  | resume => exact hP.goOn hs h

/-- Every step keeps it, a step that runs `RESET` where its own premise says so. -/
theorem step
    (hreset : ∀ w q rest, s.agenda = ⟨.invoke w, q⟩ :: rest → decode w = .ok .reset → ∀ u, P u → P (resetBlock u))
    (hs : P s) (h : step s = .next t) : P t := by
  unfold Machine.step at h
  split at h
  · exact hP.goOn (hP.scheduled s.agenda none hs) h
  · rename_i u rest hagenda
    obtain ⟨e, q⟩ := u
    have hsched := hP.scheduled rest q hs
    refine hP.runEvent (fun w hw hdec => ?_) hsched h
    subst hw
    exact hreset w q rest hagenda hdec _ hsched

end KeptByAgents

end Sys2Proof.Machine

/-!
PROOF. The invariant of 10_state.md R55 and R56 under every agent's action: a ring's indices stay slots of it, a
codec's cursor stays within its frame, `tx_busy` and `tx_ie` move together.
-/

namespace Sys2Proof.Machine

/-! ### Rings -/

theorem Ring.wf.produce {c : Nat} {r : Ring} (h : r.wf c) (b : Byte) :
    Ring.wf c { r with buf := r.buf.write r.endIx b, endIx := ringNext c r.endIx } := by
  obtain ⟨hstart, hend, hbuf⟩ := h
  exact ⟨hstart, ringNext_lt c _ (by omega), Memory.wf_write c _ _ b hbuf hend⟩

theorem Ring.wf.consume {c : Nat} {r : Ring} (h : r.wf c) :
    Ring.wf c { r with startIx := ringNext c r.startIx } := by
  obtain ⟨hstart, hend, hbuf⟩ := h
  exact ⟨ringNext_lt c _ (by omega), hend, hbuf⟩

theorem Ring.wf.clear {c : Nat} {r : Ring} (h : r.wf c) : Ring.wf c { r with startIx := r.endIx } :=
  ⟨h.2.1, h.2⟩

theorem Ring.wf_unspecified {c : Nat} (hc : 2 ≤ c) (gen : Nat) : Ring.wf c ⟨0, 0, .unspecified gen⟩ :=
  ⟨by show 0 < c; omega, by show 0 < c; omega, Memory.wf_unspecified c gen⟩

/-! ### Cursors -/

/-- At cursor 0 the bound of 10_state.md R55 holds by itself, since a header has a byte: so it needs no exception. -/
theorem cursor_bound_iff (count : Cnt) (t size : Byte) :
    (count ≠ 0#9 → count.toNat + 1 ≤ hdr t + size.toNat) ↔ count.toNat + 1 ≤ hdr t + size.toNat := by
  refine ⟨fun h => ?_, fun h _ => h⟩
  by_cases h0 : count = 0#9
  · have := hdr_pos t
    simp only [h0, BitVec.toNat_ofNat]
    omega
  · exact h h0

theorem Decoder.wf_iff (d : Decoder) :
    d.wf ↔ d.count.toNat + 1 ≤ hdr d.msgType + d.msgSize.toNat ∧ d.pay.wf payMax :=
  and_congr_left' (cursor_bound_iff _ _ _)

theorem Encoder.wf_iff (e : Encoder) :
    e.wf ↔ e.count.toNat + 1 ≤ hdr e.msgType + e.msgSize.toNat ∧ e.pay.wf payMax :=
  and_congr_left' (cursor_bound_iff _ _ _)

/-- A codec step keeps its cursor within the frame: it is back at 0, or the frame has another byte. -/
theorem nextCount_bound {count : Cnt} {t size : Byte} (h : count.toNat + 1 ≤ hdr t + size.toNat) :
    (nextCount count t size).toNat + 1 ≤ hdr t + size.toNat := by
  have hpos := hdr_pos t
  have hle := hdr_le t
  have hsize : size.toNat < 256 := size.isLt
  unfold nextCount
  split
  · simp only [BitVec.toNat_ofNat]
    omega
  · rename_i hnot
    obtain ⟨_, hne⟩ := not_or.mp (mt (frameComplete_iff count t size).mpr hnot)
    rw [Cnt.toNat_succ (by omega)]
    omega

theorem Decoder.wf_unspecified (t size : Byte) (gen : Nat) : Decoder.wf ⟨0#9, t, size, .unspecified gen⟩ :=
  ⟨fun hne => absurd rfl hne, Memory.wf_unspecified _ gen⟩

theorem Encoder.wf_unspecified (t size plen : Byte) (gen : Nat) :
    Encoder.wf ⟨0#9, t, size, plen, .unspecified gen⟩ :=
  ⟨fun hne => absurd rfl hne, Memory.wf_unspecified _ gen⟩

/-! ### The decoder -/

theorem decFinish_dec (s : State) :
    (decFinish s).dec = { s.dec with count := nextCount s.dec.count s.dec.msgType s.dec.msgSize } := by
  unfold decFinish nextCount
  split
  · rcases decDeliver_cases s with ⟨_, e⟩ | ⟨_, e⟩ <;> rw [e]
  · rfl

theorem decPlace_dec_wf {b : Byte} {s t : State} (hs : s.dec.wf) (h : decPlace b s = .ok t) : t.dec.wf := by
  obtain ⟨hcount, hpay⟩ := hs
  have hlen (n : Byte) : n.toNat ≤ payMax := Nat.le_of_lt_succ n.isLt
  rcases decPlace_cases h with ⟨h0, rfl⟩ | ⟨h1, hnb, rfl⟩ | ⟨_, _, hslot, rfl⟩
  · exact ⟨fun hne => absurd h0 hne, Memory.wf_allocate _ _ _ _ hpay (hlen _)⟩
  · refine ⟨fun _ => ?_, Memory.wf_allocate _ _ _ _ hpay (hlen b)⟩
    simp [h1, hdr, hnb]
  · exact ⟨hcount, Memory.wf_write _ _ _ _ hpay hslot⟩

/-- Within the frame every payload byte has its slot (20_memory.md R61). -/
theorem decPlace_ok (b : Byte) {s : State} (hs : s.dec.wf) : ∃ t, decPlace b s = .ok t := by
  unfold decPlace
  split
  · exact ⟨_, rfl⟩
  · rename_i h0
    split
    · exact ⟨_, rfl⟩
    · have hcount := hs.1 h0
      have hpos := Cnt.toNat_pos h0
      have hsize : s.dec.msgSize.toNat < 256 := s.dec.msgSize.isLt
      exact ⟨_, if_pos (show _ < 255 by omega)⟩

theorem decFinish_dec_wf {s : State} (hs : s.dec.wf) : (decFinish s).dec.wf := by
  rw [Decoder.wf_iff] at hs ⊢
  rw [decFinish_dec]
  exact ⟨nextCount_bound hs.1, hs.2⟩

/-! ### The encoder -/

/-- A message is loaded at cursor 0 only, and is no longer than the buffer (42_codec_encode.md R162). -/
theorem Encoder.wf.load {e : Encoder} (he : e.wf) (h0 : e.count = 0#9) (m : Message) : (e.load m).wf :=
  ⟨fun hne => absurd h0 hne, Memory.wf_writeFrom _ _ _ _ he.2 (by simpa [payMax] using m.payload_le)⟩

theorem Encoder.wf.advance {e : Encoder} (he : e.wf) :
    Encoder.wf { e with count := nextCount e.count e.msgType e.msgSize } := by
  rw [Encoder.wf_iff] at he ⊢
  exact ⟨nextCount_bound he.1, he.2⟩

/-! ### The invariant under each operation -/

theorem State.Inv.ring {s : State} (hs : s.Inv) (r : Dir) : (s.ring r).wf (s.cap r) := by
  cases r
  · exact hs.inRing
  · exact hs.outRing

theorem State.Inv.setRing {s : State} (hs : s.Inv) {r : Dir} {v : Ring} (hv : v.wf (s.cap r)) :
    (s.setRing r v).Inv := by
  cases r
  · exact { hs with inRing := hv }
  · exact { hs with outRing := hv }

theorem State.Inv.ringPush {r : Dir} {b : Byte} {s t : State} {p : Status} (hs : s.Inv)
    (h : ringPush r b s = .ok (p, t)) : t.Inv := by
  rcases ringPush_cases h with ⟨_, rfl, _⟩ | ⟨_, _, _, rfl⟩
  · exact hs
  · exact hs.setRing ((hs.ring r).produce b)

theorem State.Inv.ringPop {r : Dir} {s t : State} {o : Option Byte} (hs : s.Inv)
    (h : ringPop r s = .ok (o, t)) : t.Inv := by
  rcases ringPop_cases h with ⟨_, rfl, _⟩ | ⟨_, _, _, rfl⟩
  · exact hs
  · exact hs.setRing (hs.ring r).consume

theorem State.Inv.ringClear {s : State} (hs : s.Inv) (r : Dir) : (ringClear r s).Inv :=
  hs.setRing (hs.ring r).clear

theorem State.Inv.decPlace {b : Byte} {s t : State} (hs : s.Inv) (h : decPlace b s = .ok t) : t.Inv := by
  have hdec := decPlace_dec_wf hs.dec h
  rcases decPlace_cases h with ⟨_, rfl⟩ | ⟨_, _, rfl⟩ | ⟨_, _, _, rfl⟩ <;> exact { hs with dec := hdec }

theorem State.Inv.decFinish {s : State} (hs : s.Inv) : (decFinish s).Inv := by
  have hdec := decFinish_dec_wf hs.dec
  unfold Machine.decFinish at hdec ⊢
  split
  · rename_i hcomplete
    rw [if_pos hcomplete] at hdec
    rcases decDeliver_cases s with ⟨_, e⟩ | ⟨_, e⟩ <;> rw [e] at hdec ⊢ <;> exact { hs with dec := hdec }
  · rename_i hmore
    rw [if_neg hmore] at hdec
    exact { hs with dec := hdec }

theorem State.Inv.actDec {b : Byte} {s t : State} (hs : s.Inv) (h : actDec b s = .ok t) : t.Inv := by
  obtain ⟨u, hplace, rfl⟩ := actDec_cases h
  exact (hs.decPlace hplace).decFinish

theorem State.Inv.actEnc1 {s : State} (hs : s.Inv) : (actEnc1 s).Inv := by
  rcases actEnc1_cases s with ⟨_, _, e⟩ | ⟨m, _, h0, _, e⟩ | ⟨_, _, e⟩ | ⟨_, _, _, e⟩ | ⟨_, _, _, e⟩ <;> rw [e]
  · exact { hs with }
  · exact { hs with enc := hs.enc.load h0 m }
  · exact { hs with }
  · exact { hs with }
  · exact { hs with }

theorem State.Inv.actPop {s t : State} (hs : s.Inv) (h : actPop s = .ok t) : t.Inv := by
  rcases actPop_cases h with ⟨_, rfl⟩ | ⟨_, _, rfl⟩
  · exact { hs with }
  · exact { hs with inRing := hs.inRing.consume }

theorem State.Inv.actEnc2 {b : Byte} {s t : State} (hs : s.Inv) (h : actEnc2 b s = .ok t) : t.Inv := by
  rcases actEnc2_cases h with ⟨_, rfl⟩ | ⟨_, _, rfl⟩
  · exact { hs with }
  · exact { hs with outRing := hs.outRing.produce b }

theorem State.Inv.actEnc3 {s : State} (hs : s.Inv) (p : Status) : (actEnc3 p s).Inv := by
  have hkick : true = if s.txBusy then s.txIe else true := by
    rw [← hs.busy]
    cases s.txBusy <;> rfl
  rw [actEnc3_eq]
  exact { hs with enc := hs.enc.advance, busy := hkick }

theorem State.Inv.actErr1 {s : State} (hs : s.Inv) (l : Bool) : (actErr1 l s).Inv := by
  rcases actErr1_cases l s with ⟨_, e⟩ | ⟨_, _, e⟩ | ⟨_, _, e⟩ <;> rw [e] <;> exact { hs with }

theorem State.Inv.actEval {s : State} (hs : s.Inv) : (actEval s).Inv := by
  rcases actEval_cases s with ⟨_, e⟩ | ⟨_, e⟩ <;> rw [e] <;> exact { hs with }

theorem State.Inv.act {a : Action} {s t : State} (hs : s.Inv) (h : act a s = .ok t) : t.Inv := by
  cases a with
  | eval => cases h; exact hs.actEval
  | pop => exact hs.actPop h
  | dec b => exact hs.actDec h
  | enc1 => cases h; exact hs.actEnc1
  | enc2 b => exact hs.actEnc2 h
  | enc3 p => cases h; exact hs.actEnc3 p
  | err1 l => cases h; exact hs.actErr1 l
  | err2 c l => cases h; rw [actErr2_eq]; exact { hs with }

theorem State.Inv.actRxh {s t : State} (hs : s.Inv) (hreq : s.rxReq = true) (h : actRxh s = .ok t) : t.Inv := by
  rcases actRxh_cases hreq h with ⟨_, rfl⟩ | ⟨_, _, rfl⟩
  · exact { hs with }
  · exact { hs with inRing := hs.inRing.produce s.rxByte }

theorem State.Inv.actTxh {s t : State} (hs : s.Inv) (h : actTxh s = .ok t) : t.Inv := by
  rcases actTxh_cases h with ⟨_, rfl⟩ | ⟨_, _, rfl⟩
  · exact { hs with busy := rfl }
  · exact { hs with outRing := hs.outRing.consume }

theorem State.Inv.envMove {m : EnvMove} {s t : State} (hs : s.Inv) (h : envMove m s = .next t) : t.Inv := by
  cases m with
  | rx | txRdy | oqPush | iqPop | configured =>
    simp only [Machine.envMove] at h
    split at h <;> cases h
    exact { hs with }

/-- `RESET` makes the invariant hold, whatever was before it (10_state.md R50). -/
theorem resetBlock_inv (s : State) : (resetBlock s).Inv where
  inRing := Ring.wf_unspecified s.cfg.two_le_cIn _
  outRing := Ring.wf_unspecified s.cfg.two_le_cOut _
  dec := Decoder.wf_unspecified _ _ _
  enc := Encoder.wf_unspecified _ _ _ _
  busy := rfl

theorem resetOf_inv (cfg : Params) (tx : Bool) : (State.resetOf cfg tx).Inv where
  inRing := Ring.wf_unspecified cfg.two_le_cIn _
  outRing := Ring.wf_unspecified cfg.two_le_cOut _
  dec := Decoder.wf_unspecified _ _ _
  enc := Encoder.wf_unspecified _ _ _ _
  busy := rfl

theorem inv_keptByAgents : KeptByAgents State.Inv where
  bookkeeping _ _ _ _ _ _ hs := { hs with }
  act _ _ _ hs h := hs.act h
  push _ _ _ _ _ hs h := hs.ringPush h
  pop _ _ _ _ hs h := hs.ringPop h
  clear r _ hs := hs.ringClear r
  arbSel _ hs := { hs with }
  rxh _ _ hs hreq h := hs.actRxh hreq h
  txh _ _ hs h := hs.actTxh h
  start _ hs := { hs with }
  env _ _ _ hs h := hs.envMove h

/-- Settles O56: every agent keeps the invariant, and `RESET` makes it hold. -/
theorem stepsKeepTheInvariant : Obligations.StepsKeepTheInvariant :=
  fun _ _ hs h => inv_keptByAgents.step (fun _ _ _ _ _ u _ => resetBlock_inv u) hs h

/-- Settles O55: rings are empty and cursors at 0, and an empty ring strands nothing. -/
theorem resetMeetsTheInvariants : Obligations.ResetMeetsTheInvariants := by
  refine fun cfg tx => ⟨resetOf_inv cfg tx, fun _ hbyte => ?_⟩
  have hempty : (State.resetOf cfg tx).outRing.isEmpty = true := rfl
  rw [hempty] at hbyte
  cases hbyte

end Sys2Proof.Machine

/-!
PROOF. A main-context operation comes to its end (43_arbiter_resolver.md R190). Each action lowers a count of the
actions still to come, from every state, and the slice of an uninterrupted operation is at least that count. From an
invariant state no action faults, so the operation ends in a next state.
-/

namespace Sys2Proof.Machine

/-! ### The actions still to come -/

/-- The actions an owed action leads to at most, itself counted, with `budget` left. `A_EVAL` accounts for the whole
loop: six actions an iteration, and the `A_EVAL` that stops. -/
@[simp] def Action.workLeft (budget : Nat) : Action → Nat
  | .eval => 6 * budget + 1
  | .pop => 2
  | .dec _ => 1
  | .enc1 => 3
  | .enc2 _ => 2
  | .enc3 _ => 1
  | .err1 _ => 2
  | .err2 _ _ => 1

/-- The budget an owed action leaves to the actions after it: a loop leaves none, a report in the loop spends a unit
(43_arbiter_resolver.md R187). -/
@[simp] def Action.budgetAfter (budget : Nat) : Action → Nat
  | .eval => 0
  | .err1 inLoop | .err2 _ inLoop => if inLoop then budget - 1 else budget
  | .pop | .dec _ | .enc1 | .enc2 _ | .enc3 _ => budget

/-- The actions the owed ones lead to at most. -/
@[simp] def workLeft (budget : Nat) : List Action → Nat
  | [] => 0
  | a :: rest => a.workLeft budget + workLeft (a.budgetAfter budget) rest

/-- The actions a state still has to perform at most. -/
def State.workLeft (s : State) : Nat := Machine.workLeft s.budget s.todo

/-- Whatever is owed, a budget is worth at most six actions a unit. -/
theorem workLeft_le_add (budget : Nat) (as : List Action) : workLeft budget as ≤ 6 * budget + workLeft 0 as := by
  induction as generalizing budget with
  | nil => exact Nat.zero_le _
  | cons a rest ih =>
    have hsame := ih budget
    have hspent := ih (budget - 1)
    cases a with
    | eval => simp; omega
    | pop | dec | enc1 | enc2 | enc3 => simp; omega
    | err1 l | err2 _ l => cases l <;> simp <;> omega

theorem workLeft_le (budget : Nat) (as : List Action) :
    workLeft budget as ≤ (if .eval ∈ as then 6 * budget else 0) + 3 * as.length := by
  induction as generalizing budget with
  | nil => exact Nat.zero_le _
  | cons a rest ih =>
    have hnone := ih 0
    have hsame := ih budget
    have hspent := ih (budget - 1)
    by_cases hloop : Action.eval ∈ rest <;> simp only [hloop, if_true, if_false] at hnone hsame hspent <;>
      cases a with
      | eval => simp; omega
      | pop | dec | enc1 | enc2 | enc3 => simp [hloop]; omega
      | err1 l | err2 _ l => cases l <;> simp [hloop] <;> omega

/-- The model's slice of an uninterrupted operation is long enough. -/
theorem State.workLeft_le_workBound (s : State) : s.workLeft ≤ s.workBound :=
  workLeft_le s.budget s.todo

theorem decFinish_writes (s : State) : ∃ d q as e r,
    decFinish s = { s with dec := d, inQ := q, qAnswers := as, lastError := e, result := r } := by
  unfold decFinish
  split
  · rcases decDeliver_cases s with ⟨_, e⟩ | ⟨_, e⟩ <;> rw [e] <;> exact ⟨_, _, _, _, _, rfl⟩
  · exact ⟨_, _, _, _, _, rfl⟩

/-- All that `A_DEC` can write (41_codec_decode.md R147): the rest of the state is its frame. -/
theorem actDec_writes {b : Byte} {s t : State} (h : actDec b s = .ok t) : ∃ d q as e r k,
    t = { s with dec := d, inQ := q, qAnswers := as, lastError := e, result := r, draws := k } := by
  obtain ⟨u, hplace, rfl⟩ := actDec_cases h
  obtain ⟨_, _, _, _, _, hfinish⟩ := decFinish_writes u
  rw [hfinish]
  rcases decPlace_cases hplace with ⟨_, rfl⟩ | ⟨_, _, rfl⟩ | ⟨_, _, _, rfl⟩ <;> exact ⟨_, _, _, _, _, _, rfl⟩

/-- Every action lowers the count of those to come. -/
theorem act_workLeft_lt {a : Action} {s t : State} (h : act a s = .ok t) :
    t.workLeft < workLeft s.budget (a :: s.todo) := by
  unfold State.workLeft
  cases a with
  | eval =>
    cases h
    have hloop := workLeft_le_add s.budget s.todo
    rcases actEval_cases s with ⟨_, e⟩ | ⟨hgo, e⟩ <;> rw [e]
    · simp; omega
    · have hbudget : s.budget ≠ 0 := by
        intro h0
        simp [State.stopNow, h0] at hgo
      generalize selectDir s.inEmptyNow s.outOkNow s.lastDir = d
      cases d <;> simp [turnActions] <;> omega
  | pop =>
    rcases actPop_cases h with ⟨_, rfl⟩ | ⟨_, _, rfl⟩ <;> simp
  | dec b =>
    obtain ⟨_, _, _, _, _, _, rfl⟩ := actDec_writes h
    simp
  | enc1 =>
    cases h
    rcases actEnc1_cases s with ⟨_, _, e⟩ | ⟨_, _, _, _, e⟩ | ⟨_, _, e⟩ | ⟨_, _, _, e⟩ | ⟨_, _, _, e⟩ <;> rw [e] <;>
      simp
  | enc2 b =>
    rcases actEnc2_cases h with ⟨_, rfl⟩ | ⟨_, _, rfl⟩ <;> simp
  | enc3 p =>
    cases h
    rw [actEnc3_eq]
    simp
  | err1 l =>
    cases h
    rcases actErr1_cases l s with ⟨_, e⟩ | ⟨_, _, e⟩ | ⟨_, _, e⟩ <;> rw [e] <;> simp
  | err2 c l =>
    cases h
    rw [actErr2_eq]
    simp

/-- Nothing is still to come only when nothing is owed. -/
theorem todo_nil_of_workLeft_zero {s : State} (h : s.workLeft = 0) : s.todo = [] := by
  unfold State.workLeft at h
  cases htodo : s.todo with
  | nil => rfl
  | cons a rest =>
    rw [htodo] at h
    cases a <;> simp at h

/-- As many actions as there are to come bring the operation to its end, from every state. -/
theorem runMain_todo_nil {n : Nat} {s t : State} (hn : s.workLeft ≤ n) (h : runMain n s = .ok t) : t.todo = [] := by
  induction n generalizing s with
  | zero =>
    cases h
    exact todo_nil_of_workLeft_zero (Nat.le_zero.mp hn)
  | succ n ih =>
    cases htodo : s.todo with
    | nil =>
      rw [runMain_idle _ htodo] at h
      cases h
      exact htodo
    | cons a rest =>
      rw [runMain_succ n htodo] at h
      split at h
      · rename_i u hact
        have hlt : u.workLeft < s.workLeft := by simpa [State.workLeft, htodo] using act_workLeft_lt hact
        exact ih (by omega) h
      · cases h

/-! ### No action faults -/

theorem actPop_ok {s : State} (hs : s.Inv) : ∃ t, actPop s = .ok t := by
  obtain ⟨o, u, hpop⟩ := ringPop_ok .inbound s hs.inRing.1
  cases o <;> exact ⟨_, by rw [actPop, hpop]⟩

theorem actEnc2_ok (b : Byte) {s : State} (hs : s.Inv) : ∃ t, actEnc2 b s = .ok t := by
  obtain ⟨p, u, hpush⟩ := ringPush_ok .outbound b s hs.outRing.2.1
  cases p <;> exact ⟨_, by rw [actEnc2, hpush]⟩

/-- From an invariant state every action is performed (20_memory.md R61). -/
theorem act_ok (a : Action) {s : State} (hs : s.Inv) : ∃ t, act a s = .ok t := by
  cases a with
  | eval | enc1 | enc3 | err1 | err2 => exact ⟨_, rfl⟩
  | pop => exact actPop_ok hs
  | dec b =>
    obtain ⟨u, hplace⟩ := decPlace_ok b hs.dec
    exact ⟨_, actDec_ok hplace⟩
  | enc2 b => exact actEnc2_ok b hs

theorem runMain_ok (n : Nat) {s : State} (hs : s.Inv) : ∃ t, runMain n s = .ok t ∧ t.Inv :=
  runMain_total (fun a rest u _ hu => by
    have hrest : ({ u with todo := rest } : State).Inv := { hu with }
    obtain ⟨t, hact⟩ := act_ok a hrest
    exact ⟨t, hact, hrest.act hact⟩) n hs

/-! ### Operations complete -/

/-- The state an operation is to end in: nothing is owed, and the invariant holds. -/
def Completes (o : Host.Outcome State Fault Refusal) : Prop := ∃ t, o = .next t ∧ t.todo = [] ∧ t.Inv

theorem completes_next {t : State} (htodo : t.todo = []) (ht : t.Inv) : Completes (.next t) :=
  ⟨t, rfl, htodo, ht⟩

/-- Whatever actions an operation owes, uninterrupted it completes. -/
theorem invoke_completes (as : List Action) {s : State} (hs : s.Inv) (hready : s.Ready) : Completes (invoke as s) := by
  obtain ⟨hidle, hquantum⟩ := hready
  have howed : (s.owe as).Inv := { hs with }
  have hslice : (s.owe as).slice = (s.owe as).workBound := State.slice_none _ hquantum
  obtain ⟨t, hrun, ht⟩ := runMain_ok (s.owe as).workBound howed
  refine ⟨t, ?_, runMain_todo_nil (State.workLeft_le_workBound _) hrun, ht⟩
  rw [invoke_of_idle hidle, goOn, hslice, hrun, outcomeOf_ok]

theorem execResolve_eq_invoke (n : Nat) {s : State} (hlaunch : (s.txEn && !s.configured) = false) :
    execResolve n s = invoke [.eval] { s with budget := n } := by
  simp [execResolve, hlaunch]

theorem execResolve_completes (n : Nat) {s : State} (hs : s.Inv) (hready : s.Ready) (hconf : s.configured = true) :
    Completes (execResolve n s) := by
  have hbudget : ({ s with budget := n } : State).Inv := { hs with }
  rw [execResolve_eq_invoke n (by simp [hconf])]
  exact invoke_completes [.eval] hbudget hready

theorem execStart_completes {s : State} (hs : s.Inv) (hready : s.Ready) (hconf : s.configured = true) :
    Completes (execStart s) := by
  rw [execStart, if_pos hconf, whenIdle_of_idle hready.1]
  exact completes_next hready.1 { hs with }

theorem execRbPush_completes (r : Dir) (b : Byte) {s : State} (hs : s.Inv) (hready : s.Ready) :
    Completes (execRbPush r b s) := by
  obtain ⟨p, u, hpush⟩ := ringPush_ok r b s (hs.ring r).2.1
  have hu := hs.ringPush hpush
  have htodo : u.todo = s.todo := by
    rcases ringPush_cases hpush with ⟨_, rfl, _⟩ | ⟨_, _, _, rfl⟩ <;> simp
  rw [execRbPush, whenIdle_of_idle hready.1, hpush]
  exact completes_next (htodo.trans hready.1) { hu with }

theorem execRbPop_completes (r : Dir) {s : State} (hs : s.Inv) (hready : s.Ready) : Completes (execRbPop r s) := by
  obtain ⟨o, u, hpop⟩ := ringPop_ok r s (hs.ring r).1
  have hu := hs.ringPop hpop
  have htodo : u.todo = s.todo := by
    rcases ringPop_cases hpop with ⟨_, rfl, _⟩ | ⟨_, _, _, rfl⟩ <;> simp
  rw [execRbPop, whenIdle_of_idle hready.1, hpop]
  cases o <;> exact completes_next (htodo.trans hready.1) { hu with }

theorem execRbClear_completes (r : Dir) {s : State} (hs : s.Inv) (hready : s.Ready) :
    Completes (execRbClear r s) := by
  have hclear := hs.ringClear r
  rw [execRbClear, whenIdle_of_idle hready.1]
  exact completes_next (by simp [ringClear, hready.1]) { hclear with }

theorem execArbSel_completes {s : State} (hs : s.Inv) (hready : s.Ready) : Completes (execArbSel s) := by
  rw [execArbSel, whenIdle_of_idle hready.1]
  exact completes_next hready.1 { hs with }

theorem execReset_completes (s : State) : Completes (execReset s) := by
  have hreset := resetBlock_inv s
  exact completes_next rfl { hreset with }

/-- Settles O59: no action faults, and the slice of an uninterrupted operation covers all it leads to. -/
theorem mainInstructionsComplete : Obligations.MainInstructionsComplete := by
  intro i s hs hready hconf ⟨hrxh, htxh⟩
  cases i with
  | msgNoData | msgData1b | msgData2b | msgDataNb | decStep | inTurn | encStep | errReport =>
    exact invoke_completes _ hs hready
  | reset => exact execReset_completes s
  | start => exact execStart_completes hs hready hconf
  | resolve n => exact execResolve_completes n hs hready hconf
  | rxh => exact absurd rfl hrxh
  | txh => exact absurd rfl htxh
  | rbPush r b => exact execRbPush_completes r b hs hready
  | rbPop r => exact execRbPop_completes r hs hready
  | rbClear r => exact execRbClear_completes r hs hready
  | arbSel => exact execArbSel_completes hs hready

end Sys2Proof.Machine

/-!
PROOF. The inputs and the outbound side (10_state.md R35, R37; 43_arbiter_resolver.md R181): no action of the main
context writes `rx_ie` or `TX_EN`, and while `TX_EN` is 0 a `RESOLVE` chooses no outbound turn.
-/

namespace Sys2Proof.Machine

/-! ### What no action writes -/

theorem act_enables {a : Action} {s t : State} (h : act a s = .ok t) : t.rxIe = s.rxIe ∧ t.txEn = s.txEn := by
  cases a with
  | eval =>
    cases h
    rcases actEval_cases s with ⟨_, e⟩ | ⟨_, e⟩ <;> rw [e] <;> exact ⟨rfl, rfl⟩
  | pop => rcases actPop_cases h with ⟨_, rfl⟩ | ⟨_, _, rfl⟩ <;> exact ⟨rfl, rfl⟩
  | dec b =>
    obtain ⟨_, _, _, _, _, _, rfl⟩ := actDec_writes h
    exact ⟨rfl, rfl⟩
  | enc1 =>
    cases h
    rcases actEnc1_cases s with ⟨_, _, e⟩ | ⟨_, _, _, _, e⟩ | ⟨_, _, e⟩ | ⟨_, _, _, e⟩ | ⟨_, _, _, e⟩ <;> rw [e] <;>
      exact ⟨rfl, rfl⟩
  | enc2 b => rcases actEnc2_cases h with ⟨_, rfl⟩ | ⟨_, _, rfl⟩ <;> exact ⟨rfl, rfl⟩
  | enc3 p =>
    cases h
    rw [actEnc3_eq]
    exact ⟨rfl, rfl⟩
  | err1 l =>
    cases h
    rcases actErr1_cases l s with ⟨_, e⟩ | ⟨_, _, e⟩ | ⟨_, _, e⟩ <;> rw [e] <;> exact ⟨rfl, rfl⟩
  | err2 c l =>
    cases h
    rw [actErr2_eq]
    exact ⟨rfl, rfl⟩

/-! ### Receive stays enabled -/

/-- The block is started, and `TX_EN` is `tx`. -/
def State.StartedWith (tx : Bool) (s : State) : Prop := s.rxIe = true ∧ s.txEn = tx

theorem State.StartedWith.of_eq {tx : Bool} {s t : State} (hs : s.StartedWith tx)
    (h : t.rxIe = s.rxIe ∧ t.txEn = s.txEn) : t.StartedWith tx :=
  ⟨h.1.trans hs.1, h.2.trans hs.2⟩

/-- The configuration, the one move that may write `TX_EN`, is refused while the block is started (U5). -/
theorem State.StartedWith.envMove {tx : Bool} {m : EnvMove} {s t : State} (hs : s.StartedWith tx)
    (h : envMove m s = .next t) : t.StartedWith tx := by
  cases m with
  | rx | txRdy | oqPush | iqPop =>
    simp only [Machine.envMove] at h
    split at h <;> cases h
    exact hs
  | configured =>
    simp [Machine.envMove, hs.1] at h

theorem startedWith_keptByAgents (tx : Bool) : KeptByAgents (State.StartedWith tx) where
  bookkeeping _ _ _ _ _ _ hs := hs
  act _ _ _ hs h := hs.of_eq (act_enables h)
  push _ _ _ _ _ hs h := by
    rcases ringPush_cases h with ⟨_, rfl, _⟩ | ⟨_, _, _, rfl⟩
    · exact hs
    · exact hs.of_eq (by simp)
  pop _ _ _ _ hs h := by
    rcases ringPop_cases h with ⟨_, rfl, _⟩ | ⟨_, _, _, rfl⟩
    · exact hs
    · exact hs.of_eq (by simp)
  clear _ _ hs := hs.of_eq (by simp [ringClear])
  arbSel _ hs := hs
  rxh _ _ hs hreq h := by rcases actRxh_cases hreq h with ⟨_, rfl⟩ | ⟨_, _, rfl⟩ <;> exact hs
  txh _ _ hs h := by rcases actTxh_cases h with ⟨_, rfl⟩ | ⟨_, _, rfl⟩ <;> exact hs
  start _ hs := ⟨rfl, hs.2⟩
  env _ _ _ hs h := hs.envMove h

theorem decodeFrame_ne_reset (bytes : List Byte) : decodeFrame bytes ≠ .ok .reset := by
  intro h
  unfold decodeFrame at h
  split at h
  · cases h
  · repeat' split at h
    all_goals cases h

theorem decodeOp_eq_reset {sel : BitVec 4} {o : Operand} (h : decodeOp sel o = .ok .reset) :
    sel = 0b0000#4 ∧ o = .none := by
  unfold decodeOp at h
  split at h
  · rename_i hsel
    exact ⟨BitVec.eq_of_toNat_eq hsel, rfl⟩
  on_goal 13 => split at h
  all_goals cases h

/-- Only the code 0 without operands is `RESET` (30_encoding.md R104). -/
theorem decode_eq_reset {w : CodeWord} (h : decode w = .ok .reset) : w = .op 0b0000#4 .none := by
  cases w with
  | frame bytes => exact absurd h (decodeFrame_ne_reset bytes)
  | op sel o =>
    obtain ⟨rfl, rfl⟩ := decodeOp_eq_reset h
    rfl

/-- Settles O49: only `RESET` clears `rx_ie`, and while it is 1 no configuration writes `TX_EN`. -/
theorem receiveStaysEnabledAndTxEnConstant : Obligations.ReceiveStaysEnabledAndTxEnConstant := by
  intro s t h hrx hnoReset
  have hreset : ∀ w q rest, s.agenda = ⟨.invoke w, q⟩ :: rest → decode w = .ok .reset →
      ∀ u : State, u.StartedWith s.txEn → (resetBlock u).StartedWith s.txEn :=
    fun w q rest hagenda hdec => absurd (decode_eq_reset hdec ▸ hagenda) (hnoReset q rest)
  exact (startedWith_keptByAgents s.txEn).step hreset ⟨hrx, rfl⟩ h

/-! ### Nothing is sent while `TX_EN` is 0 -/

/-- An action of `ENC_STEP`. -/
def Action.ofEncStep : Action → Bool
  | .enc1 | .enc2 _ | .enc3 _ => true
  | .eval | .pop | .dec _ | .err1 _ | .err2 _ _ => false

/-- The registers of the outbound side and the wire. -/
def State.outboundSide (s : State) : Ring × Encoder × Bool × Bool × List Byte :=
  (s.outRing, s.enc, s.txBusy, s.txIe, s.wire)

/-- Only an action of `ENC_STEP` writes the outbound side. -/
theorem act_outboundSide {a : Action} {s t : State} (ha : a.ofEncStep = false) (h : act a s = .ok t) :
    t.outboundSide = s.outboundSide := by
  cases a with
  | eval =>
    cases h
    rcases actEval_cases s with ⟨_, e⟩ | ⟨_, e⟩ <;> rw [e] <;> rfl
  | pop => rcases actPop_cases h with ⟨_, rfl⟩ | ⟨_, _, rfl⟩ <;> rfl
  | dec b =>
    obtain ⟨_, _, _, _, _, _, rfl⟩ := actDec_writes h
    rfl
  | enc1 | enc2 | enc3 => cases ha
  | err1 l =>
    cases h
    rcases actErr1_cases l s with ⟨_, e⟩ | ⟨_, _, e⟩ | ⟨_, _, e⟩ <;> rw [e] <;> rfl
  | err2 c l =>
    cases h
    rw [actErr2_eq]
    rfl

/-- While `TX_EN` is 0 a loop that goes on takes the inbound turn (43_arbiter_resolver.md R181 to R183). -/
theorem selectDir_of_disabled {s : State} (htx : s.txEn = false) (hgo : s.stopNow = false) :
    selectDir s.inEmptyNow s.outOkNow s.lastDir = .inbound := by
  have hout : s.outOkNow = false := by simp [State.outOkNow, htx]
  have hin : s.inEmptyNow = false := by simpa [State.stopNow, hout] using (Bool.or_eq_false_iff.mp hgo).2
  simp [selectDir, hin, hout]

/-- `TX_EN` is 0 and no action of `ENC_STEP` is owed. -/
structure State.Disabled (s : State) : Prop where
  txEn : s.txEn = false
  todo : ∀ a ∈ s.todo, a.ofEncStep = false

/-- While `TX_EN` is 0, no action leads to one of `ENC_STEP`. -/
theorem State.Disabled.act {a : Action} {s t : State} (hs : s.Disabled) (ha : a.ofEncStep = false)
    (h : act a s = .ok t) : t.Disabled := by
  refine ⟨(act_enables h).2.trans hs.txEn, ?_⟩
  have htodo := hs.todo
  cases a with
  | eval =>
    cases h
    rcases actEval_cases s with ⟨_, e⟩ | ⟨hgo, e⟩ <;> rw [e]
    · exact htodo
    · simpa [selectDir_of_disabled hs.txEn hgo, turnActions, Action.ofEncStep] using htodo
  | pop =>
    rcases actPop_cases h with ⟨_, rfl⟩ | ⟨_, _, rfl⟩
    · exact htodo
    · exact List.forall_mem_cons.mpr ⟨rfl, htodo⟩
  | dec b =>
    obtain ⟨_, _, _, _, _, _, rfl⟩ := actDec_writes h
    exact htodo
  | enc1 | enc2 | enc3 => cases ha
  | err1 l =>
    cases h
    rcases actErr1_cases l s with ⟨_, e⟩ | ⟨_, _, e⟩ | ⟨_, _, e⟩ <;> rw [e]
    · exact htodo
    · exact List.forall_mem_cons.mpr ⟨rfl, htodo⟩
    · exact List.forall_mem_cons.mpr ⟨rfl, htodo⟩
  | err2 c l =>
    cases h
    rw [actErr2_eq]
    exact htodo

theorem runMain_outboundSide_of_disabled {n : Nat} {s t : State} (hs : s.Disabled) (h : runMain n s = .ok t) :
    t.outboundSide = s.outboundSide := by
  have hkeeps := runMain_keeps (P := fun u => u.Disabled ∧ u.outboundSide = s.outboundSide)
    (fun a rest u v htodo hu hact => by
      obtain ⟨hdis, hout⟩ := hu
      obtain ⟨ha, hrest⟩ := List.forall_mem_cons.mp (htodo ▸ hdis.todo)
      have hdis' : ({ u with todo := rest } : State).Disabled := ⟨hdis.txEn, hrest⟩
      exact ⟨hdis'.act ha hact, (act_outboundSide ha hact).trans hout⟩)
    n ⟨hs, rfl⟩ h
  exact hkeeps.2

/-- Settles O38: with `TX_EN` 0 a `RESOLVE` owes no action of `ENC_STEP` at any time, and only these write there. -/
theorem resolveSendsNothingWhileDisabled : Obligations.ResolveSendsNothingWhileDisabled := by
  intro n s t htx ⟨hidle, _⟩ h
  have hinvoke : execResolve n s = .next t := h
  rw [execResolve_eq_invoke n (by simp [htx])] at hinvoke
  have hdis : (State.owe { s with budget := n } [.eval]).Disabled := ⟨htx, by simp [hidle, Action.ofEncStep]⟩
  have hout := runMain_outboundSide_of_disabled hdis (invoke_eq_next hinvoke).2
  simpa [State.outboundSide] using hout

/-! ### A placed word runs -/

theorem decode_of_decodeTableWord {nbits w : Nat} {i : Instr} (h : decodeTableWord nbits w = some i) :
    decode (tableWord nbits w) = .ok i := by
  unfold decodeTableWord at h
  split at h <;> cases h
  assumption

/-- Settles O7: the placed entry is the head of the schedule, and its words decode to `i`. -/
theorem placedWordIsTheNextStep : Obligations.PlacedWordIsTheNextStep := by
  intro s nbits w i h
  have hstep : step (s.withFetchWord nbits w) = runEvent (.invoke (tableWord nbits w)) { s with quantum := none } := rfl
  rw [hstep, runEvent, decode_of_decodeTableWord h]

end Sys2Proof.Machine

/-!
PROOF. No step faults from an invariant state (20_memory.md R61; 60_exceptions.md R220): the ring indices and the
payload cursor, the only indices a slot is formed from, name slots of their arrays, for every agent.
-/

namespace Sys2Proof.Machine

/-! ### The handlers -/

theorem actRxh_ok {s : State} (hs : s.Inv) (hreq : s.rxReq = true) : ∃ t, actRxh s = .ok t := by
  obtain ⟨p, u, hpush⟩ := ringPush_ok .inbound s.rxByte { s with rxReq := false } hs.inRing.2.1
  cases p <;> exact ⟨_, by rw [actRxh, uartRead_pending s hreq, hpush]⟩

theorem actTxh_ok {s : State} (hs : s.Inv) : ∃ t, actTxh s = .ok t := by
  obtain ⟨o, u, hpop⟩ := ringPop_ok .outbound s hs.outRing.1
  cases o <;> exact ⟨_, by rw [actTxh, hpop]⟩

theorem takeHandler_ne_fault {taken : Bool} {handler : State → Except Fault State} {s : State} (f : Fault)
    (h : taken = true → ∃ t, handler s = .ok t) : takeHandler taken handler s ≠ .fault f := by
  unfold takeHandler
  split
  · obtain ⟨t, ht⟩ := h ‹_›
    rw [ht]
    exact nofun
  · exact nofun

theorem execRxh_ne_fault {s : State} (hs : s.Inv) (f : Fault) : execRxh s ≠ .fault f :=
  takeHandler_ne_fault f fun htaken => actRxh_ok hs (Bool.and_eq_true_iff.mp htaken).1

theorem execTxh_ne_fault {s : State} (hs : s.Inv) (f : Fault) : execTxh s ≠ .fault f :=
  takeHandler_ne_fault f fun _ => actTxh_ok hs

/-! ### The main context -/

theorem goOn_ne_fault {s : State} (hs : s.Inv) (f : Fault) : goOn s ≠ .fault f := by
  obtain ⟨t, hrun, _⟩ := runMain_ok s.slice hs
  rw [goOn, hrun]
  exact nofun

theorem whenIdle_ne_fault {s : State} {k : Host.Outcome State Fault Refusal} {f : Fault} (h : k ≠ .fault f) :
    whenIdle s k ≠ .fault f := by
  unfold whenIdle
  split
  · exact h
  · exact nofun

theorem invoke_ne_fault (as : List Action) {s : State} (hs : s.Inv) (f : Fault) : invoke as s ≠ .fault f := by
  have howed : (s.owe as).Inv := { hs with }
  exact whenIdle_ne_fault (goOn_ne_fault howed f)

theorem execStart_ne_fault (s : State) (f : Fault) : execStart s ≠ .fault f := by
  unfold execStart
  split
  · exact whenIdle_ne_fault nofun
  · exact nofun

theorem execResolve_ne_fault (n : Nat) {s : State} (hs : s.Inv) (f : Fault) : execResolve n s ≠ .fault f := by
  unfold execResolve
  split
  · exact nofun
  · have hbudget : ({ s with budget := n } : State).Inv := { hs with }
    exact invoke_ne_fault [.eval] hbudget f

theorem execRbPush_ne_fault (r : Dir) (b : Byte) {s : State} (hs : s.Inv) (f : Fault) :
    execRbPush r b s ≠ .fault f := by
  obtain ⟨p, u, hpush⟩ := ringPush_ok r b s (hs.ring r).2.1
  rw [execRbPush, hpush]
  exact whenIdle_ne_fault nofun

theorem execRbPop_ne_fault (r : Dir) {s : State} (hs : s.Inv) (f : Fault) : execRbPop r s ≠ .fault f := by
  obtain ⟨o, u, hpop⟩ := ringPop_ok r s (hs.ring r).1
  rw [execRbPop, hpop]
  cases o <;> exact whenIdle_ne_fault nofun

/-! ### Instructions, environment moves, steps -/

theorem exec_ne_fault (i : Instr) {s : State} (hs : s.Inv) (f : Fault) : exec i s ≠ .fault f := by
  cases i with
  | msgNoData | msgData1b | msgData2b | msgDataNb | decStep | inTurn | encStep | errReport =>
    exact invoke_ne_fault _ hs f
  | reset => exact nofun
  | start => exact execStart_ne_fault s f
  | resolve n => exact execResolve_ne_fault n hs f
  | rxh => exact execRxh_ne_fault hs f
  | txh => exact execTxh_ne_fault hs f
  | rbPush r b => exact execRbPush_ne_fault r b hs f
  | rbPop r => exact execRbPop_ne_fault r hs f
  | rbClear | arbSel => exact whenIdle_ne_fault nofun

theorem envMove_ne_fault (m : EnvMove) (s : State) (f : Fault) : envMove m s ≠ .fault f := by
  cases m with
  | rx | txRdy | oqPush | iqPop | configured =>
    simp only [envMove]
    split <;> exact nofun

theorem runEvent_ne_fault (e : Event) {s : State} (hs : s.Inv) (f : Fault) : runEvent e s ≠ .fault f := by
  cases e with
  | invoke w =>
    simp only [runEvent]
    split
    · exact exec_ne_fault _ hs f
    · exact nofun
  | env m => exact envMove_ne_fault m s f
  | resume => exact goOn_ne_fault hs f

/-- Settles O57: whoever acts, the index it forms is within its array. -/
theorem stepsFromInvariantStatesNeverFault : Obligations.StepsFromInvariantStatesNeverFault := by
  intro s f hs
  unfold step
  split
  · have hsched : ({ s with quantum := none } : State).Inv := { hs with }
    exact goOn_ne_fault hsched f
  · rename_i u rest _
    have hsched : ({ s with agenda := rest, quantum := u.quantum } : State).Inv := { hs with }
    exact runEvent_ne_fault u.event hsched f

end Sys2Proof.Machine

/-!
PROOF. What one entry of the schedule is (20_memory.md R75): the step at an agenda's head, and a step that invokes no
instruction.
-/

namespace Sys2Proof.Machine

/-- The entry at the head of the schedule runs, taken off and with its quantum in force. -/
theorem step_scheduled {s : State} {e : Event} {q : Option Nat} {rest : List Turn} (h : s.agenda = ⟨e, q⟩ :: rest) :
    step s = runEvent e { s with agenda := rest, quantum := q } := by
  rw [step, h]
  rfl

theorem runEvent_invoke {w : CodeWord} {i : Instr} (h : decode w = .ok i) (s : State) :
    runEvent (.invoke w) s = exec i s := by
  rw [runEvent, h]

/-- Settles O6: the head of the schedule is an instruction's words. -/
theorem stepRunsTheScheduledInstruction : Obligations.StepRunsTheScheduledInstruction := by
  intro s w q rest i hagenda hdec
  rw [step_scheduled hagenda, runEvent_invoke hdec]

/-- A step that moves the environment. -/
theorem step_env {s : State} {m : EnvMove} {q : Option Nat} {rest : List Turn} (h : s.agenda = ⟨.env m, q⟩ :: rest) :
    step s = envMove m { s with agenda := rest, quantum := q } :=
  step_scheduled h

/-- Settles O47: each move is its branch of `envMove`, by its own guard. -/
theorem environmentMovesAndWhenTheyAreEnabled : Obligations.EnvironmentMovesAndWhenTheyAreEnabled := by
  intro s b m tx q rest
  refine ⟨fun h => ?_, fun h => ?_, fun h => ?_, fun h => ?_, fun h => ?_⟩ <;> rw [step_env h]
  · exact ⟨fun hreq => by simp [envMove, hreq], fun hreq => by simp [envMove, hreq]⟩
  · exact ⟨fun hreq => by simp [envMove, hreq], fun hreq => by simp [envMove, hreq]⟩
  · exact ⟨fun hroom => if_pos hroom, fun hfull => if_neg (by simpa using hfull)⟩
  · exact ⟨fun oldest others hq => by simp [envMove, hq], fun hq => by simp [envMove, hq]⟩
  · exact ⟨fun hrx => by simp [envMove, hrx], fun hrx => by simp [envMove, hrx]⟩

end Sys2Proof.Machine

/-!
PROOF. Suspending the main context changes nothing by itself (20_memory.md R75, R76): whatever an event has the main
context begin, the quantum only cuts the run of its actions, and a run may be cut anywhere.
-/

namespace Sys2Proof.Machine

/-- `s` under the schedule `g`, with the main context to be suspended after `k` actions. -/
def State.scheduled (g : List Turn) (k : Nat) (s : State) : State := { s with agenda := g, quantum := some k }

theorem State.under_nil (s : State) (g : List Turn) (k : Nat) : s.under [] g (some k) = s.scheduled g k := by
  simp [State.under, State.scheduled]

theorem runMain_scheduled (n : Nat) (s : State) (g : List Turn) (k : Nat) :
    runMain n (s.scheduled g k) = (runMain n s).map (State.scheduled g k) := by
  simpa only [State.under_nil] using runMain_under n s (g := g) (q := some k)

theorem ringPush_scheduled (r : Dir) (b : Byte) (s : State) (g : List Turn) (k : Nat) :
    ringPush r b (s.scheduled g k) = (ringPush r b s).map fun p => (p.1, p.2.scheduled g k) := by
  simpa only [State.under_nil] using ringPush_under r b s (rest := []) (g := g) (q := some k)

theorem ringPop_scheduled (r : Dir) (s : State) (g : List Turn) (k : Nat) :
    ringPop r (s.scheduled g k) = (ringPop r s).map fun p => (p.1, p.2.scheduled g k) := by
  simpa only [State.under_nil] using ringPop_under r s (rest := []) (g := g) (q := some k)

theorem goOn_scheduled (s : State) (g : List Turn) (k : Nat) :
    goOn (s.scheduled g k) = outcomeOf ((runMain k s).map (State.scheduled g k)) := by
  rw [goOn, State.slice_some _ k rfl, runMain_scheduled]

/-! ### What an event begins -/

/-- What `o` does from `s` under each schedule and quantum `k`: it is refused under all of them, or it begins one run,
the same for all (a fault, or a state), of which it performs `k` actions. -/
def CutByQuantum (o : State → Host.Outcome State Fault Refusal) (s : State) : Prop :=
  (∃ r, ∀ g k, o (s.scheduled g k) = .refused r) ∨
  ∃ begun : Except Fault State, ∀ g k,
    o (s.scheduled g k) = outcomeOf ((begun.bind (runMain k)).map (State.scheduled g k))

theorem CutByQuantum.of_eq {o o' : State → Host.Outcome State Fault Refusal} {s s' : State} (h : CutByQuantum o' s')
    (ho : ∀ g k, o (s.scheduled g k) = o' (s'.scheduled g k)) : CutByQuantum o s := by
  simpa only [CutByQuantum, ho] using h

theorem goOn_cutByQuantum (s : State) : CutByQuantum goOn s :=
  .inr ⟨.ok s, goOn_scheduled s⟩

/-- An operation that owes its actions begins with the first. -/
theorem invoke_cutByQuantum (as : List Action) (s : State) : CutByQuantum (invoke as) s := by
  by_cases hidle : s.todo = []
  · exact .inr ⟨.ok (s.owe as), fun g k => (whenIdle_of_idle hidle _).trans (goOn_scheduled (s.owe as) g k)⟩
  · exact .inl ⟨.mainBusy, fun g k => whenIdle_of_busy hidle _⟩

/-- What owes nothing when it ends has begun and ended its run, whatever the quantum. -/
theorem cutByQuantum_of_ended {o : State → Host.Outcome State Fault Refusal} {s : State} {e : Except Fault State}
    (ho : ∀ g k, o (s.scheduled g k) = outcomeOf (e.map (State.scheduled g k))) (he : ∀ t, e = .ok t → t.todo = []) :
    CutByQuantum o s := by
  refine .inr ⟨e, fun g k => (ho g k).trans ?_⟩
  cases e with
  | error f => rfl
  | ok t => rw [Except.bind, runMain_idle k (he t rfl)]

/-- An operation of one action, performed while the main context is idle. -/
theorem whenIdle_cutByQuantum {e : State → Except Fault State}
    (hsched : ∀ s g k, e (State.scheduled g k s) = (e s).map (State.scheduled g k))
    (htodo : ∀ s t, e s = .ok t → t.todo = s.todo) (s : State) :
    CutByQuantum (fun u => whenIdle u (outcomeOf (e u))) s := by
  by_cases hidle : s.todo = []
  · refine cutByQuantum_of_ended (e := e s) (fun g k => ?_) fun t ht => (htodo s t ht).trans hidle
    rw [← hsched]
    exact whenIdle_of_idle hidle _
  · exact .inl ⟨.mainBusy, fun g k => whenIdle_of_busy hidle _⟩

theorem execStart_cutByQuantum (s : State) : CutByQuantum execStart s := by
  by_cases hconf : s.configured = true
  · have h := whenIdle_cutByQuantum (e := fun u => .ok ({ u with rxIe := true }.ended .ok)) (fun _ _ _ => rfl)
      (fun _ _ => by rintro ⟨⟩; rfl) s
    exact h.of_eq fun _ _ => if_pos hconf
  · exact .inl ⟨.notConfigured, fun _ _ => if_neg hconf⟩

theorem execResolve_cutByQuantum (n : Nat) (s : State) : CutByQuantum (execResolve n) s := by
  by_cases hlaunch : (s.txEn && !s.configured) = true
  · exact .inl ⟨.notConfigured, fun _ _ => if_pos hlaunch⟩
  · exact (invoke_cutByQuantum [.eval] { s with budget := n }).of_eq fun _ _ => if_neg hlaunch

theorem execRbPush_eq (r : Dir) (b : Byte) (s : State) :
    execRbPush r b s = whenIdle s (outcomeOf ((ringPush r b s).map fun p => p.2.ended p.1)) := by
  unfold execRbPush
  cases ringPush r b s <;> rfl

theorem execRbPop_eq (r : Dir) (s : State) :
    execRbPop r s = whenIdle s (outcomeOf ((ringPop r s).map fun p => p.2.ended (p.1.elim .empty .okByte))) := by
  unfold execRbPop
  rcases ringPop r s with _ | ⟨_ | _, _⟩ <;> rfl

theorem execRbPush_cutByQuantum (r : Dir) (b : Byte) (s : State) : CutByQuantum (execRbPush r b) s := by
  refine (whenIdle_cutByQuantum (e := fun u => (ringPush r b u).map fun p => p.2.ended p.1) (fun u g k => ?_)
    (fun u t ht => ?_) s).of_eq fun g k => execRbPush_eq r b _
  · rw [ringPush_scheduled]
    cases ringPush r b u <;> rfl
  · cases hpush : ringPush r b u <;> rw [hpush] at ht <;> cases ht
    rcases ringPush_cases hpush with ⟨_, hu, _⟩ | ⟨_, _, _, hu⟩ <;> simp [hu]

theorem execRbPop_cutByQuantum (r : Dir) (s : State) : CutByQuantum (execRbPop r) s := by
  refine (whenIdle_cutByQuantum (e := fun u => (ringPop r u).map fun p => p.2.ended (p.1.elim .empty .okByte))
    (fun u g k => ?_) (fun u t ht => ?_) s).of_eq fun g k => execRbPop_eq r _
  · rw [ringPop_scheduled]
    cases ringPop r u <;> rfl
  · cases hpop : ringPop r u <;> rw [hpop] at ht <;> cases ht
    rcases ringPop_cases hpop with ⟨_, hu, _⟩ | ⟨_, _, _, hu⟩ <;> simp [hu]

theorem execRbClear_cutByQuantum (r : Dir) (s : State) : CutByQuantum (execRbClear r) s :=
  whenIdle_cutByQuantum (e := fun u => .ok ((ringClear r u).ended .ok)) (fun _ _ _ => by cases r <;> rfl)
    (fun _ _ => by rintro ⟨⟩; simp [ringClear]) s

theorem execArbSel_cutByQuantum (s : State) : CutByQuantum execArbSel s :=
  whenIdle_cutByQuantum
    (e := fun u => .ok ((arbSelect u).ended (.okDir (selectDir u.samples.inEmpty u.samples.outOk u.lastDir))))
    (fun _ _ _ => rfl) (fun _ _ => by rintro ⟨⟩; rfl) s

theorem exec_cutByQuantum {i : Instr} (hi : Claims.ByMain i) (s : State) : CutByQuantum (exec i) s := by
  obtain ⟨hrxh, htxh⟩ := hi
  cases i with
  | msgNoData | msgData1b | msgData2b | msgDataNb | decStep | inTurn | encStep | errReport =>
    exact invoke_cutByQuantum _ s
  | reset =>
    exact cutByQuantum_of_ended (e := .ok ((resetBlock s).ended .ok)) (fun _ _ => rfl) (by rintro _ ⟨⟩; rfl)
  | start => exact execStart_cutByQuantum s
  | resolve n => exact execResolve_cutByQuantum n s
  | rxh => exact absurd rfl hrxh
  | txh => exact absurd rfl htxh
  | rbPush r b => exact execRbPush_cutByQuantum r b s
  | rbPop r => exact execRbPop_cutByQuantum r s
  | rbClear r => exact execRbClear_cutByQuantum r s
  | arbSel => exact execArbSel_cutByQuantum s

theorem runEvent_cutByQuantum {e : Event} (s : State)
    (he : e = .resume ∨ ∃ w i, e = .invoke w ∧ decode w = .ok i ∧ Claims.ByMain i) : CutByQuantum (runEvent e) s := by
  rcases he with rfl | ⟨w, i, rfl, hdec, hi⟩
  · exact goOn_cutByQuantum s
  · exact (exec_cutByQuantum hi s).of_eq fun _ _ => runEvent_invoke hdec _

/-! ### The cut run -/

/-- A `resume` entry with quantum `n` performs `n` actions more. -/
theorem step_resume (s : State) (g : List Turn) (m n : Nat) :
    step (s.scheduled (⟨.resume, some n⟩ :: g) m) = outcomeOf ((runMain n s).map (State.scheduled g n)) :=
  goOn_scheduled s g n

/-- The run cut after `m` actions and gone on with for `n` is the run of `m + n`, and the one faults with the other. -/
theorem CutByQuantum.compose {o : State → Host.Outcome State Fault Refusal} {s : State} (h : CutByQuantum o s)
    (m n : Nat) (rest : List Turn) :
    (∀ u t, o (s.scheduled (⟨.resume, some n⟩ :: rest) m) = .next u → step u = .next t →
      o (s.scheduled rest (m + n)) = .next { t with quantum := some (m + n) }) ∧
    (∀ f, o (s.scheduled (⟨.resume, some n⟩ :: rest) m) = .fault f → o (s.scheduled rest (m + n)) = .fault f) ∧
    (∀ u f, o (s.scheduled (⟨.resume, some n⟩ :: rest) m) = .next u → step u = .fault f →
      o (s.scheduled rest (m + n)) = .fault f) := by
  rcases h with ⟨r, hrefused⟩ | ⟨begun, hrun⟩
  · simp only [hrefused]
    exact ⟨fun _ _ h => (nomatch h), fun _ h => (nomatch h), fun _ _ h => (nomatch h)⟩
  · simp only [hrun]
    cases begun with
    | error f => exact ⟨fun _ _ h => (nomatch h), fun _ h => h, fun _ _ h => (nomatch h)⟩
    | ok s₀ =>
      simp only [Except.bind, runMain_add]
      cases runMain m s₀ with
      | error f => exact ⟨fun _ _ h => (nomatch h), fun _ h => h, fun _ _ h => (nomatch h)⟩
      | ok u =>
        refine ⟨?_, nofun, ?_⟩
        · rintro _ t ⟨⟩ ht
          rw [step_resume] at ht
          cases hn : runMain n u <;> rw [hn] at ht <;> cases ht
          simp only [hn]
          rfl
        · rintro _ f ⟨⟩ hf
          rw [step_resume] at hf
          cases hn : runMain n u <;> rw [hn] at hf <;> cases hf
          simp only [hn]
          rfl

/-- Settles O9: what the event begins does not depend on its entry's quantum, which only cuts the run. -/
theorem interruptedRunsCompose : Obligations.InterruptedRunsCompose :=
  fun _ m n rest s he => (runEvent_cutByQuantum s he).compose m n rest

end Sys2Proof.Machine

/-!
PROOF. What an owed action leads to (20_memory.md R76), and from it what a run leaves alone: a register no action of
the owed kinds writes keeps its value, however the run is cut.
-/

namespace Sys2Proof.Machine

/-- The actions that performing an action may add to those owed. -/
inductive Action.LeadsTo : Action → Action → Prop
  | eval (a : Action) : LeadsTo .eval a
  | pop (b : Byte) : LeadsTo .pop (.dec b)
  | enc1 (b : Byte) : LeadsTo .enc1 (.enc2 b)
  | enc2 (b : Byte) (p : Status) : LeadsTo (.enc2 b) (.enc3 p)
  | err1 (c : Byte) (l : Bool) : LeadsTo (.err1 l) (.err2 c l)

theorem act_leadsTo {a : Action} {s t : State} (h : act a s = .ok t) :
    ∃ as, t.todo = as ++ s.todo ∧ ∀ b ∈ as, a.LeadsTo b := by
  cases a with
  | eval =>
    cases h
    rcases actEval_cases s with ⟨_, e⟩ | ⟨_, e⟩ <;> rw [e]
    · exact ⟨[], rfl, nofun⟩
    · exact ⟨_, rfl, fun b _ => .eval b⟩
  | pop =>
    rcases actPop_cases h with ⟨_, rfl⟩ | ⟨_, _, rfl⟩
    · exact ⟨[], rfl, nofun⟩
    · exact ⟨[_], rfl, List.forall_mem_singleton.mpr (.pop _)⟩
  | dec b =>
    obtain ⟨_, _, _, _, _, _, rfl⟩ := actDec_writes h
    exact ⟨[], rfl, nofun⟩
  | enc1 =>
    cases h
    rcases actEnc1_cases s with ⟨_, _, e⟩ | ⟨_, _, _, _, e⟩ | ⟨_, _, e⟩ | ⟨_, _, _, e⟩ | ⟨_, _, _, e⟩ <;> rw [e]
    · exact ⟨[], rfl, nofun⟩
    all_goals exact ⟨[_], rfl, List.forall_mem_singleton.mpr (.enc1 _)⟩
  | enc2 b =>
    rcases actEnc2_cases h with ⟨_, rfl⟩ | ⟨_, _, rfl⟩ <;>
      exact ⟨[_], rfl, List.forall_mem_singleton.mpr (.enc2 _ _)⟩
  | enc3 p =>
    cases h
    rw [actEnc3_eq]
    exact ⟨[], rfl, nofun⟩
  | err1 l =>
    cases h
    rcases actErr1_cases l s with ⟨_, e⟩ | ⟨_, _, e⟩ | ⟨_, _, e⟩ <;> rw [e]
    · exact ⟨[], rfl, nofun⟩
    all_goals exact ⟨[_], rfl, List.forall_mem_singleton.mpr (.err1 _ _)⟩
  | err2 c l =>
    cases h
    rw [actErr2_eq]
    exact ⟨[], rfl, nofun⟩

/-- `writes` holds of each action that writes the register `f` reads, and of what leads to one; `f` does not read the
main context's own bookkeeping. -/
structure WrittenOnlyBy {α : Type} (f : State → α) (writes : Action → Bool) : Prop where
  bookkeeping : ∀ (s : State) (todo : List Action) (budget : Nat) (g : List Turn) (q : Option Nat),
    f { s with todo := todo, budget := budget, agenda := g, quantum := q } = f s
  leads : ∀ a b, writes a = false → a.LeadsTo b → writes b = false
  act : ∀ a s t, writes a = false → act a s = .ok t → f t = f s

namespace WrittenOnlyBy

variable {α : Type} {f : State → α} {writes : Action → Bool} (hf : WrittenOnlyBy f writes) {s t : State}
include hf

theorem runMain {n : Nat} (hs : ∀ a ∈ s.todo, writes a = false) (h : runMain n s = .ok t) : f t = f s := by
  have hkeeps := runMain_keeps (P := fun u => (∀ a ∈ u.todo, writes a = false) ∧ f u = f s)
    (fun a rest u v htodo hu hact => by
      obtain ⟨hwrites, hvalue⟩ := hu
      obtain ⟨ha, hrest⟩ := List.forall_mem_cons.mp (htodo ▸ hwrites)
      obtain ⟨as, hv, hleads⟩ := act_leadsTo hact
      refine ⟨fun b hb => ?_, (hf.act a _ v ha hact).trans ((hf.bookkeeping u rest _ _ _).trans hvalue)⟩
      rcases List.mem_append.mp (hv ▸ hb) with hb | hb
      · exact hf.leads a b ha (hleads b hb)
      · exact hrest b hb)
    n ⟨hs, rfl⟩ h
  exact hkeeps.2

theorem goOn (hs : ∀ a ∈ s.todo, writes a = false) (h : goOn s = .next t) : f t = f s :=
  hf.runMain hs (goOn_eq_next.mp h)

/-- An operation that owes no such action leaves the register alone, however it is interrupted. -/
theorem invoke {as : List Action} (has : ∀ a ∈ as, writes a = false) (h : invoke as s = .next t) : f t = f s := by
  obtain ⟨hidle, hrun⟩ := invoke_eq_next h
  exact (hf.runMain (s := s.owe as) (by simpa [hidle] using has) hrun).trans
    (hf.bookkeeping s (as ++ s.todo) s.budget s.agenda s.quantum)

end WrittenOnlyBy

end Sys2Proof.Machine

/-!
PROOF. The memory frames of the codec steps (20_memory.md R60, R62): `DEC_STEP` stores to `INPAY` only, and within the
payload; `ENC_STEP` stores to `OUTPAY` only, and only the payload it dequeues.
-/

namespace Sys2Proof.Machine

/-! ### DEC_STEP -/

theorem classOf_eq_dataNb_of_two_le_hdr {t : Byte} (h : 2 ≤ hdr t) : classOf t = .dataNb := by
  unfold hdr at h
  split at h
  · assumption
  · omega

/-- At a payload byte the slot stored to is within the payload (41_codec_decode.md R149). -/
theorem Decoder.wf.slot_lt {d : Decoder} (hd : d.wf) (h0 : d.count ≠ 0#9)
    (h1 : ¬(d.count = 1#9 ∧ classOf d.msgType = .dataNb)) : d.count.toNat - hdr d.msgType < d.msgSize.toNat := by
  have hcount := hd.1 h0
  have hpos := Cnt.toNat_pos h0
  have hle := hdr_le d.msgType
  have hhdr : hdr d.msgType ≤ d.count.toNat := by
    by_contra hlt
    have hone : d.count.toNat = 1 := by omega
    exact h1 ⟨BitVec.eq_of_toNat_eq hone, classOf_eq_dataNb_of_two_le_hdr (by omega)⟩
  omega

theorem actDec_frame {b : Byte} {s t : State} (h : actDec b s = .ok t) :
    t.enc = s.enc ∧ t.inRing = s.inRing ∧ t.outRing = s.outRing := by
  obtain ⟨_, _, _, _, _, _, rfl⟩ := actDec_writes h
  exact ⟨rfl, rfl, rfl⟩

/-- Settles O22: the three cases of a decode step's effect, and the decoder's bound on its cursor. -/
theorem decStepStoresWithinThePayload : Obligations.DecStepStoresWithinThePayload := by
  intro b s t hready h
  have hact : actDec b s = .ok t := outcomeOf_eq_next.mp ((execDecStep_eq hready b).symm.trans h)
  obtain ⟨henc, hin, hout⟩ := actDec_frame hact
  refine ⟨henc, hin, hout, ?_⟩
  obtain ⟨u, hplace, rfl⟩ := actDec_cases hact
  rw [decFinish_dec]
  rcases decPlace_cases hplace with ⟨h0, rfl⟩ | ⟨h1, hnb, rfl⟩ | ⟨h0, h1, _, rfl⟩
  · exact ⟨fun hne => absurd h0 hne, fun _ a ha => Memory.read_allocate_outside _ _ _ a ha⟩
  · exact ⟨fun _ hno => absurd ⟨h1, hnb⟩ hno, fun _ a ha => Memory.read_allocate_outside _ _ _ a ha⟩
  · refine ⟨fun _ _ => ⟨fun hs => ⟨hs.dec.slot_lt h0 h1, rfl⟩, Memory.read_write_same _ _ _,
      fun a ha => Memory.read_write_other _ _ a _ ha⟩, fun hno => absurd hno (not_or.mpr ⟨h0, h1⟩)⟩

/-! ### ENC_STEP -/

/-- An action that writes `INBUF`'s indices, the decoder or `OUTPAY`, or leads to one that does. -/
def Action.feedsPayload : Action → Bool
  | .eval | .pop | .dec _ | .enc1 => true
  | .enc2 _ | .enc3 _ | .err1 _ | .err2 _ _ => false

/-- The inbound side and `OUTPAY`. -/
def State.inboundSideAndOutPay (s : State) : Decoder × Ring × Memory := (s.dec, s.inRing, s.enc.pay)

theorem inboundSideAndOutPay_writtenOnlyBy : WrittenOnlyBy State.inboundSideAndOutPay Action.feedsPayload where
  bookkeeping _ _ _ _ _ := rfl
  leads a b ha hab := by
    cases hab with
    | eval | pop | enc1 => cases ha
    | enc2 | err1 => rfl
  act a s t ha h := by
    cases a with
    | eval | pop | dec | enc1 => cases ha
    | enc2 b => rcases actEnc2_cases h with ⟨_, rfl⟩ | ⟨_, _, rfl⟩ <;> rfl
    | enc3 p =>
      cases h
      rw [actEnc3_eq]
      rfl
    | err1 l =>
      cases h
      rcases actErr1_cases l s with ⟨_, e⟩ | ⟨_, _, e⟩ | ⟨_, _, e⟩ <;> rw [e] <;> rfl
    | err2 c l =>
      cases h
      rw [actErr2_eq]
      rfl

/-- After `A_ENC1` an `ENC_STEP` writes neither the inbound side nor `OUTPAY`. -/
theorem execEncStep_inboundSideAndOutPay {s t : State} (hready : s.Ready) (h : execEncStep s = .next t) :
    t.inboundSideAndOutPay = (actEnc1 s).inboundSideAndOutPay := by
  have hrun : runMain 2 (actEnc1 s) = .ok t := outcomeOf_eq_next.mp ((execEncStep_eq hready).symm.trans h)
  refine inboundSideAndOutPay_writtenOnlyBy.runMain (fun a ha => ?_) hrun
  obtain ⟨as, htodo, hleads⟩ := act_leadsTo (a := .enc1) (s := s) rfl
  have hmem : a ∈ as := by simpa [htodo, hready.1] using ha
  cases hleads a hmem
  rfl

/-- What `A_ENC1` writes of `OUTPAY`: the payload it dequeues (42_codec_encode.md R162). -/
theorem actEnc1_payload (s : State) :
    (actEnc1 s).dec = s.dec ∧ (actEnc1 s).inRing = s.inRing ∧
    ((s.enc.count ≠ 0#9 ∨ s.outQ = []) ∧ (actEnc1 s).enc.pay = s.enc.pay ∨
      ∃ m q, s.enc.count = 0#9 ∧ s.outQ = m :: q ∧ (actEnc1 s).enc.pay = s.enc.pay.writeFrom 0 m.payload) := by
  rcases actEnc1_cases s with ⟨_, hq, e⟩ | ⟨m, q, h0, hq, e⟩ | ⟨h1, _, e⟩ | ⟨h0, _, _, e⟩ | ⟨h0, _, _, e⟩ <;> rw [e]
  · exact ⟨rfl, rfl, .inl ⟨.inr hq, rfl⟩⟩
  · exact ⟨rfl, rfl, .inr ⟨m, q, h0, hq, rfl⟩⟩
  · exact ⟨rfl, rfl, .inl ⟨.inl (by simp [h1]), rfl⟩⟩
  · exact ⟨rfl, rfl, .inl ⟨.inl h0, rfl⟩⟩
  · exact ⟨rfl, rfl, .inl ⟨.inl h0, rfl⟩⟩

/-- Settles O29: `A_ENC1` alone stores a payload, from slot 0 on, and only one it dequeues. -/
theorem encStepStoresTheDequeuedPayload : Obligations.EncStepStoresTheDequeuedPayload := by
  intro s t hready h
  have hside := execEncStep_inboundSideAndOutPay hready h
  simp only [State.inboundSideAndOutPay, Prod.mk.injEq] at hside
  obtain ⟨hdec, hring, hpay⟩ := hside
  obtain ⟨hdec₁, hring₁, hstored⟩ := actEnc1_payload s
  refine ⟨hdec.trans hdec₁, hring.trans hring₁, ?_⟩
  rw [hpay]
  rcases hstored with ⟨hnone, hsame⟩ | ⟨m, q, h0, hq, hwrite⟩
  · refine ⟨fun _ => hsame, fun m q h0 hq => ?_⟩
    simp [h0, hq] at hnone
  · refine ⟨fun hnone => ?_, fun m' q' _ hq' => ?_⟩
    · simp [h0, hq] at hnone
    · obtain ⟨rfl, rfl⟩ := List.cons.inj (hq.symm.trans hq')
      rw [hwrite]
      refine ⟨fun k hk => ?_, fun a ha => Memory.read_writeFrom_outside _ _ 0 a (.inr (by omega))⟩
      simpa using Memory.read_writeFrom_inside s.enc.pay m.payload 0 k hk

end Sys2Proof.Machine

/-!
PROOF. The two handlers commute (20_memory.md R82 (a)): what each reads and writes is a side of its own, and it does
the same whatever stands on the other's.
-/

namespace Sys2Proof.Machine

/-- What `RXH` writes: the inbound ring, `last_error`, `rx_req` and its result. -/
structure ReceiveSide where
  ring : Ring
  lastError : Byte
  req : Bool
  result : Status

/-- What `TXH` writes: the outbound ring, `tx_busy`, `tx_ie`, `tx_req`, the wire and its result. -/
structure TransmitSide where
  ring : Ring
  busy : Bool
  ie : Bool
  req : Bool
  wire : List Byte
  result : Status

def State.withReceive (x : ReceiveSide) (s : State) : State :=
  { s with inRing := x.ring, lastError := x.lastError, rxReq := x.req, rxResult := x.result }

def State.withTransmit (y : TransmitSide) (s : State) : State :=
  { s with
    outRing := y.ring, txBusy := y.busy, txIe := y.ie, txReq := y.req, wire := y.wire, txResult := y.result }

/-! ### What each handler writes -/

theorem actRxh_writes {s u : State} (hreq : s.rxReq = true) (h : actRxh s = .ok u) : ∃ x, u = s.withReceive x := by
  rcases actRxh_cases hreq h with ⟨_, rfl⟩ | ⟨_, _, rfl⟩
  · exact ⟨⟨s.inRing, s.cfg.errBufferFull, false, .full⟩, rfl⟩
  · exact ⟨⟨_, s.lastError, false, .ok⟩, rfl⟩

theorem actTxh_writes {s v : State} (h : actTxh s = .ok v) : ∃ y, v = s.withTransmit y := by
  rcases actTxh_cases h with ⟨_, rfl⟩ | ⟨_, _, rfl⟩
  · exact ⟨⟨s.outRing, false, false, s.txReq, s.wire, .empty⟩, rfl⟩
  · exact ⟨⟨_, s.txBusy, s.txIe, false, _, .okByte _⟩, rfl⟩

/-! ### Neither reads the other's side -/

theorem ringPush_inbound_withTransmit (b : Byte) (y : TransmitSide) (s : State) :
    ringPush .inbound b (s.withTransmit y) =
      (ringPush .inbound b s).map fun p => (p.1, p.2.withTransmit y) := by
  simp only [ringPush, apply_ite (Except.map _)]
  rfl

theorem ringPop_outbound_withReceive (x : ReceiveSide) (s : State) :
    ringPop .outbound (s.withReceive x) = (ringPop .outbound s).map fun p => (p.1, p.2.withReceive x) := by
  simp only [ringPop, apply_ite (Except.map _)]
  rfl

theorem actRxh_withTransmit (y : TransmitSide) {s : State} (hreq : s.rxReq = true) :
    actRxh (s.withTransmit y) = (actRxh s).map (State.withTransmit y) := by
  have hread : uartRead (s.withTransmit y) = ((uartRead s).1, (uartRead s).2.withTransmit y) := by
    rw [uartRead_pending s hreq]
    exact uartRead_pending _ hreq
  simp only [actRxh, hread, ringPush_inbound_withTransmit]
  rcases ringPush .inbound (uartRead s).1 (uartRead s).2 with _ | ⟨_ | _, _⟩ <;> rfl

theorem actTxh_withReceive (x : ReceiveSide) (s : State) :
    actTxh (s.withReceive x) = (actTxh s).map (State.withReceive x) := by
  simp only [actTxh, ringPop_outbound_withReceive]
  rcases ringPop .outbound s with _ | ⟨_ | _, _⟩ <;> rfl

/-! ### Either order -/

theorem execRxh_of_taken {s : State} (hreq : s.rxReq = true) (hie : s.rxIe = true) :
    execRxh s = outcomeOf (actRxh s) :=
  if_pos (Bool.and_eq_true_iff.mpr ⟨hreq, hie⟩)

theorem execTxh_of_taken {s : State} (hreq : s.txReq = true) (hie : s.txIe = true) :
    execTxh s = outcomeOf (actTxh s) :=
  if_pos (Bool.and_eq_true_iff.mpr ⟨hreq, hie⟩)

/-- Settles O43: each handler leaves the other's request taken, and does to the state the other left what it does to
the first. -/
theorem handlersCommute : Obligations.HandlersCommute := by
  intro s hs hrx hrxIe htx htxIe
  obtain ⟨u, hu⟩ := actRxh_ok hs hrx
  obtain ⟨v, hv⟩ := actTxh_ok hs
  obtain ⟨x, rfl⟩ := actRxh_writes hrx hu
  obtain ⟨y, rfl⟩ := actTxh_writes hv
  refine ⟨s.withReceive x, s.withTransmit y, (s.withReceive x).withTransmit y, ?_, ?_, ?_, ?_⟩
  · exact (execRxh_of_taken hrx hrxIe).trans (congrArg outcomeOf hu)
  · refine (execTxh_of_taken (s := s.withReceive x) htx htxIe).trans ?_
    rw [actTxh_withReceive, hv]
    rfl
  · exact (execTxh_of_taken htx htxIe).trans (congrArg outcomeOf hv)
  · refine (execRxh_of_taken (s := s.withTransmit y) hrx hrxIe).trans ?_
    rw [actRxh_withTransmit y hrx, hu]
    rfl

end Sys2Proof.Machine

/-!
PROOF. The SPSC discipline (20_memory.md R78; 10_state.md R45): of each ring the producer's part, `end` and the array,
and the consumer's part, `start`, each with the agents that write it.
-/

namespace Sys2Proof.Machine

/-! ### A step that invokes no instruction -/

theorem step_of_invokesNothing {s t : State} (hs : Claims.InvokesNothing s) (h : step s = .next t) :
    ∃ g q, (∃ m, envMove m { s with agenda := g, quantum := q } = .next t) ∨
      goOn { s with agenda := g, quantum := q } = .next t := by
  unfold step at h
  split at h
  · exact ⟨_, _, .inr h⟩
  · rename_i u rest hagenda
    obtain ⟨e, q⟩ := u
    cases e with
    | invoke w => exact absurd hagenda (hs w q rest)
    | env m => exact ⟨_, _, .inl ⟨m, h⟩⟩
    | resume => exact ⟨_, _, .inr h⟩

/-- Without an instruction a register the environment does not write changes only where an action that writes it, or
leads to one, is owed. -/
theorem WrittenOnlyBy.step_invoking_nothing {α : Type} {f : State → α} {writes : Action → Bool}
    (hf : WrittenOnlyBy f writes) (henv : ∀ m s t, envMove m s = .next t → f t = f s) {s t : State}
    (hs : Claims.InvokesNothing s) (howed : ∀ a ∈ s.todo, writes a = false) (h : step s = .next t) : f t = f s := by
  obtain ⟨g, q, hstep⟩ := step_of_invokesNothing hs h
  have hsched : f { s with agenda := g, quantum := q } = f s := hf.bookkeeping s s.todo s.budget g q
  rcases hstep with ⟨m, hm⟩ | hgo
  · exact (henv m _ t hm).trans hsched
  · exact (hf.goOn (s := { s with agenda := g, quantum := q }) howed hgo).trans hsched

/-! ### The two parts of a ring, and who writes them -/

/-- `end` and the array of a ring. -/
def State.producerPart (r : Dir) (s : State) : Nat × Memory := ((s.ring r).endIx, (s.ring r).buf)

/-- `start` of a ring. -/
def State.consumerPart (r : Dir) (s : State) : Nat := (s.ring r).startIx

/-- The producers of a ring (10_state.md R45), and `RESET`. -/
inductive RingProducer : Dir → Instr → Prop
  | rxh : RingProducer .inbound .rxh
  | encStep : RingProducer .outbound .encStep
  | resolve (n : Nat) : RingProducer .outbound (.resolve n)
  | rbPush (r : Dir) (b : Byte) : RingProducer r (.rbPush r b)
  | reset (r : Dir) : RingProducer r .reset

/-- The consumers of a ring (10_state.md R45), and `RESET`. -/
inductive RingConsumer : Dir → Instr → Prop
  | txh : RingConsumer .outbound .txh
  | inTurn : RingConsumer .inbound .inTurn
  | resolve (n : Nat) : RingConsumer .inbound (.resolve n)
  | rbPop (r : Dir) : RingConsumer r (.rbPop r)
  | rbClear (r : Dir) : RingConsumer r (.rbClear r)
  | reset (r : Dir) : RingConsumer r .reset

/-- An owed action that writes the producer's part of a ring, or leads to one: `MAIN` is the producer of `OUT` only. -/
def Action.produces : Dir → Action → Bool
  | .inbound, _ => false
  | .outbound, a => Claims.pushesOutbound a

/-- An owed action that writes the consumer's part of a ring, or leads to one: `MAIN` is the consumer of `IN` only. -/
def Action.consumes : Dir → Action → Bool
  | .inbound, a => Claims.popsInbound a
  | .outbound, _ => false

/-! ### The main context's actions -/

/-- All that an action writes of the rings: `A_POP` moves `in_start`; `A_ENC2` moves `out_end` and stores. -/
theorem act_rings {a : Action} {s t : State} (h : act a s = .ok t) :
    (t.inRing = s.inRing ∨ a = .pop ∧ ∃ i, t.inRing = { s.inRing with startIx := i }) ∧
    (t.outRing = s.outRing ∨ (∃ b, a = .enc2 b) ∧ ∃ i m, t.outRing = { s.outRing with endIx := i, buf := m }) := by
  cases a with
  | eval =>
    cases h
    rcases actEval_cases s with ⟨_, e⟩ | ⟨_, e⟩ <;> rw [e] <;> exact ⟨.inl rfl, .inl rfl⟩
  | pop =>
    rcases actPop_cases h with ⟨_, rfl⟩ | ⟨_, _, rfl⟩
    · exact ⟨.inl rfl, .inl rfl⟩
    · exact ⟨.inr ⟨rfl, _, rfl⟩, .inl rfl⟩
  | dec b =>
    obtain ⟨_, hin, hout⟩ := actDec_frame h
    exact ⟨.inl hin, .inl hout⟩
  | enc1 =>
    cases h
    rcases actEnc1_cases s with ⟨_, _, e⟩ | ⟨_, _, _, _, e⟩ | ⟨_, _, e⟩ | ⟨_, _, _, e⟩ | ⟨_, _, _, e⟩ <;> rw [e] <;>
      exact ⟨.inl rfl, .inl rfl⟩
  | enc2 b =>
    rcases actEnc2_cases h with ⟨_, rfl⟩ | ⟨_, _, rfl⟩
    · exact ⟨.inl rfl, .inl rfl⟩
    · exact ⟨.inl rfl, .inr ⟨⟨b, rfl⟩, _, _, rfl⟩⟩
  | enc3 p =>
    cases h
    rw [actEnc3_eq]
    exact ⟨.inl rfl, .inl rfl⟩
  | err1 l =>
    cases h
    rcases actErr1_cases l s with ⟨_, e⟩ | ⟨_, _, e⟩ | ⟨_, _, e⟩ <;> rw [e] <;> exact ⟨.inl rfl, .inl rfl⟩
  | err2 c l =>
    cases h
    rw [actErr2_eq]
    exact ⟨.inl rfl, .inl rfl⟩

theorem producerPart_writtenOnlyBy (r : Dir) : WrittenOnlyBy (State.producerPart r) (Action.produces r) where
  bookkeeping _ _ _ _ _ := by cases r <;> rfl
  leads a b ha hab := by
    cases r with
    | inbound => rfl
    | outbound =>
      cases hab with
      | eval | enc1 => cases ha
      | pop | enc2 | err1 => rfl
  act a s t ha h := by
    obtain ⟨hin, hout⟩ := act_rings h
    cases r with
    | inbound => rcases hin with e | ⟨_, _, e⟩ <;> simp [State.producerPart, e]
    | outbound =>
      rcases hout with e | ⟨⟨b, rfl⟩, _⟩
      · simp [State.producerPart, e]
      · cases ha

theorem consumerPart_writtenOnlyBy (r : Dir) : WrittenOnlyBy (State.consumerPart r) (Action.consumes r) where
  bookkeeping _ _ _ _ _ := by cases r <;> rfl
  leads a b ha hab := by
    cases r with
    | inbound =>
      cases hab with
      | eval => cases ha
      | pop | enc1 | enc2 | err1 => rfl
    | outbound => rfl
  act a s t ha h := by
    obtain ⟨hin, hout⟩ := act_rings h
    cases r with
    | inbound =>
      rcases hin with e | ⟨rfl, _⟩
      · simp [State.consumerPart, e]
      · cases ha
    | outbound => rcases hout with e | ⟨_, _, _, e⟩ <;> simp [State.consumerPart, e]

/-! ### The environment and the handlers -/

theorem envMove_rings {m : EnvMove} {s t : State} (h : envMove m s = .next t) (r : Dir) : t.ring r = s.ring r := by
  cases m with
  | rx | txRdy | oqPush | iqPop | configured =>
    simp only [envMove] at h
    split at h <;> cases h
    cases r <;> rfl

theorem execRxh_rings {s t : State} (h : execRxh s = .next t) :
    t.inRing.startIx = s.inRing.startIx ∧ t.outRing = s.outRing := by
  obtain ⟨htaken, hact⟩ := takeHandler_eq_next h
  rcases actRxh_cases (Bool.and_eq_true_iff.mp htaken).1 hact with ⟨_, rfl⟩ | ⟨_, _, rfl⟩ <;> exact ⟨rfl, rfl⟩

theorem execTxh_rings {s t : State} (h : execTxh s = .next t) :
    t.inRing = s.inRing ∧ t.outRing.endIx = s.outRing.endIx ∧ t.outRing.buf = s.outRing.buf := by
  rcases actTxh_cases (takeHandler_eq_next h).2 with ⟨_, rfl⟩ | ⟨_, _, rfl⟩ <;> exact ⟨rfl, rfl, rfl⟩

/-! ### The operations performed directly -/

theorem execStart_rings {s t : State} (h : execStart s = .next t) (r : Dir) : t.ring r = s.ring r := by
  unfold execStart at h
  split at h
  · obtain ⟨_, hnext⟩ := whenIdle_eq_next h
    cases hnext
    rfl
  · cases h

theorem execArbSel_rings {s t : State} (h : execArbSel s = .next t) (r : Dir) : t.ring r = s.ring r := by
  obtain ⟨_, hnext⟩ := whenIdle_eq_next h
  cases hnext
  rfl

theorem execRbPush_eq_next {r : Dir} {b : Byte} {s t : State} (h : execRbPush r b s = .next t) :
    ∃ p u, ringPush r b s = .ok (p, u) ∧ t = u.ended p := by
  rw [execRbPush_eq] at h
  obtain ⟨_, hnext⟩ := whenIdle_eq_next h
  cases hpush : ringPush r b s <;> rw [hpush] at hnext <;> cases hnext
  exact ⟨_, _, rfl, rfl⟩

theorem execRbPop_eq_next {r : Dir} {s t : State} (h : execRbPop r s = .next t) :
    ∃ o u, ringPop r s = .ok (o, u) ∧ t = u.ended (o.elim .empty .okByte) := by
  rw [execRbPop_eq] at h
  obtain ⟨_, hnext⟩ := whenIdle_eq_next h
  cases hpop : ringPop r s <;> rw [hpop] at hnext <;> cases hnext
  exact ⟨_, _, rfl, rfl⟩

theorem State.producerPart_setRing {r : Dir} {v : Ring} {s : State} (d : Dir)
    (hv : d = r → v.endIx = (s.ring r).endIx ∧ v.buf = (s.ring r).buf) :
    (s.setRing r v).producerPart d = s.producerPart d := by
  by_cases hd : d = r
  · subst hd
    obtain ⟨hend, hbuf⟩ := hv rfl
    simp [State.producerPart, hend, hbuf]
  · simp [State.producerPart, State.setRing_ring_other s r d v hd]

theorem State.consumerPart_setRing {r : Dir} {v : Ring} {s : State} (d : Dir)
    (hv : d = r → v.startIx = (s.ring r).startIx) : (s.setRing r v).consumerPart d = s.consumerPart d := by
  by_cases hd : d = r
  · subst hd
    simp [State.consumerPart, hv rfl]
  · simp [State.consumerPart, State.setRing_ring_other s r d v hd]

/-- `RB_PUSH` writes the producer's part of its ring. -/
theorem execRbPush_parts {r : Dir} {b : Byte} {s t : State} (h : execRbPush r b s = .next t) (d : Dir) :
    t.consumerPart d = s.consumerPart d ∧ (d ≠ r → t.producerPart d = s.producerPart d) := by
  obtain ⟨p, u, hpush, rfl⟩ := execRbPush_eq_next h
  rcases ringPush_cases hpush with ⟨_, rfl, _⟩ | ⟨_, _, _, rfl⟩
  · exact ⟨rfl, fun _ => rfl⟩
  · exact ⟨State.consumerPart_setRing d fun _ => rfl, fun hd => State.producerPart_setRing d fun e => absurd e hd⟩

/-- `RB_POP` writes the consumer's part of its ring. -/
theorem execRbPop_parts {r : Dir} {s t : State} (h : execRbPop r s = .next t) (d : Dir) :
    t.producerPart d = s.producerPart d ∧ (d ≠ r → t.consumerPart d = s.consumerPart d) := by
  obtain ⟨o, u, hpop, rfl⟩ := execRbPop_eq_next h
  rcases ringPop_cases hpop with ⟨_, rfl, _⟩ | ⟨_, _, _, rfl⟩
  · exact ⟨rfl, fun _ => rfl⟩
  · exact ⟨State.producerPart_setRing d fun _ => ⟨rfl, rfl⟩,
      fun hd => State.consumerPart_setRing d fun e => absurd e hd⟩

/-- `RB_CLEAR` writes the consumer's part of its ring. -/
theorem execRbClear_parts {r : Dir} {s t : State} (h : execRbClear r s = .next t) (d : Dir) :
    t.producerPart d = s.producerPart d ∧ (d ≠ r → t.consumerPart d = s.consumerPart d) := by
  obtain ⟨_, hnext⟩ := whenIdle_eq_next h
  cases hnext
  exact ⟨State.producerPart_setRing d fun _ => ⟨rfl, rfl⟩, fun hd => State.consumerPart_setRing d fun e => absurd e hd⟩

/-! ### Instructions -/

theorem WrittenOnlyBy.execResolve {α : Type} {f : State → α} {writes : Action → Bool} (hf : WrittenOnlyBy f writes)
    {n : Nat} {s t : State} (heval : writes .eval = false) (h : execResolve n s = .next t) : f t = f s := by
  unfold Machine.execResolve at h
  split at h
  · cases h
  · exact (hf.invoke (List.forall_mem_singleton.mpr heval) h).trans (hf.bookkeeping s s.todo n s.agenda s.quantum)

/-- An instruction that is no producer of a ring, however it is interrupted, leaves the producer's part. -/
theorem exec_producerPart {r : Dir} {i : Instr} {s t : State} (hi : ¬RingProducer r i) (h : exec i s = .next t) :
    t.producerPart r = s.producerPart r := by
  have hmain := producerPart_writtenOnlyBy r
  have hdec (b : Byte) : Action.produces r (.dec b) = false := by cases r <;> rfl
  cases i with
  | msgNoData | msgData1b | msgData2b | msgDataNb => exact hmain.invoke (List.forall_mem_map.mpr fun b _ => hdec b) h
  | decStep b => exact hmain.invoke (List.forall_mem_singleton.mpr (hdec b)) h
  | inTurn | errReport => exact hmain.invoke (List.forall_mem_singleton.mpr (by cases r <;> rfl)) h
  | encStep =>
    cases r with
    | inbound => exact hmain.invoke (fun _ _ => rfl) h
    | outbound => exact absurd .encStep hi
  | resolve n =>
    cases r with
    | inbound => exact hmain.execResolve rfl h
    | outbound => exact absurd (.resolve n) hi
  | reset => exact absurd (.reset r) hi
  | start => simp only [State.producerPart, execStart_rings h]
  | arbSel => simp only [State.producerPart, execArbSel_rings h]
  | rxh =>
    cases r with
    | inbound => exact absurd .rxh hi
    | outbound => simp [State.producerPart, (execRxh_rings h).2]
  | txh =>
    obtain ⟨hin, hend, hbuf⟩ := execTxh_rings h
    cases r <;> simp [State.producerPart, hin, hend, hbuf]
  | rbPush d b => exact (execRbPush_parts h r).2 fun e => hi (e ▸ .rbPush r b)
  | rbPop d => exact (execRbPop_parts h r).1
  | rbClear d => exact (execRbClear_parts h r).1

/-- An instruction that is no consumer of a ring, however it is interrupted, leaves the consumer's part. -/
theorem exec_consumerPart {r : Dir} {i : Instr} {s t : State} (hi : ¬RingConsumer r i) (h : exec i s = .next t) :
    t.consumerPart r = s.consumerPart r := by
  have hmain := consumerPart_writtenOnlyBy r
  have hdec (b : Byte) : Action.consumes r (.dec b) = false := by cases r <;> rfl
  cases i with
  | msgNoData | msgData1b | msgData2b | msgDataNb => exact hmain.invoke (List.forall_mem_map.mpr fun b _ => hdec b) h
  | decStep b => exact hmain.invoke (List.forall_mem_singleton.mpr (hdec b)) h
  | encStep | errReport => exact hmain.invoke (List.forall_mem_singleton.mpr (by cases r <;> rfl)) h
  | inTurn =>
    cases r with
    | inbound => exact absurd .inTurn hi
    | outbound => exact hmain.invoke (fun _ _ => rfl) h
  | resolve n =>
    cases r with
    | inbound => exact absurd (.resolve n) hi
    | outbound => exact hmain.execResolve rfl h
  | reset => exact absurd (.reset r) hi
  | start => simp only [State.consumerPart, execStart_rings h]
  | arbSel => simp only [State.consumerPart, execArbSel_rings h]
  | rxh =>
    obtain ⟨hstart, hout⟩ := execRxh_rings h
    cases r <;> simp [State.consumerPart, hstart, hout]
  | txh =>
    cases r with
    | inbound => simp [State.consumerPart, (execTxh_rings h).1]
    | outbound => exact absurd .txh hi
  | rbPush d b => exact (execRbPush_parts h r).1
  | rbPop d => exact (execRbPop_parts h r).2 fun e => hi (e ▸ .rbPop r)
  | rbClear d => exact (execRbClear_parts h r).2 fun e => hi (e ▸ .rbClear r)

theorem step_producerPart {r : Dir} {s t : State} (hs : Claims.InvokesNothing s)
    (howed : ∀ a ∈ s.todo, Action.produces r a = false) (h : step s = .next t) :
    t.producerPart r = s.producerPart r :=
  (producerPart_writtenOnlyBy r).step_invoking_nothing
    (fun _ _ _ henv => by simp only [State.producerPart, envMove_rings henv]) hs howed h

theorem step_consumerPart {r : Dir} {s t : State} (hs : Claims.InvokesNothing s)
    (howed : ∀ a ∈ s.todo, Action.consumes r a = false) (h : step s = .next t) :
    t.consumerPart r = s.consumerPart r :=
  (consumerPart_writtenOnlyBy r).step_invoking_nothing
    (fun _ _ _ henv => by simp only [State.consumerPart, envMove_rings henv]) hs howed h

/-- Settles O50: in a step without an instruction only an owed action of `MAIN`'s own kinds writes its part of a ring;
an instruction writes a part only as one of its producers or consumers. -/
theorem onlyProducersMoveEndOnlyConsumersMoveStart : Obligations.OnlyProducersMoveEndOnlyConsumersMoveStart := by
  constructor
  · intro s t h hs
    obtain ⟨hinEnd, hinBuf⟩ := Prod.mk.inj (step_producerPart (r := .inbound) hs (fun _ _ => rfl) h)
    exact ⟨hinEnd, hinBuf, step_consumerPart (r := .outbound) hs (fun _ _ => rfl) h,
      fun howed => step_consumerPart (r := .inbound) hs howed h,
      fun howed => Prod.mk.inj (step_producerPart (r := .outbound) hs howed h)⟩
  · intro i s t h hreset
    refine ⟨fun hrxh hpush => ?_, fun hturn hresolve hpop hclear => ?_, fun henc hresolve hpush => ?_,
      fun htxh hpop hclear => ?_⟩
    · refine Prod.mk.inj (exec_producerPart (r := .inbound) (fun hi => ?_) h)
      cases hi with
      | rxh => exact hrxh rfl
      | rbPush _ b => exact hpush b rfl
      | reset => exact hreset rfl
    · refine exec_consumerPart (r := .inbound) (fun hi => ?_) h
      cases hi with
      | inTurn => exact hturn rfl
      | resolve n => exact hresolve n rfl
      | rbPop => exact hpop rfl
      | rbClear => exact hclear rfl
      | reset => exact hreset rfl
    · refine Prod.mk.inj (exec_producerPart (r := .outbound) (fun hi => ?_) h)
      cases hi with
      | encStep => exact henc rfl
      | resolve n => exact hresolve n rfl
      | rbPush _ b => exact hpush b rfl
      | reset => exact hreset rfl
    · refine exec_consumerPart (r := .outbound) (fun hi => ?_) h
      cases hi with
      | txh => exact htxh rfl
      | rbPop => exact hpop rfl
      | rbClear => exact hclear rfl
      | reset => exact hreset rfl

end Sys2Proof.Machine

/-!
PROOF. The encoding (30_encoding.md): decoding and encoding are each other's inverse on well-formed instructions (R93,
R104), bytes are refused only for their number (R96, R101), and a code is refused only when it is unassigned or its
operands are not its own (R104).
-/

namespace Sys2Proof.Machine

/-! ### Decoding an encoded instruction -/

/-- Settles O4, row by row of the opcode table: a type byte gives back its subtype and class, an NB payload is as long
as its length byte says, a ring bit gives back its ring, and the operations without a ring operand decode by
evaluation. -/
theorem decodeOfEncodeIsTheInstruction : Obligations.DecodeOfEncodeIsTheInstruction := by
  intro i hwf
  cases i with
  | msgNoData | msgData1b | msgData2b =>
    simp only [encode, decode, decodeFrame, classOf_typeByte, subtypeOf_typeByte]
  | msgDataNb sub len payload =>
    have hlen : payload.length = len.toNat := beq_iff_eq.mp hwf
    simp only [encode, decode, decodeFrame, classOf_typeByte, subtypeOf_typeByte, if_pos hlen]
  | rbPush r | rbPop r | rbClear r => simp [encode, decode, decodeOp, dirOfBit_bitOfDir]
  | reset | start | resolve | rxh | txh | decStep | inTurn | encStep | errReport | arbSel => rfl

/-! ### Words that decode -/

theorem typeByte_subtypeOf_of_classOf {t : Byte} {c : SizeClass} (h : classOf t = c) :
    typeByte (subtypeOf t) c = t := by
  rw [← h, typeByte_subtypeOf]

/-- Bytes that decode are the encoding of a well-formed frame: the type byte is its subtype with its class
(30_encoding.md R91, R93), and an NB payload has passed the check of its length (R96). -/
theorem encode_of_decodeFrame {bytes : List Byte} {i : Instr} (h : decodeFrame bytes = .ok i) :
    i.wellFormed = true ∧ encode i = .frame bytes := by
  unfold decodeFrame at h
  split at h
  · cases h
  · split at h
    case h_1 hc | h_4 hc | h_8 hc =>
      cases h
      exact ⟨rfl, by rw [encode, typeByte_subtypeOf_of_classOf hc]⟩
    case h_11 hc =>
      split at h
      · rename_i hlen
        cases h
        exact ⟨beq_iff_eq.mpr hlen, by rw [encode, typeByte_subtypeOf_of_classOf hc]⟩
      · split at h <;> cases h
    all_goals cases h

/-- A code and operands that decode are the encoding of a well-formed instruction: the branch of the decoder fixes the
code and the shape of the operands (30_encoding.md R104), and a ring operand is the bit of its ring. -/
theorem encode_of_decodeOp {sel : BitVec 4} {o : Operand} {i : Instr} (h : decodeOp sel o = .ok i) :
    i.wellFormed = true ∧ encode i = .op sel o := by
  unfold decodeOp at h
  split at h
  case h_14 => split at h <;> cases h
  all_goals
    rename_i hsel
    cases h
    exact ⟨rfl, by simp [encode, bitOfDir_dirOfBit, ← BitVec.toNat_inj, hsel]⟩

/-- Settles O5: each branch of the decoder that answers reads exactly the words of its answer. -/
theorem decodedWordsAreTheEncoding : Obligations.DecodedWordsAreTheEncoding := by
  intro w i h
  cases w with
  | frame bytes => exact encode_of_decodeFrame h
  | op sel o => exact encode_of_decodeOp h

/-! ### Bytes of a frame's length -/

theorem decodeFrame_of_length {t : Byte} {rest : List Byte} (h : rest.length + 1 = frameLen t (rest.headD 0#8)) :
    ∃ i, decodeFrame (t :: rest) = .ok i := by
  unfold frameLen at h
  split at h
  case h_1 hc =>
    obtain rfl : rest = [] := List.length_eq_zero_iff.mp (by omega)
    simp [decodeFrame, hc]
  case h_2 hc =>
    obtain ⟨p0, rfl⟩ := List.length_eq_one_iff.mp (show rest.length = 1 by omega)
    simp [decodeFrame, hc]
  case h_3 hc =>
    obtain ⟨p0, p1, rfl⟩ := List.length_eq_two.mp (show rest.length = 2 by omega)
    simp [decodeFrame, hc]
  case h_4 hc =>
    cases rest with
    | nil => simp at h
    | cons len payload =>
      have hlen : payload.length = len.toNat := by
        rw [List.length_cons, List.headD_cons] at h
        omega
      simp [decodeFrame, hc, hlen]

theorem frameFields_of_encode {i : Instr} {t : Byte} {rest : List Byte} (h : encode i = .frame (t :: rest)) :
    ∃ n pay, Claims.frameFields i = some (t, n, pay) := by
  cases i with
  | msgNoData | msgData1b | msgData2b | msgDataNb =>
    cases h
    exact ⟨_, _, rfl⟩
  | _ => cases h

/-- Settles O3: bytes of the frame's length reach a branch that answers, and what they decode to has them as its
words. -/
theorem everyByteStringOfFrameLengthDecodes : Obligations.EveryByteStringOfFrameLengthDecodes := by
  intro t rest hlen
  have hframe : rest.length + 1 = frameLen t (rest.headD 0#8) := by
    refine hlen.trans ?_
    unfold frameLen classOf
    generalize t.extractLsb' 0 2 = c
    obtain rfl | rfl | rfl | rfl : c = 0#2 ∨ c = 1#2 ∨ c = 2#2 ∨ c = 3#2 := by revert c; decide
    all_goals rfl
  obtain ⟨i, hdec⟩ := decodeFrame_of_length hframe
  obtain ⟨hwf, henc⟩ := encode_of_decodeFrame hdec
  exact ⟨i, hdec, hwf, henc, frameFields_of_encode henc⟩

/-! ### Words of the spec, and codes it leaves unassigned -/

/-- Settles O1, by evaluation of the decoder on the nine words. -/
theorem wordsOfTheSpecDecode : Obligations.WordsOfTheSpecDecode := by
  unfold Obligations.WordsOfTheSpecDecode
  decide

theorem decodeOp_unassigned {sel : BitVec 4} (o : Operand) (h : 13 ≤ sel.toNat) :
    decodeOp sel o = .error (.unassignedOpSel sel) := by
  unfold decodeOp
  split
  case h_14 => exact if_pos h
  all_goals omega

theorem runEvent_invoke_undecodable {w : CodeWord} {e : DecodeError} (h : decode w = .error e) (s : State) :
    runEvent (.invoke w) s = .refused (.undecodable e) := by
  rw [runEvent, h]

/-- Settles O2: a code past 12 meets none of the decoder's rows, and a step refuses what the decoder refuses. -/
theorem unassignedOpSelIsRefused : Obligations.UnassignedOpSelIsRefused := by
  intro sel o hsel
  have hdec : decode (.op sel o) = .error (.unassignedOpSel sel) := decodeOp_unassigned o hsel
  refine ⟨hdec, fun s q rest hagenda => ?_⟩
  rw [step_scheduled hagenda, runEvent_invoke_undecodable hdec]

end Sys2Proof.Machine

/-!
PROOF. The two rings as queues of bytes (40_ring_buffer.md): what the three primitives do when performed directly
(R121 to R123), the bytes held under each of them (R125 to R127), and the one slot an operation that pushes stores to
(R120, R121).
-/

namespace Sys2Proof.Machine

/-! ### The primitives performed directly -/

@[simp] theorem State.ended_ring (s : State) (p : Status) (r : Dir) : (s.ended p).ring r = s.ring r := by
  cases r <;> rfl

@[simp] theorem State.ended_cap (s : State) (p : Status) (r : Dir) : (s.ended p).cap r = s.cap r := by
  cases r <;> rfl

theorem exec_rbPush_of_full {r : Dir} (b : Byte) {s : State} (hidle : s.todo = [])
    (hfull : ringNext (s.cap r) (s.ring r).endIx = (s.ring r).startIx) :
    exec (.rbPush r b) s = .next (s.ended .full) := by
  have hpush : ringPush r b s = .ok (.full, s) := if_pos ((Ring.isFull_iff _ _).mpr hfull)
  exact (whenIdle_of_idle hidle _).trans (by rw [hpush])

theorem exec_rbPush_of_room {r : Dir} (b : Byte) {s : State} (hidle : s.todo = [])
    (hend : (s.ring r).endIx < s.cap r) (hroom : ringNext (s.cap r) (s.ring r).endIx ≠ (s.ring r).startIx) :
    exec (.rbPush r b) s = .next ((s.setRing r
      { s.ring r with
        buf := (s.ring r).buf.write (s.ring r).endIx b
        endIx := ringNext (s.cap r) (s.ring r).endIx }).ended .ok) := by
  have hnotFull := mt (Ring.isFull_iff _ _).mp hroom
  exact (whenIdle_of_idle hidle _).trans (by rw [ringPush, if_neg hnotFull, if_pos hend])

theorem exec_rbPop_of_empty {r : Dir} {s : State} (hidle : s.todo = [])
    (hempty : (s.ring r).startIx = (s.ring r).endIx) : exec (.rbPop r) s = .next (s.ended .empty) := by
  have hpop : ringPop r s = .ok (none, s) := if_pos ((Ring.isEmpty_iff _).mpr hempty)
  exact (whenIdle_of_idle hidle _).trans (by rw [hpop])

theorem exec_rbPop_of_nonempty {r : Dir} {s : State} (hidle : s.todo = []) (hstart : (s.ring r).startIx < s.cap r)
    (hheld : (s.ring r).startIx ≠ (s.ring r).endIx) :
    exec (.rbPop r) s = .next ((s.setRing r
      { s.ring r with startIx := ringNext (s.cap r) (s.ring r).startIx }).ended
        (.okByte ((s.ring r).buf.read (s.ring r).startIx))) := by
  have hnotEmpty := mt (Ring.isEmpty_iff _).mp hheld
  exact (whenIdle_of_idle hidle _).trans (by rw [ringPop, if_neg hnotEmpty, if_pos hstart])

theorem exec_rbClear_of_idle (r : Dir) {s : State} (hidle : s.todo = []) :
    exec (.rbClear r) s = .next ((ringClear r s).ended .ok) :=
  whenIdle_of_idle hidle _

/-- Settles O10: the full ring refuses, one with room takes the byte at its producer index. -/
theorem rbPushStoresAtEndOrReportsFull : Obligations.RbPushStoresAtEndOrReportsFull :=
  fun _ b _ hidle hend => ⟨exec_rbPush_of_full b hidle, exec_rbPush_of_room b hidle hend⟩

/-- Settles O11: the empty ring refuses, any other gives the byte at its consumer index. -/
theorem rbPopTakesAtStartOrReportsEmpty : Obligations.RbPopTakesAtStartOrReportsEmpty :=
  fun _ _ hidle hstart => ⟨exec_rbPop_of_empty hidle, exec_rbPop_of_nonempty hidle hstart⟩

/-- Settles O12: an idle main context runs the clear, which cannot fail. -/
theorem rbClearSetsStartToEnd : Obligations.RbClearSetsStartToEnd :=
  fun r _ hidle => exec_rbClear_of_idle r hidle

/-! ### The number of bytes held -/

theorem Ring.count_of_empty (c : Nat) {r : Ring} (h : r.startIx = r.endIx) : r.count c = 0 := by
  simp [Ring.count, h]

theorem Ring.wf.count_lt {c : Nat} {r : Ring} (h : r.wf c) : r.count c < c := by
  obtain ⟨hstart, hend, _⟩ := h
  unfold Ring.count
  split <;> omega

/-- `count` slots past the oldest byte stands the producer index. -/
theorem Ring.wf.slot_count {c : Nat} {r : Ring} (h : r.wf c) : (r.startIx + r.count c) % c = r.endIx := by
  obtain ⟨hstart, hend, _⟩ := h
  unfold Ring.count
  split
  · rw [Nat.add_sub_cancel' ‹_›, Nat.mod_eq_of_lt hend]
  · rw [Nat.add_sub_cancel' (by omega), Nat.add_mod_right, Nat.mod_eq_of_lt hend]

theorem Ring.wf.full_iff_count {c : Nat} {r : Ring} (h : r.wf c) :
    ringNext c r.endIx = r.startIx ↔ r.count c = c - 1 := by
  obtain ⟨hstart, hend, _⟩ := h
  rw [ringNext_eq c _ hend]
  simp only [Ring.count]
  split_ifs <;> omega

theorem Ring.wf.count_produce {c : Nat} {r : Ring} (h : r.wf c) (hroom : ringNext c r.endIx ≠ r.startIx) (m : Memory) :
    Ring.count c { r with buf := m, endIx := ringNext c r.endIx } = r.count c + 1 := by
  obtain ⟨hstart, hend, _⟩ := h
  rw [ringNext_eq c _ hend] at hroom ⊢
  simp only [Ring.count]
  split_ifs at hroom ⊢ <;> omega

theorem Ring.wf.count_consume {c : Nat} {r : Ring} (h : r.wf c) (hheld : r.startIx ≠ r.endIx) :
    r.count c = Ring.count c { r with startIx := ringNext c r.startIx } + 1 := by
  obtain ⟨hstart, hend, _⟩ := h
  rw [ringNext_eq c _ hstart]
  simp only [Ring.count]
  split_ifs <;> omega

/-! ### The bytes held, oldest first -/

theorem Ring.bytes_of_empty (c : Nat) {r : Ring} (h : r.startIx = r.endIx) : r.bytes c = [] := by
  simp [Ring.bytes, Ring.count_of_empty c h]

/-- A byte held does not stand at the producer index, where a push stores. -/
theorem Ring.wf.slot_ne_endIx {c k : Nat} {r : Ring} (h : r.wf c) (hk : k < r.count c) :
    (r.startIx + k) % c ≠ r.endIx := by
  rw [← h.slot_count]
  intro heq
  have hlt := h.count_lt
  have hmod : k % c = r.count c % c := Nat.ModEq.add_left_cancel' r.startIx heq
  rw [Nat.mod_eq_of_lt hlt, Nat.mod_eq_of_lt (hk.trans hlt)] at hmod
  omega

theorem Ring.wf.bytes_produce {c : Nat} {r : Ring} (h : r.wf c) (hroom : ringNext c r.endIx ≠ r.startIx) (b : Byte) :
    Ring.bytes c { r with buf := r.buf.write r.endIx b, endIx := ringNext c r.endIx } = r.bytes c ++ [b] := by
  have hkept (k : Nat) (hk : k ∈ List.range (r.count c)) :
      (r.buf.write r.endIx b).read ((r.startIx + k) % c) = r.buf.read ((r.startIx + k) % c) :=
    Memory.read_write_other _ _ _ _ (h.slot_ne_endIx (List.mem_range.mp hk))
  simp [Ring.bytes, h.count_produce hroom, List.range_succ, h.slot_count, List.map_congr_left hkept]

theorem Ring.wf.bytes_consume {c : Nat} {r : Ring} (h : r.wf c) (hheld : r.startIx ≠ r.endIx) :
    r.bytes c = r.buf.read r.startIx :: Ring.bytes c { r with startIx := ringNext c r.startIx } := by
  have hslot (k : Nat) : (r.startIx + (k + 1)) % c = (ringNext c r.startIx + k) % c := by
    rw [ringNext, Nat.mod_add_mod, Nat.add_right_comm, Nat.add_assoc]
  simp [Ring.bytes, h.count_consume hheld, List.range_succ_eq_map, Function.comp_def, hslot, Nat.mod_eq_of_lt h.1]

/-- Settles O13: a ring is full exactly at `C - 1` bytes, and a push stores past the youngest byte held. -/
theorem pushAppendsToTheBytesHeld : Obligations.PushAppendsToTheBytesHeld := by
  intro r b s hidle hwf
  have ⟨_, hend, _⟩ := hwf
  refine ⟨Nat.le_sub_one_of_lt hwf.count_lt, ?_⟩
  by_cases hfull : ringNext (s.cap r) (s.ring r).endIx = (s.ring r).startIx
  · have hcount := hwf.full_iff_count.mp hfull
    exact ⟨_, exec_rbPush_of_full b hidle hfull, fun _ => ⟨rfl, by simp⟩, fun hlt => by omega⟩
  · exact ⟨_, exec_rbPush_of_room b hidle hend hfull, fun hcount => absurd (hwf.full_iff_count.mpr hcount) hfull,
      fun _ => ⟨rfl, by simp [hwf.bytes_produce hfull]⟩⟩

/-- Settles O14: a ring holds no byte exactly when its indices meet, and a pop takes the byte at `start`, the oldest. -/
theorem popRemovesTheOldestByte : Obligations.PopRemovesTheOldestByte := by
  intro r s hidle hwf
  have ⟨hstart, _, _⟩ := hwf
  by_cases hempty : (s.ring r).startIx = (s.ring r).endIx
  · refine ⟨_, exec_rbPop_of_empty hidle hempty, ?_⟩
    rw [Ring.bytes_of_empty _ hempty]
    exact ⟨rfl, by simp⟩
  · refine ⟨_, exec_rbPop_of_nonempty hidle hstart hempty, ?_⟩
    rw [hwf.bytes_consume hempty]
    exact ⟨rfl, by simp⟩

/-! ### Clearing -/

@[simp] theorem ringClear_ring (r : Dir) (s : State) :
    (ringClear r s).ring r = { s.ring r with startIx := (s.ring r).endIx } :=
  State.setRing_ring s r _

@[simp] theorem ringClear_cap (r d : Dir) (s : State) : (ringClear r s).cap d = s.cap d :=
  State.setRing_cap s r d _

/-- Clearing a cleared ring changes nothing. -/
theorem ringClear_ringClear_ended (r : Dir) (s : State) (p : Status) :
    ringClear r ((ringClear r s).ended p) = (ringClear r s).ended p := by
  cases r <;> rfl

/-- Clearing an empty ring changes nothing. -/
theorem ringClear_of_empty {r : Dir} {s : State} (h : (s.ring r).startIx = (s.ring r).endIx) : ringClear r s = s := by
  unfold ringClear
  rw [← h]
  cases r <;> rfl

/-- A push onto an empty ring succeeds: a ring has two slots or more. -/
theorem exec_rbPush_of_empty {r : Dir} (b : Byte) {s : State} (hidle : s.todo = []) (hwf : (s.ring r).wf (s.cap r))
    (hempty : (s.ring r).startIx = (s.ring r).endIx) : ∃ u, exec (.rbPush r b) s = .next u ∧ u.result = .ok := by
  obtain ⟨_, u, hpush, _, hroom⟩ := pushAppendsToTheBytesHeld r b s hidle hwf
  have hcap := s.two_le_cap r
  have hcount := Ring.count_of_empty (s.cap r) hempty
  exact ⟨u, hpush, (hroom (by omega)).1⟩

/-- Settles O15: a cleared ring's indices meet, so it holds nothing, has room for a byte, and clears to itself. -/
theorem clearEmptiesAndIsIdempotent : Obligations.ClearEmptiesAndIsIdempotent := by
  intro r b s hidle hwf
  have hidle' : ((ringClear r s).ended .ok).todo = [] := by simp [ringClear, hidle]
  refine ⟨_, exec_rbClear_of_idle r hidle, Ring.bytes_of_empty _ (by simp),
    exec_rbPush_of_empty b hidle' (by simpa using hwf.clear) (by simp), ?_, fun hempty => ?_⟩
  · rw [exec_rbClear_of_idle r hidle', ringClear_ringClear_ended]
    rfl
  · rw [ringClear_of_empty hempty]
    rfl

/-! ### The slot a push stores to -/

/-- From `s` to `t` no slot of either ring array reads differently, but perhaps the slot at the producer index of `r`
in `s`. -/
def StoresAtEndOnly (r : Dir) (s t : State) : Prop :=
  ∀ (r' : Dir) (a : Nat), ¬(r' = r ∧ a = (s.ring r).endIx) →
    (t.ring r').buf.read a = (s.ring r').buf.read a

/-- An instruction that is no producer of the other ring stores at most where it stores in its own. -/
theorem storesAtEndOnly_of_exec {r : Dir} {i : Instr} {s t : State} (h : exec i s = .next t)
    (hother : ∀ d, d ≠ r → ¬RingProducer d i)
    (hown : ∀ a, a ≠ (s.ring r).endIx → (t.ring r).buf.read a = (s.ring r).buf.read a) : StoresAtEndOnly r s t := by
  intro d a ha
  by_cases hd : d = r
  · subst hd
    exact hown a fun e => ha ⟨rfl, e⟩
  · rw [(Prod.mk.inj (exec_producerPart (hother d hd) h)).2]

/-- `A_ENC1` stores into no ring, and leads to no action but one `A_ENC2`. -/
theorem actEnc1_owes (s : State) :
    (actEnc1 s).outRing = s.outRing ∧
      ((actEnc1 s).todo = s.todo ∨ ∃ b, (actEnc1 s).todo = .enc2 b :: s.todo) := by
  rcases actEnc1_cases s with ⟨_, _, e⟩ | ⟨_, _, _, _, e⟩ | ⟨_, _, e⟩ | ⟨_, _, _, e⟩ | ⟨_, _, _, e⟩ <;> rw [e]
  · exact ⟨rfl, .inl rfl⟩
  all_goals exact ⟨rfl, .inr ⟨_, rfl⟩⟩

/-- `A_ENC2` stores at `out_end` if anywhere, and leads to `A_ENC3` alone. -/
theorem actEnc2_stores {b : Byte} {s t : State} (h : actEnc2 b s = .ok t) :
    (∃ p, t.todo = .enc3 p :: s.todo) ∧
      ∀ a, a ≠ s.outRing.endIx → t.outRing.buf.read a = s.outRing.buf.read a := by
  rcases actEnc2_cases h with ⟨_, rfl⟩ | ⟨_, _, rfl⟩
  · exact ⟨⟨_, rfl⟩, fun _ _ => rfl⟩
  · exact ⟨⟨_, rfl⟩, fun a ha => Memory.read_write_other _ _ a _ ha⟩

/-- A slice with one `A_ENC2` owed stores at `out_end` at most: `A_ENC3` after it stores nothing. -/
theorem runMain_enc2_stores {n : Nat} {b : Byte} {s t : State} (hs : s.todo = [.enc2 b]) (h : runMain n s = .ok t)
    {a : Nat} (ha : a ≠ s.outRing.endIx) : t.outRing.buf.read a = s.outRing.buf.read a := by
  cases n with
  | zero => cases h; rfl
  | succ n =>
    rw [runMain_succ n hs] at h
    split at h
    · rename_i u hact
      obtain ⟨⟨p, hu⟩, hstores⟩ := actEnc2_stores hact
      have howed : ∀ c ∈ u.todo, Action.produces .outbound c = false := by
        rw [hu]
        exact List.forall_mem_singleton.mpr rfl
      have hrest := (producerPart_writtenOnlyBy .outbound).runMain howed h
      rw [show t.outRing.buf = u.outRing.buf from (Prod.mk.inj hrest).2]
      exact hstores a ha
    · cases h

/-- However it is interrupted, `ENC_STEP` stores at `out_end` at most in the outbound ring. -/
theorem execEncStep_stores {s t : State} (h : execEncStep s = .next t) {a : Nat} (ha : a ≠ s.outRing.endIx) :
    t.outRing.buf.read a = s.outRing.buf.read a := by
  obtain ⟨hidle, hrun⟩ := invoke_eq_next h
  cases hslice : (s.owe [.enc1]).slice with
  | zero => rw [hslice] at hrun; cases hrun; rfl
  | succ n =>
    rw [hslice, runMain_succ (a := .enc1) (rest := []) n (by simp [hidle])] at hrun
    have hrun : runMain n (actEnc1 s) = .ok t := by
      rwa [show ({ s.owe [.enc1] with todo := [] } : State) = s from State.todo_nil hidle] at hrun
    obtain ⟨hring, hdone | ⟨b, henc2⟩⟩ := actEnc1_owes s
    · rw [runMain_idle n (hdone.trans hidle)] at hrun
      cases hrun
      rw [hring]
    · rw [hidle] at henc2
      rw [← hring] at ha ⊢
      exact runMain_enc2_stores henc2 hrun ha

/-- `RB_PUSH` stores its byte, if it answers `Ok`, at the producer index. -/
theorem execRbPush_stores {r : Dir} {b : Byte} {s t : State} (h : execRbPush r b s = .next t) :
    (t.result = .ok → (t.ring r).buf.read (s.ring r).endIx = b) ∧
      ∀ a, a ≠ (s.ring r).endIx → (t.ring r).buf.read a = (s.ring r).buf.read a := by
  obtain ⟨p, u, hpush, rfl⟩ := execRbPush_eq_next h
  rcases ringPush_cases hpush with ⟨rfl, rfl, _⟩ | ⟨rfl, _, _, rfl⟩
  · exact ⟨nofun, fun _ _ => by simp⟩
  · exact ⟨fun _ => by simp, fun a ha => by simp [Memory.read_write_other _ _ a _ ha]⟩

/-- `RXH` stores the byte received, if it answers `Ok`, at `in_end`. -/
theorem execRxh_stores {s t : State} (h : execRxh s = .next t) :
    (t.rxResult = .ok → t.inRing.buf.read s.inRing.endIx = s.rxByte) ∧
      ∀ a, a ≠ s.inRing.endIx → t.inRing.buf.read a = s.inRing.buf.read a := by
  obtain ⟨htaken, hact⟩ := takeHandler_eq_next h
  rcases actRxh_cases (Bool.and_eq_true_iff.mp htaken).1 hact with ⟨_, rfl⟩ | ⟨_, _, rfl⟩
  · exact ⟨nofun, fun _ _ => rfl⟩
  · exact ⟨fun _ => Memory.read_write_same _ _ _, fun a ha => Memory.read_write_other _ _ a _ ha⟩

/-- Settles O16: each of the three is the producer of its own ring only, and stores there at the producer index. -/
theorem pushesStoreOneByteOnly : Obligations.PushesStoreOneByteOnly := by
  refine ⟨fun r b s t h => ?_, fun s t h => ?_, fun s t _ h => ?_⟩
  · obtain ⟨hbyte, hown⟩ := execRbPush_stores h
    refine ⟨hbyte, storesAtEndOnly_of_exec h (fun d hd hi => ?_) hown⟩
    cases hi
    exact hd rfl
  · obtain ⟨hbyte, hown⟩ := execRxh_stores h
    refine ⟨hbyte, storesAtEndOnly_of_exec (r := .inbound) h (fun d hd hi => ?_) hown⟩
    cases hi
    exact hd rfl
  · refine storesAtEndOnly_of_exec (r := .outbound) h (fun d hd hi => ?_) (fun a ha => execEncStep_stores h ha)
    cases hi
    exact hd rfl

end Sys2Proof.Machine

/-!
PROOF. The decoder (41_codec_decode.md): what a decode step does at each of the bytes of a frame (R141 to R147), an
inbound turn (R148), and a whole frame, which is its decode steps and between frames delivers the message it carries
(R140, R149).
-/

namespace Sys2Proof.Machine

/-! ### Classes and codes, and the queue's answer -/

theorem classOf_eq_iff (t : Byte) (c : SizeClass) : classOf t = c ↔ t.extractLsb' 0 2 = codeOfClass c := by
  constructor
  · rintro rfl
    exact (codeOfClass_classOfCode _).symm
  · intro h
    rw [classOf, h, classOfCode_codeOfClass]

theorem classOf_eq_noData_iff (t : Byte) : classOf t = .noData ↔ t.extractLsb' 0 2 = 0b00#2 := classOf_eq_iff t _

theorem classOf_eq_dataNb_iff (t : Byte) : classOf t = .dataNb ↔ t.extractLsb' 0 2 = 0b11#2 := classOf_eq_iff t _

theorem hdr_eq (t : Byte) : hdr t = if t.extractLsb' 0 2 = 0b11#2 then 2 else 1 := by
  simp only [← classOf_eq_dataNb_iff]
  cases h : classOf t <;> simp [hdr, h]

/-- The placeholder of NB is the class size of `DATA_2B` (30_encoding.md R97). -/
theorem sizeOfClass_eq {t : Byte} (h : classOf t ≠ .noData) :
    sizeOfClass t = if t.extractLsb' 0 2 = 0b01#2 then 1#8 else 2#8 := by
  have h1b : classOf t = .data1b ↔ t.extractLsb' 0 2 = 0b01#2 := classOf_eq_iff t _
  simp only [← h1b]
  cases hc : classOf t with
  | noData => exact absurd hc h
  | data1b | data2b | dataNb => simp [sizeOfClass, hc, nplace]

theorem State.queueRefuses_iff (s : State) (d : Dir) : s.queueRefuses d = true ↔ Claims.Refuses s d := by
  simp [State.queueRefuses, Claims.Refuses]

/-! ### Delivery -/

/-- `s` after the completion of a frame of type `t` and size `n` whose payload buffer is `p` (41_codec_decode.md R145):
the message delivered, or lost. -/
def State.delivered (s : State) (t n : Byte) (p : Memory) : State :=
  if s.queueRefuses .inbound then Claims.lost s t n p
  else Claims.taken s t n p (Decoder.message ⟨0#9, t, n, p⟩)

theorem State.delivered_of_refuses {s : State} (h : Claims.Refuses s .inbound) (t n : Byte) (p : Memory) :
    s.delivered t n p = Claims.lost s t n p :=
  if_pos ((s.queueRefuses_iff .inbound).mpr h)

theorem State.delivered_of_not_refuses {s : State} (h : ¬Claims.Refuses s .inbound) (t n : Byte) (p : Memory) :
    s.delivered t n p = Claims.taken s t n p (Decoder.message ⟨0#9, t, n, p⟩) :=
  if_neg (mt (s.queueRefuses_iff .inbound).mp h)

/-- Delivery reads nothing of what the steps of the frame wrote, and leaves the draws. -/
theorem State.delivered_after (s : State) (d : Decoder) (r : Status) (k : Nat) (t n : Byte) (p : Memory) :
    ({ s with dec := d, result := r, draws := k } : State).delivered t n p =
      { s.delivered t n p with draws := k } := by
  have h : ({ s with dec := d, result := r, draws := k } : State).queueRefuses .inbound = s.queueRefuses .inbound := rfl
  simp only [State.delivered, h]
  split <;> rfl

theorem State.delivered_same_draws (s : State) (t n : Byte) (p : Memory) :
    { s.delivered t n p with draws := s.draws } = s.delivered t n p := by
  unfold State.delivered
  split <;> rfl

theorem decFinish_of_complete {s : State} (h : frameComplete s.dec.count s.dec.msgType s.dec.msgSize = true) :
    decFinish s = s.delivered s.dec.msgType s.dec.msgSize s.dec.pay := by
  unfold decFinish State.delivered
  rw [if_pos h]
  rcases decDeliver_cases s with ⟨hq, e⟩ | ⟨hq, e⟩ <;> rw [e, hq] <;> rfl

/-! ### The case effect, at each byte of a frame -/

theorem decPlace_typeByte (b : Byte) {s : State} (h0 : s.dec.count = 0#9) :
    decPlace b s = .ok { s with
      dec := ⟨0#9, b, sizeOfClass b, s.dec.pay.allocate (sizeOfClass b).toNat s.draws⟩, draws := s.draws + 1 } := by
  rw [decPlace, if_pos h0, ← h0]

theorem decPlace_lengthByte (b : Byte) {s : State} (h1 : s.dec.count = 1#9) (hnb : classOf s.dec.msgType = .dataNb) :
    decPlace b s = .ok { s with
      dec := ⟨1#9, s.dec.msgType, b, s.dec.pay.allocate b.toNat s.draws⟩, draws := s.draws + 1 } := by
  rw [decPlace, if_neg (by simp [h1]), if_pos ⟨h1, hnb⟩, ← h1]

/-- Within its frame a payload byte has its slot (20_memory.md R61). -/
theorem decPlace_payloadByte (b : Byte) {s : State} (h0 : s.dec.count ≠ 0#9)
    (h1 : ¬(s.dec.count = 1#9 ∧ classOf s.dec.msgType = .dataNb))
    (hle : s.dec.count.toNat + 1 ≤ hdr s.dec.msgType + s.dec.msgSize.toNat) :
    decPlace b s = .ok { s with
      dec := ⟨s.dec.count, s.dec.msgType, s.dec.msgSize,
        s.dec.pay.write (s.dec.count.toNat - hdr s.dec.msgType) b⟩ } := by
  have hsize : s.dec.msgSize.toNat < 256 := s.dec.msgSize.isLt
  have hslot : s.dec.count.toNat - hdr s.dec.msgType < payMax := by
    unfold payMax
    omega
  rw [decPlace, if_neg h0, if_neg h1, if_pos hslot]

/-! ### One decode step -/

section DecStep

variable {b : Byte} {s : State} (hready : s.Ready)
include hready

theorem exec_decStep_eq : exec (.decStep b) s = outcomeOf (actDec b s) :=
  execDecStep_eq hready b

/-- A step that finds the frame complete with the values it wrote (41_codec_decode.md R144, R145). -/
theorem exec_decStep_of_complete {d : Decoder} {k : Nat} (hplace : decPlace b s = .ok { s with dec := d, draws := k })
    (h : frameComplete d.count d.msgType d.msgSize = true) :
    exec (.decStep b) s = .next { s.delivered d.msgType d.msgSize d.pay with draws := k } := by
  rw [exec_decStep_eq hready, actDec_ok hplace, decFinish_of_complete h]
  exact congrArg _ (s.delivered_after d s.result k _ _ _)

/-- A step that finds the frame incomplete (41_codec_decode.md R146). -/
theorem exec_decStep_of_more {d : Decoder} {k : Nat} (hplace : decPlace b s = .ok { s with dec := d, draws := k })
    (h : ¬frameComplete d.count d.msgType d.msgSize = true) :
    exec (.decStep b) s = .next
      { s with dec := ⟨d.count.succ, d.msgType, d.msgSize, d.pay⟩, result := .more, draws := k } := by
  rw [exec_decStep_eq hready, actDec_ok hplace, decFinish, if_neg h, outcomeOf_ok]

/-- A `NO_DATA` type byte is a whole frame (41_codec_decode.md R144). -/
theorem exec_decStep_noData (h0 : s.dec.count = 0#9) (hb : classOf b = .noData) :
    exec (.decStep b) s = .next { s.delivered b 0#8 s.dec.pay with draws := s.draws + 1 } := by
  have hsize : sizeOfClass b = 0#8 := by simp [sizeOfClass, hb]
  have hplace := decPlace_typeByte b h0
  rw [hsize] at hplace
  exact exec_decStep_of_complete hready hplace ((frameComplete_iff _ _ _).mpr (.inl hb))

/-- Any other type byte starts a frame (41_codec_decode.md R146). -/
theorem exec_decStep_start (h0 : s.dec.count = 0#9) (hb : classOf b ≠ .noData) :
    exec (.decStep b) s = .next { s with
      dec := ⟨1#9, b, sizeOfClass b, s.dec.pay.allocate (sizeOfClass b).toNat s.draws⟩
      result := .more, draws := s.draws + 1 } := by
  refine exec_decStep_of_more hready (decPlace_typeByte b h0) ?_
  cases hc : classOf b with
  | noData => exact absurd hc hb
  | data1b | data2b | dataNb => simp [frameComplete_iff, hdr, sizeOfClass, hc, nplace]

theorem exec_decStep_length_zero (h1 : s.dec.count = 1#9) (hnb : classOf s.dec.msgType = .dataNb) :
    exec (.decStep 0#8) s = .next { s.delivered s.dec.msgType 0#8 s.dec.pay with draws := s.draws + 1 } :=
  exec_decStep_of_complete hready (decPlace_lengthByte 0#8 h1 hnb) (by simp [frameComplete_iff, hdr, hnb])

theorem exec_decStep_length_pos (h1 : s.dec.count = 1#9) (hnb : classOf s.dec.msgType = .dataNb) (hb : b ≠ 0#8) :
    exec (.decStep b) s = .next { s with
      dec := ⟨2#9, s.dec.msgType, b, s.dec.pay.allocate b.toNat s.draws⟩
      result := .more, draws := s.draws + 1 } := by
  refine exec_decStep_of_more hready (decPlace_lengthByte b h1 hnb) ?_
  rw [← BitVec.toNat_inj.ne] at hb
  simpa [frameComplete_iff, hdr, hnb] using hb

/-- A payload byte that is not the last (41_codec_decode.md R143, R146). -/
theorem exec_decStep_payload_more (h0 : s.dec.count ≠ 0#9)
    (h1 : ¬(s.dec.count = 1#9 ∧ classOf s.dec.msgType = .dataNb)) (hc : classOf s.dec.msgType ≠ .noData)
    (hlt : s.dec.count.toNat + 1 < hdr s.dec.msgType + s.dec.msgSize.toNat) :
    exec (.decStep b) s = .next { s with
      dec := ⟨s.dec.count.succ, s.dec.msgType, s.dec.msgSize,
        s.dec.pay.write (s.dec.count.toNat - hdr s.dec.msgType) b⟩
      result := .more } :=
  exec_decStep_of_more hready (decPlace_payloadByte b h0 h1 hlt.le)
    (mt (frameComplete_iff _ _ _).mp (not_or.mpr ⟨hc, hlt.ne⟩))

/-- The last payload byte (41_codec_decode.md R143 to R145). -/
theorem exec_decStep_payload_last (h0 : s.dec.count ≠ 0#9)
    (h1 : ¬(s.dec.count = 1#9 ∧ classOf s.dec.msgType = .dataNb))
    (heq : s.dec.count.toNat + 1 = hdr s.dec.msgType + s.dec.msgSize.toNat) :
    exec (.decStep b) s = .next (s.delivered s.dec.msgType s.dec.msgSize
      (s.dec.pay.write (s.dec.count.toNat - hdr s.dec.msgType) b)) := by
  have hstep := exec_decStep_of_complete hready (decPlace_payloadByte b h0 h1 heq.le)
    ((frameComplete_iff _ _ _).mpr (.inr heq))
  exact hstep.trans (congrArg _ (s.delivered_same_draws _ _ _))

end DecStep

/-- Settles O17: the frame has no byte but its type byte. -/
theorem noDataTypeByteCompletes : Obligations.NoDataTypeByteCompletes := by
  intro b s hready h0 hb
  rw [exec_decStep_noData hready h0 ((classOf_eq_noData_iff b).mpr hb)]
  refine ⟨fun hroom => ⟨Decoder.message ⟨0#9, b, 0#8, s.dec.pay⟩, rfl, rfl, rfl, ?_⟩, fun hfull => ?_⟩
  · rw [State.delivered_of_not_refuses hroom]
  · rw [State.delivered_of_refuses hfull]

/-- Settles O18: the class size is allocated, and no frame of another class is complete at its type byte. -/
theorem typeByteStartsAFrame : Obligations.TypeByteStartsAFrame := by
  intro b s hready h0 hb
  have hc : classOf b ≠ .noData := mt (classOf_eq_noData_iff b).mp hb
  refine ⟨s.dec.pay.allocate (sizeOfClass b).toNat s.draws, fun a ha => ?_, ?_⟩
  · refine Memory.read_allocate_outside _ _ _ _ ?_
    rw [sizeOfClass_eq hc]
    exact le_of_eq_of_le (apply_ite BitVec.toNat _ _ _) ha
  · rw [exec_decStep_start hready h0 hc, ← sizeOfClass_eq hc]

/-- Settles O19: an NB frame is complete at its length byte exactly when that is 0. -/
theorem lengthByteSetsTheSize : Obligations.LengthByteSetsTheSize := by
  intro b s hready h1 hcode
  have hnb := (classOf_eq_dataNb_iff _).mpr hcode
  refine ⟨fun hb => ⟨s.dec.pay.allocate b.toNat s.draws, Memory.read_allocate_outside _ _ _,
    exec_decStep_length_pos hready h1 hnb hb⟩, ?_, ?_⟩
  · rintro rfl hroom
    refine ⟨Decoder.message ⟨0#9, s.dec.msgType, 0#8, s.dec.pay⟩, rfl, rfl, rfl, ?_⟩
    rw [exec_decStep_length_zero hready h1 hnb, State.delivered_of_not_refuses hroom]
  · rintro rfl hfull
    rw [exec_decStep_length_zero hready h1 hnb, State.delivered_of_refuses hfull]

/-- Settles O20: the frame is not complete, so only the slot and the cursor are written. -/
theorem payloadByteIsStored : Obligations.PayloadByteIsStored := by
  intro b s hready h0 h1 hc hlt
  rw [← classOf_eq_dataNb_iff] at h1
  rw [← hdr_eq] at hlt ⊢
  exact exec_decStep_payload_more hready h0 h1 (mt (classOf_eq_noData_iff _).mp hc) hlt

/-- Settles O21: the frame is complete, and its message is read from the buffer with the byte stored. -/
theorem lastPayloadByteDelivers : Obligations.LastPayloadByteDelivers := by
  intro b s hready h0 h1 heq
  rw [← classOf_eq_dataNb_iff] at h1
  rw [← hdr_eq] at heq ⊢
  rw [exec_decStep_payload_last hready h0 h1 heq]
  refine ⟨_, rfl, fun hroom => ⟨_, rfl, rfl, ?_, congrArg _ (State.delivered_of_not_refuses hroom _ _ _)⟩,
    fun hfull => congrArg _ (State.delivered_of_refuses hfull _ _ _)⟩
  simp [Decoder.message, Memory.readFrom_eq_map]

/-! ### A frame is its decode steps -/

theorem actDec_schedule {b : Byte} {s t : State} (h : actDec b s = .ok t) :
    t.agenda = s.agenda ∧ t.quantum = s.quantum := by
  obtain ⟨_, _, _, _, _, _, rfl⟩ := actDec_writes h
  exact ⟨rfl, rfl⟩

theorem State.owe_eq_under {s : State} (h : s.todo = []) (as : List Action) :
    s.owe as = s.under as s.agenda s.quantum := by
  simp [State.owe, State.under, h]

/-- Decode steps owed are performed one after the other, each as it is performed alone (41_codec_decode.md R147). -/
theorem runMain_decs {bytes : List Byte} {n : Nat} {s : State} (hready : s.Ready) (hn : bytes.length ≤ n) :
    outcomeOf (runMain n (s.owe (bytes.map .dec))) = Claims.decSteps bytes s := by
  induction bytes generalizing n s with
  | nil => exact congrArg outcomeOf (runMain_idle (s := s) n hready.1)
  | cons b rest ih =>
    obtain ⟨n, rfl⟩ := Nat.exists_eq_add_one.mpr (Nat.zero_lt_of_lt hn)
    have hown : ({ s.owe ((b :: rest).map .dec) with todo := rest.map .dec } : State) =
        s.under (rest.map .dec) s.agenda s.quantum := by simp [State.owe, State.under, hready.1]
    rw [runMain_succ (a := .dec b) (rest := rest.map .dec) n (by simp [hready.1]), hown, act_under, Claims.decSteps,
      exec_decStep_eq hready, act]
    cases hact : actDec b s with
    | error f => rfl
    | ok t =>
      obtain ⟨hagenda, hquantum⟩ := actDec_schedule hact
      have hidle : t.todo = [] := (actDec_todo hact).trans hready.1
      have hrest := ih (s := t) ⟨hidle, hquantum.trans hready.2⟩ (Nat.le_of_succ_le_succ hn)
      rw [State.owe_eq_under hidle, hagenda, hquantum] at hrest
      exact hrest

theorem exec_of_frame {i : Instr} {bytes : List Byte} (h : encode i = .frame bytes) (s : State) :
    exec i s = feedFrame bytes s := by
  cases i with
  | msgNoData | msgData1b | msgData2b | msgDataNb =>
    cases h
    rfl
  | _ => cases h

theorem exec_frame_eq_decSteps {i : Instr} {bytes : List Byte} {s : State} (h : encode i = .frame bytes)
    (hready : s.Ready) : exec i s = Claims.decSteps bytes s := by
  have hbound : bytes.length ≤ (s.owe (bytes.map .dec)).workBound := by
    simp [State.workBound, hready.1]
    omega
  rw [exec_of_frame h, feedFrame, invoke_of_idle hready.1, goOn,
    State.slice_none (s.owe (bytes.map .dec)) hready.2, runMain_decs hready hbound]

theorem decSteps_cons {b : Byte} {s t : State} (h : exec (.decStep b) s = .next t) (rest : List Byte) :
    Claims.decSteps (b :: rest) s = Claims.decSteps rest t := by
  rw [Claims.decSteps, h]

theorem decSteps_last {b : Byte} {s t : State} (h : exec (.decStep b) s = .next t) :
    Claims.decSteps [b] s = .next t := decSteps_cons h []

/-! ### An inbound turn -/

theorem decSteps_singleton (b : Byte) (s : State) : Claims.decSteps [b] s = exec (.decStep b) s := by
  rw [Claims.decSteps]
  cases exec (.decStep b) s <;> rfl

theorem actPop_of_empty {s : State} (h : s.inRing.startIx = s.inRing.endIx) :
    actPop s = .ok { s with result := .empty } := by
  have hempty := (Ring.isEmpty_iff s.inRing).mpr h
  simp [actPop, ringPop, hempty, State.ended]

theorem actPop_of_nonempty {s : State} (hstart : s.inRing.startIx < s.cfg.cIn)
    (h : s.inRing.startIx ≠ s.inRing.endIx) :
    actPop s = .ok (State.owe { s with
      inRing := ⟨(s.inRing.startIx + 1) % s.cfg.cIn, s.inRing.endIx, s.inRing.buf⟩ }
      [.dec (s.inRing.buf.read s.inRing.startIx)]) := by
  have hheld : s.inRing.isEmpty = false := Bool.eq_false_iff.mpr (mt (Ring.isEmpty_iff s.inRing).mp h)
  simp [actPop, ringPop, hheld, hstart, ringNext, State.setRing]

/-- Settles O23: the turn's first action is the pop; on an empty ring it owes nothing after it, and on any other the
decode step of the byte popped. -/
theorem inTurnPopsThenDecodes : Obligations.InTurnPopsThenDecodes := by
  intro s hready hstart
  have hturn : exec .inTurn s = invoke [.pop] s := rfl
  refine ⟨fun h => ?_, fun h => ?_⟩
  · rw [hturn, invoke_one hready (by simp), act, actPop_of_empty h]
    exact congrArg outcomeOf (runMain_idle (s := { s with result := .empty }) 2 hready.1)
  · rw [hturn, invoke_one hready (by simp), act, actPop_of_nonempty hstart h, ← decSteps_singleton]
    exact runMain_decs (bytes := [_]) hready (by simp)

/-! ### Between frames a frame delivers its message -/

/-- The payload bytes still to come of the frame in flight: each is stored, and the last delivers the message. -/
theorem decSteps_payload {rest : List Byte} {k : Nat} {s : State} (hready : s.Ready)
    (hc : classOf s.dec.msgType ≠ .noData) (hcount : s.dec.count.toNat = hdr s.dec.msgType + k)
    (hsize : s.dec.msgSize.toNat = k + rest.length) (hne : rest ≠ []) :
    Claims.decSteps rest s =
      .next (s.delivered s.dec.msgType s.dec.msgSize (s.dec.pay.writeFrom k rest)) := by
  induction rest generalizing k s with
  | nil => exact absurd rfl hne
  | cons b rest ih =>
    have hpos := hdr_pos s.dec.msgType
    have h0 : s.dec.count ≠ 0#9 := by
      intro h
      simp [h] at hcount
      omega
    have h1 : ¬(s.dec.count = 1#9 ∧ classOf s.dec.msgType = .dataNb) := by
      rintro ⟨h, hnb⟩
      simp [h, hdr, hnb] at hcount
      omega
    have hslot : s.dec.count.toNat - hdr s.dec.msgType = k := by omega
    rw [List.length_cons] at hsize
    cases rest with
    | nil =>
      rw [decSteps_last (exec_decStep_payload_last hready h0 h1 (by rw [hcount, hsize]; simp; omega)), hslot]
      rfl
    | cons b' rest =>
      rw [List.length_cons] at hsize
      have hsucc : (Cnt.succ s.dec.count).toNat = s.dec.count.toNat + 1 := by
        have := hdr_le s.dec.msgType
        have := s.dec.msgSize.isLt
        exact Cnt.toNat_succ (by omega)
      have hrest := ih (k := k + 1)
        (s := { s with
          dec := ⟨s.dec.count.succ, s.dec.msgType, s.dec.msgSize, s.dec.pay.write k b⟩, result := .more })
        hready hc (hsucc.trans (by rw [hcount, Nat.add_assoc])) (hsize.trans (by simp; omega)) (by simp)
      rw [decSteps_cons (exec_decStep_payload_more hready h0 h1 hc (by omega)), hslot, hrest]
      exact congrArg _ ((s.delivered_after _ .more s.draws _ _ _).trans (s.delivered_same_draws _ _ _))

/-- `o` is what a whole frame of type `t`, size `n` and payload `pay` makes of `s`: a delivery from the buffer `m` with
the payload stored in it, where `m` reads as before but in the slots allocated on the way (10_state.md R31): those of
the payload and, in an NB frame, the two of the placeholder. -/
def DeliversFrame (s : State) (t n : Byte) (pay : List Byte) (o : Host.Outcome State Fault Refusal) : Prop :=
  pay.length = n.toNat ∧ ∃ (m : Memory) (k : Nat),
    (∀ a, n.toNat ≤ a → (classOf t = .dataNb → 2 ≤ a) → m.read a = s.dec.pay.read a) ∧
    o = .next { s.delivered t n (m.writeFrom 0 pay) with draws := k }

section Frame

variable {t : Byte} {s : State} (hready : s.Ready) (h0 : s.dec.count = 0#9)
include hready h0

theorem decSteps_noData (ht : classOf t = .noData) : DeliversFrame s t 0#8 [] (Claims.decSteps [t] s) := by
  refine ⟨rfl, s.dec.pay, s.draws + 1, fun _ _ _ => rfl, ?_⟩
  rw [decSteps_singleton, exec_decStep_noData hready h0 ht]
  rfl

/-- A frame whose size is its class's: the payload follows the type byte. -/
theorem decSteps_fixed {n : Byte} {pay : List Byte} (hdata : classOf t ≠ .noData) (hhdr : hdr t = 1)
    (hsize : sizeOfClass t = n) (hlen : pay.length = n.toNat) (hne : pay ≠ []) :
    DeliversFrame s t n pay (Claims.decSteps (t :: pay) s) := by
  subst hsize
  refine ⟨hlen, s.dec.pay.allocate (sizeOfClass t).toNat s.draws, s.draws + 1,
    fun a ha _ => Memory.read_allocate_outside _ _ _ a ha, ?_⟩
  have hrest := decSteps_payload (rest := pay) (k := 0)
    (s := { s with
      dec := ⟨1#9, t, sizeOfClass t, s.dec.pay.allocate (sizeOfClass t).toNat s.draws⟩
      result := .more, draws := s.draws + 1 })
    hready hdata (by simp [hhdr]) (by simp [hlen]) hne
  rw [decSteps_cons (exec_decStep_start hready h0 hdata), hrest]
  exact congrArg _ (s.delivered_after _ _ _ _ _ _)

/-- An NB frame: the placeholder is allocated, then the size the length byte says, then the payload follows. -/
theorem decSteps_nb (hnb : classOf t = .dataNb) {len : Byte} {pay : List Byte} (hlen : pay.length = len.toNat) :
    DeliversFrame s t len pay (Claims.decSteps (t :: len :: pay) s) := by
  have hhdr : hdr t = 2 := by simp [hdr, hnb]
  have hplace : (sizeOfClass t).toNat = 2 := by simp [sizeOfClass, hnb, nplace]
  refine ⟨hlen, (s.dec.pay.allocate (sizeOfClass t).toNat s.draws).allocate len.toNat (s.draws + 1), s.draws + 2,
    fun a ha h2 => ?_, ?_⟩
  · rw [Memory.read_allocate_outside _ _ _ a ha, Memory.read_allocate_outside _ _ _ a (hplace ▸ h2 hnb)]
  rw [decSteps_cons (exec_decStep_start hready h0 (by simp [hnb]))]
  by_cases hzero : len = 0#8
  · subst hzero
    obtain rfl : pay = [] := List.length_eq_zero_iff.mp hlen
    rw [decSteps_singleton, exec_decStep_length_zero (by exact hready) rfl hnb, State.delivered_after]
    rfl
  · have hne : pay ≠ [] := by
      rintro rfl
      exact hzero (BitVec.eq_of_toNat_eq hlen.symm)
    have hrest := decSteps_payload (rest := pay) (k := 0)
      (s := { s with
        dec := ⟨2#9, t, len, (s.dec.pay.allocate (sizeOfClass t).toNat s.draws).allocate len.toNat (s.draws + 1)⟩
        result := .more, draws := s.draws + 2 })
      hready (by simp [hnb]) (by simp [hhdr]) (by simp [hlen]) hne
    rw [decSteps_cons (exec_decStep_length_pos (by exact hready) rfl hnb hzero), hrest]
    exact congrArg _ (s.delivered_after _ _ _ _ _ _)

end Frame

theorem exec_frame_delivers {i : Instr} {t n : Byte} {pay : List Byte} {s : State}
    (hfields : Claims.frameFields i = some (t, n, pay)) (hwf : i.wellFormed = true) (hready : s.Ready)
    (h0 : s.dec.count = 0#9) : DeliversFrame s t n pay (exec i s) := by
  cases i with
  | msgNoData sub =>
    cases hfields
    rw [exec_frame_eq_decSteps rfl hready]
    exact decSteps_noData hready h0 (classOf_typeByte sub .noData)
  | msgData1b sub p0 =>
    cases hfields
    rw [exec_frame_eq_decSteps rfl hready]
    exact decSteps_fixed (t := typeByte sub .data1b) hready h0 (by simp) (by simp [hdr]) (by simp [sizeOfClass]) rfl
      (by simp)
  | msgData2b sub p0 p1 =>
    cases hfields
    rw [exec_frame_eq_decSteps rfl hready]
    exact decSteps_fixed (t := typeByte sub .data2b) hready h0 (by simp) (by simp [hdr]) (by simp [sizeOfClass]) rfl
      (by simp)
  | msgDataNb sub len payload =>
    cases hfields
    rw [exec_frame_eq_decSteps rfl hready]
    exact decSteps_nb hready h0 (classOf_typeByte sub .dataNb) (beq_iff_eq.mp hwf)
  | _ => cases hfields

theorem Memory.readFrom_writeFrom (m : Memory) (i : Nat) (vs : List Byte) :
    (m.writeFrom i vs).readFrom i vs.length = vs := by
  refine List.ext_getElem (by simp [Memory.readFrom_length]) fun k _ hk => ?_
  simpa [Memory.readFrom_eq_map] using Memory.read_writeFrom_inside m vs i k hk

/-- Settles O24: a frame's bytes are owed decode steps; between frames the type and length bytes set the size and the
payload bytes fill the buffer from slot 0. -/
theorem frameDeliversItsMessage : Obligations.FrameDeliversItsMessage := by
  refine ⟨fun i bytes s => exec_frame_eq_decSteps, fun i t n pay s hfields hwf hready h0 => ?_⟩
  obtain ⟨hlen, m, k, hframe, hexec⟩ := exec_frame_delivers hfields hwf hready h0
  refine ⟨_, m.writeFrom 0 pay, k, hexec, fun j hj => ?_, fun a ha hnb => ?_, fun hroom => ?_, fun hfull => ?_⟩
  · simpa using Memory.read_writeFrom_inside m pay 0 j hj
  · rw [Memory.read_writeFrom_outside m pay 0 a (by omega)]
    exact hframe a ha (hnb ∘ (classOf_eq_dataNb_iff t).mp)
  · refine ⟨Decoder.message ⟨0#9, t, n, m.writeFrom 0 pay⟩, rfl, rfl, ?_, ?_⟩
    · show (m.writeFrom 0 pay).readFrom 0 n.toNat = pay
      rw [← hlen, Memory.readFrom_writeFrom]
    · rw [State.delivered_of_not_refuses hroom]
  · rw [State.delivered_of_refuses hfull]

end Sys2Proof.Machine

/-!
PROOF. The codec cursors and their writers (41_codec_decode.md R150; 42_codec_encode.md R172; 10_state.md R45): of the
actions only `A_DEC` writes the decoder, and only `A_ENC1` and `A_ENC3` the encoder; no other agent but `RESET` writes
either.
-/

namespace Sys2Proof.Machine

/-! ### The main context's actions -/

theorem dec_writtenOnlyBy : WrittenOnlyBy State.dec Claims.decodes where
  bookkeeping _ _ _ _ _ := rfl
  leads a b ha hab := by
    cases hab with
    | eval | pop => cases ha
    | enc1 | enc2 | err1 => rfl
  act a s t ha h := by
    cases a with
    | eval | pop | dec => cases ha
    | enc1 =>
      cases h
      exact (actEnc1_payload s).1
    | enc2 | enc3 | err1 | err2 => exact congrArg Prod.fst (inboundSideAndOutPay_writtenOnlyBy.act _ s t rfl h)

theorem enc_writtenOnlyBy : WrittenOnlyBy State.enc Claims.encodes where
  bookkeeping _ _ _ _ _ := rfl
  leads a b ha hab := by
    cases hab with
    | eval | enc1 | enc2 => cases ha
    | pop | err1 => rfl
  act a s t ha h := by
    cases a with
    | eval | enc1 | enc2 | enc3 => cases ha
    | pop | dec | err1 | err2 => exact congrArg (·.2.1) (act_outboundSide rfl h)

/-! ### The other agents -/

theorem envMove_codecs {m : EnvMove} {s t : State} (h : envMove m s = .next t) : t.dec = s.dec ∧ t.enc = s.enc := by
  cases m with
  | rx | txRdy | oqPush | iqPop | configured =>
    simp only [envMove] at h
    split at h <;> cases h
    exact ⟨rfl, rfl⟩

theorem execRxh_codecs {s t : State} (h : execRxh s = .next t) : t.dec = s.dec ∧ t.enc = s.enc := by
  obtain ⟨htaken, hact⟩ := takeHandler_eq_next h
  rcases actRxh_cases (Bool.and_eq_true_iff.mp htaken).1 hact with ⟨_, rfl⟩ | ⟨_, _, rfl⟩ <;> exact ⟨rfl, rfl⟩

theorem execTxh_codecs {s t : State} (h : execTxh s = .next t) : t.dec = s.dec ∧ t.enc = s.enc := by
  rcases actTxh_cases (takeHandler_eq_next h).2 with ⟨_, rfl⟩ | ⟨_, _, rfl⟩ <;> exact ⟨rfl, rfl⟩

theorem execStart_codecs {s t : State} (h : execStart s = .next t) : t.dec = s.dec ∧ t.enc = s.enc := by
  unfold execStart at h
  split at h
  · obtain ⟨_, hnext⟩ := whenIdle_eq_next h
    cases hnext
    exact ⟨rfl, rfl⟩
  · cases h

theorem execArbSel_codecs {s t : State} (h : execArbSel s = .next t) : t.dec = s.dec ∧ t.enc = s.enc := by
  obtain ⟨_, hnext⟩ := whenIdle_eq_next h
  cases hnext
  exact ⟨rfl, rfl⟩

theorem execRbPush_codecs {r : Dir} {b : Byte} {s t : State} (h : execRbPush r b s = .next t) :
    t.dec = s.dec ∧ t.enc = s.enc := by
  obtain ⟨p, u, hpush, rfl⟩ := execRbPush_eq_next h
  rcases ringPush_cases hpush with ⟨_, rfl, _⟩ | ⟨_, _, _, rfl⟩ <;> simp

theorem execRbPop_codecs {r : Dir} {s t : State} (h : execRbPop r s = .next t) : t.dec = s.dec ∧ t.enc = s.enc := by
  obtain ⟨o, u, hpop, rfl⟩ := execRbPop_eq_next h
  rcases ringPop_cases hpop with ⟨_, rfl, _⟩ | ⟨_, _, _, rfl⟩ <;> simp

theorem execRbClear_codecs {r : Dir} {s t : State} (h : execRbClear r s = .next t) :
    t.dec = s.dec ∧ t.enc = s.enc := by
  obtain ⟨_, hnext⟩ := whenIdle_eq_next h
  cases hnext
  simp [ringClear]

/-! ### Instructions -/

/-- An instruction that does not feed the decoder, however it is interrupted, leaves the decoder. -/
theorem exec_dec {i : Instr} {s t : State} (hreset : i ≠ .reset) (hi : Claims.feedsDecoder i = false)
    (h : exec i s = .next t) : t.dec = s.dec := by
  cases i with
  | msgNoData | msgData1b | msgData2b | msgDataNb | decStep | inTurn | resolve => cases hi
  | encStep | errReport => exact dec_writtenOnlyBy.invoke (List.forall_mem_singleton.mpr rfl) h
  | reset => exact absurd rfl hreset
  | start => exact (execStart_codecs h).1
  | rxh => exact (execRxh_codecs h).1
  | txh => exact (execTxh_codecs h).1
  | rbPush r b => exact (execRbPush_codecs h).1
  | rbPop r => exact (execRbPop_codecs h).1
  | rbClear r => exact (execRbClear_codecs h).1
  | arbSel => exact (execArbSel_codecs h).1

/-- An instruction other than `ENC_STEP` and `RESOLVE`, however it is interrupted, leaves the encoder. -/
theorem exec_enc {i : Instr} {s t : State} (hreset : i ≠ .reset) (henc : i ≠ .encStep) (hresolve : ∀ n, i ≠ .resolve n)
    (h : exec i s = .next t) : t.enc = s.enc := by
  cases i with
  | msgNoData | msgData1b | msgData2b | msgDataNb =>
    exact enc_writtenOnlyBy.invoke (List.forall_mem_map.mpr fun _ _ => rfl) h
  | decStep | inTurn | errReport => exact enc_writtenOnlyBy.invoke (List.forall_mem_singleton.mpr rfl) h
  | encStep => exact absurd rfl henc
  | resolve n => exact absurd rfl (hresolve n)
  | reset => exact absurd rfl hreset
  | start => exact (execStart_codecs h).2
  | rxh => exact (execRxh_codecs h).2
  | txh => exact (execTxh_codecs h).2
  | rbPush r b => exact (execRbPush_codecs h).2
  | rbPop r => exact (execRbPop_codecs h).2
  | rbClear r => exact (execRbClear_codecs h).2
  | arbSel => exact (execArbSel_codecs h).2

/-- Settles O51: a step without an instruction writes a codec only through its owed actions, and an instruction only by
owing them. -/
theorem codecCursorsHaveNoOtherWriter : Obligations.CodecCursorsHaveNoOtherWriter :=
  ⟨fun _ _ h hs =>
    ⟨fun howed => dec_writtenOnlyBy.step_invoking_nothing (fun _ _ _ henv => (envMove_codecs henv).1) hs howed h,
      fun howed => enc_writtenOnlyBy.step_invoking_nothing (fun _ _ _ henv => (envMove_codecs henv).2) hs howed h⟩,
    fun _ _ _ h hreset => ⟨fun hi => exec_dec hreset hi h, fun henc hresolve => exec_enc hreset henc hresolve h⟩⟩

end Sys2Proof.Machine

/-!
PROOF. The encoder, one byte at a time (42_codec_encode.md R161 to R168): what an uninterrupted `ENC_STEP` does at each
place of a message.
-/

namespace Sys2Proof.Machine

/-! ### From the byte produced to the byte sent -/

/-- The encode cursor after a byte of its message (42_codec_encode.md R167). -/
def Encoder.advanced (e : Encoder) : Encoder := { e with count := nextCount e.count e.msgType e.msgSize }

/-- What `A_ENC2` and `A_ENC3` make of a state does not depend on what `A_ENC1` writes. -/
theorem sent_after_enc1 (s : State) (e' : Encoder) (q : List Message) (k : Nat) (b : Byte) (e : Encoder) :
    Claims.sent { s with enc := e', outQ := q, draws := k } b e =
      { Claims.sent s b e with outQ := q, draws := k } := by
  simp only [Claims.sent]
  split <;> rfl

@[simp] theorem sent_fields (s : State) (b : Byte) (e : Encoder) :
    (Claims.sent s b e).cfg = s.cfg ∧
    (Claims.sent s b e).enc = e ∧
    (Claims.sent s b e).txBusy = true ∧
    (Claims.sent s b e).txIe = (if s.txBusy then s.txIe else true) ∧
    (Claims.sent s b e).todo = s.todo ∧
    (Claims.sent s b e).outQ = s.outQ ∧
    (Claims.sent s b e).quantum = s.quantum ∧
    (Claims.sent s b e).draws = s.draws := by
  unfold Claims.sent
  split <;> exact ⟨rfl, rfl, rfl, rfl, rfl, rfl, rfl, rfl⟩

theorem sent_same (s : State) (b : Byte) (e : Encoder) :
    { Claims.sent s b e with outQ := s.outQ, draws := s.draws } = Claims.sent s b e := by
  unfold Claims.sent
  split <;> rfl

theorem actEnc2_of_full (b : Byte) {s : State} (hfull : (s.outRing.endIx + 1) % s.cfg.cOut = s.outRing.startIx) :
    actEnc2 b s = .ok { s with lastError := s.cfg.errBufferFull, todo := .enc3 .full :: s.todo } := by
  have hisFull := (Ring.isFull_iff s.cfg.cOut s.outRing).mpr hfull
  simp [actEnc2, ringPush, hisFull, State.recordError, State.owe]

theorem actEnc2_of_room (b : Byte) {s : State} (hend : s.outRing.endIx < s.cfg.cOut)
    (hroom : (s.outRing.endIx + 1) % s.cfg.cOut ≠ s.outRing.startIx) :
    actEnc2 b s = .ok { s with
      outRing := ⟨s.outRing.startIx, (s.outRing.endIx + 1) % s.cfg.cOut, s.outRing.buf.write s.outRing.endIx b⟩
      todo := .enc3 .ok :: s.todo } := by
  have hnotFull := Bool.eq_false_iff.mpr (mt (Ring.isFull_iff s.cfg.cOut s.outRing).mp hroom)
  simp [actEnc2, ringPush, hnotFull, hend, State.setRing, ringNext, State.owe]

/-- The byte produced is pushed and kicked, and the cursor advanced (42_codec_encode.md R165 to R167). -/
theorem runMain_enc2 {s : State} (hidle : s.todo = []) (hend : s.outRing.endIx < s.cfg.cOut) (b : Byte) :
    runMain 2 { s with todo := [.enc2 b] } = .ok (Claims.sent s b s.enc.advanced) := by
  rw [runMain_succ (a := .enc2 b) (rest := []) 1 rfl, State.todo_nil hidle, act]
  by_cases hfull : (s.outRing.endIx + 1) % s.cfg.cOut = s.outRing.startIx
  · rw [actEnc2_of_full b hfull, Claims.sent, if_pos hfull]
    simp [runMain, act, actEnc3_eq, Encoder.advanced]
  · rw [actEnc2_of_room b hend hfull, Claims.sent, if_neg hfull]
    simp [runMain, act, actEnc3_eq, Encoder.advanced]

section EncStep

variable {s : State} (hready : s.Ready)
include hready

theorem exec_encStep_eq : exec .encStep s = outcomeOf (runMain 2 (actEnc1 s)) :=
  execEncStep_eq hready

/-- A step whose `A_ENC1` produced the byte `b`. -/
theorem exec_encStep_of_produced (hend : s.outRing.endIx < s.cfg.cOut) {e : Encoder} {q : List Message} {k : Nat}
    {b : Byte} (h : actEnc1 s = { s with enc := e, outQ := q, draws := k, todo := .enc2 b :: s.todo }) :
    exec .encStep s = .next { Claims.sent s b e.advanced with outQ := q, draws := k } := by
  have hrun := runMain_enc2 (s := { s with enc := e, outQ := q, draws := k }) hready.1 hend b
  rw [exec_encStep_eq hready, h, hready.1, ← sent_after_enc1 s e]
  exact congrArg outcomeOf hrun

/-- Nothing in flight and nothing queued (42_codec_encode.md R161). -/
theorem exec_encStep_noMessage (h0 : s.enc.count = 0#9) (hq : s.outQ = []) :
    exec .encStep s = .next { s with result := .noByte } := by
  have hact : actEnc1 s = { s with result := .noByte } := by
    simp [actEnc1, queuePop, h0, hq, State.ended]
  rw [exec_encStep_eq hready, hact, runMain_idle 2 (by exact hready.1), outcomeOf_ok]

/-- The oldest queued message is loaded, and its type byte sent (42_codec_encode.md R162). -/
theorem exec_encStep_typeByte {m : Message} {q : List Message} (h0 : s.enc.count = 0#9) (hq : s.outQ = m :: q)
    (hend : s.outRing.endIx < s.cfg.cOut) :
    exec .encStep s = .next { Claims.sent s m.type (s.enc.load m).advanced with outQ := q } := by
  have hact : actEnc1 s = { s with enc := s.enc.load m, outQ := q, todo := .enc2 m.type :: s.todo } := by
    simp [actEnc1, queuePop, h0, hq, State.setQueue, State.owe]
  simpa using exec_encStep_of_produced (k := s.draws) hready hend hact

/-- The size of an NB message is sent (42_codec_encode.md R163). -/
theorem exec_encStep_lengthByte (h1 : s.enc.count = 1#9) (hnb : classOf s.enc.msgType = .dataNb)
    (hend : s.outRing.endIx < s.cfg.cOut) :
    exec .encStep s = .next (Claims.sent s s.enc.msgSize s.enc.advanced) := by
  have hact : actEnc1 s = { s with todo := .enc2 s.enc.msgSize :: s.todo } := by
    rw [actEnc1, if_neg (by simp [h1]), if_pos ⟨h1, hnb⟩]
    rfl
  rw [exec_encStep_of_produced hready hend hact, sent_same]

section PayloadByte

variable (h0 : s.enc.count ≠ 0#9) (h1 : ¬(s.enc.count = 1#9 ∧ classOf s.enc.msgType = .dataNb))
  (hend : s.outRing.endIx < s.cfg.cOut)
include h0 h1 hend

/-- A byte of the payload the message owns is sent (42_codec_encode.md R164). -/
theorem exec_encStep_payloadByte (hown : s.enc.count.toNat - hdr s.enc.msgType < s.enc.plen.toNat) :
    exec .encStep s = .next
      (Claims.sent s (s.enc.pay.read (s.enc.count.toNat - hdr s.enc.msgType)) s.enc.advanced) := by
  have hact : actEnc1 s =
      { s with todo := .enc2 (s.enc.pay.read (s.enc.count.toNat - hdr s.enc.msgType)) :: s.todo } := by
    rw [actEnc1, if_neg h0, if_neg h1, if_pos hown]
    rfl
  rw [exec_encStep_of_produced hready hend hact, sent_same]

/-- Past the payload a free byte is drawn and sent (42_codec_encode.md R164; decision D18). -/
theorem exec_encStep_overRead (hpast : s.enc.plen.toNat ≤ s.enc.count.toNat - hdr s.enc.msgType) :
    exec .encStep s = .next
      { Claims.sent s (Config.anyByte s.draws) s.enc.advanced with draws := s.draws + 1 } := by
  have hact : actEnc1 s =
      { s with draws := s.draws + 1, todo := .enc2 (Config.anyByte s.draws) :: s.todo } := by
    rw [actEnc1, if_neg h0, if_neg h1, if_neg hpast.not_gt]
    rfl
  simpa using exec_encStep_of_produced (q := s.outQ) hready hend hact

end PayloadByte

end EncStep

/-! ### The fields of a type byte, and the cursor -/

/-- The re-derived size is `type[7:6]` (30_encoding.md R99; decision D2). -/
theorem toNat_resize (t : Byte) : (resize t).toNat = t.toNat / 64 := by
  rw [resize, resizeShift, BitVec.toNat_ushiftRight, Nat.shiftRight_eq_div_pow]

theorem resize_eq (t : Byte) : resize t = BitVec.ofNat 8 (t.toNat / 64) := by
  rw [← toNat_resize, BitVec.ofNat_toNat, BitVec.setWidth_eq]

theorem Encoder.load_msgSize (e : Encoder) (m : Message) :
    (e.load m).msgSize =
      if m.type.extractLsb' 0 2 = 0b11#2 then m.size else BitVec.ofNat 8 (m.type.toNat / 64) := by
  simp only [Encoder.load, classOf_eq_dataNb_iff, resize_eq]

/-- A message is finished at its type byte when it is `NO_DATA`, or of another fixed class with nothing to send
(42_codec_encode.md R167). -/
theorem Encoder.advanced_load_count {e : Encoder} (h0 : e.count = 0#9) (m : Message) :
    (e.load m).advanced.count =
      if m.type.extractLsb' 0 2 = 0b00#2 ∨ (m.type.extractLsb' 0 2 ≠ 0b11#2 ∧ m.type.toNat / 64 = 0)
      then 0#9 else 1#9 := by
  have hsucc : (e.load m).count.succ = 1#9 := congrArg Cnt.succ h0
  have hdone : frameComplete (e.load m).count (e.load m).msgType (e.load m).msgSize = true ↔
      m.type.extractLsb' 0 2 = 0b00#2 ∨ (m.type.extractLsb' 0 2 ≠ 0b11#2 ∧ m.type.toNat / 64 = 0) := by
    rw [frameComplete_iff, classOf_eq_noData_iff, Encoder.load_msgSize, Encoder.load, h0, hdr_eq]
    by_cases hnb : m.type.extractLsb' 0 2 = 0b11#2
    · simp [hnb]
      omega
    · rw [if_neg hnb, if_neg hnb, ← resize_eq, toNat_resize]
      simp [hnb]
  simp only [Encoder.advanced, nextCount, hdone, hsucc]

/-- The completion test in flight (42_codec_encode.md R167). -/
theorem Encoder.advanced_count {e : Encoder} (hdata : classOf e.msgType ≠ .noData) :
    e.advanced.count =
      if e.count.toNat + 1 = hdr e.msgType + e.msgSize.toNat then 0#9 else e.count + 1#9 := by
  simp [Encoder.advanced, nextCount, frameComplete_iff, hdata, Cnt.succ]

/-! ### The statements, byte by byte -/

/-- Settles O25: `A_ENC1` finds nothing to send and owes nothing. -/
theorem encStepWithoutMessageDoesNothing : Obligations.EncStepWithoutMessageDoesNothing :=
  fun _ hready h0 hq => exec_encStep_noMessage hready h0 hq

/-- Settles O26: the message loaded at cursor 0, with the size the load gives it. -/
theorem encStepSendsTheTypeByte : Obligations.EncStepSendsTheTypeByte := by
  intro s m q hready h0 hq hend
  rw [exec_encStep_typeByte hready h0 hq hend, ← Encoder.advanced_load_count h0, ← Encoder.load_msgSize s.enc]
  rfl

/-- Settles O27: at cursor 1 an NB message is complete exactly when its size is 0. -/
theorem encStepSendsTheLengthByte : Obligations.EncStepSendsTheLengthByte := by
  intro s hready h1 hcode hend
  have hnb := (classOf_eq_dataNb_iff _).mpr hcode
  have hcount : s.enc.advanced.count = if s.enc.msgSize = 0#8 then 0#9 else 2#9 := by
    have hzero : s.enc.msgSize = 0#8 ↔ s.enc.msgSize.toNat = 0 := BitVec.toNat_inj.symm
    simp [Encoder.advanced_count, hnb, h1, hdr, hzero]
  rw [exec_encStep_lengthByte hready h1 hnb hend, ← hcount]
  rfl

/-- Settles O28: past the header the byte is the payload's own, or a free one where the payload has none. -/
theorem encStepSendsAPayloadByte : Obligations.EncStepSendsAPayloadByte := by
  intro s hready h0 h1 hdata hend h e hh he
  rw [← classOf_eq_dataNb_iff] at h1
  have hadvanced : e = s.enc.advanced := by
    rw [he, hh, ← hdr_eq, ← Encoder.advanced_count (mt (classOf_eq_noData_iff _).mp hdata)]
    rfl
  subst hadvanced
  rw [hh, ← hdr_eq]
  exact ⟨exec_encStep_payloadByte hready h0 h1 hend, exec_encStep_overRead hready h0 h1 hend⟩

end Sys2Proof.Machine

/-!
PROOF. A whole message (42_codec_encode.md R170): from between messages the encoder's steps append the wire image of
the oldest queued message to the outbound ring, byte after byte.
-/

namespace Sys2Proof.Machine

/-! ### The frame in flight -/

/-- The bytes of the frame in flight, as the encode cursor counts them: the type byte; the size for NB; the payload
(42_codec_encode.md R162 to R164). -/
def Encoder.image (e : Encoder) : List Byte :=
  e.msgType :: ((if classOf e.msgType = .dataNb then [e.msgSize] else []) ++ e.pay.readFrom 0 e.msgSize.toNat)

theorem Encoder.image_length (e : Encoder) : e.image.length = hdr e.msgType + e.msgSize.toNat := by
  by_cases hnb : classOf e.msgType = .dataNb
  · simp [Encoder.image, hnb, hdr, Memory.readFrom_length]
    omega
  · simp [Encoder.image, hnb, hdr_eq, ← classOf_eq_dataNb_iff, Memory.readFrom_length, Nat.add_comm]

theorem Encoder.wf.advanced {e : Encoder} (he : e.wf) : e.advanced.wf := he.advance

@[simp] theorem Encoder.advanced_image (e : Encoder) : e.advanced.image = e.image := rfl

theorem Encoder.image_lengthByte {e : Encoder} (hnb : classOf e.msgType = .dataNb) (h : 1 < e.image.length) :
    e.image[1] = e.msgSize := by
  simp [Encoder.image, hnb]

theorem Encoder.image_payloadByte {e : Encoder} {k : Nat} (hk : hdr e.msgType ≤ k) (h : k < e.image.length) :
    e.image[k] = e.pay.read (k - hdr e.msgType) := by
  obtain ⟨j, rfl⟩ := Nat.exists_eq_add_of_le hk
  by_cases hnb : classOf e.msgType = .dataNb
  · have hhdr : hdr e.msgType = 2 := by simp [hdr, hnb]
    simp [Encoder.image, hnb, hhdr, Memory.readFrom_eq_map, Nat.add_comm 2]
  · have hhdr : hdr e.msgType = 1 := by simp [hdr_eq, ← classOf_eq_dataNb_iff, hnb]
    simp [Encoder.image, hnb, hhdr, Memory.readFrom_eq_map, Nat.add_comm 1]

theorem hdr_le_cursor {count : Cnt} {t : Byte} (h0 : count ≠ 0#9) (h1 : ¬(count = 1#9 ∧ classOf t = .dataNb)) :
    hdr t ≤ count.toNat := by
  have hpos := Cnt.toNat_pos h0
  have hle := hdr_le t
  by_contra hlt
  have hone : count.toNat = 1 := by omega
  exact h1 ⟨BitVec.eq_of_toNat_eq hone, classOf_eq_dataNb_of_two_le_hdr (by omega)⟩

theorem Encoder.wf.count_lt_image {e : Encoder} (he : e.wf) : e.count.toNat < e.image.length := by
  rw [Encoder.image_length]
  exact ((Encoder.wf_iff e).mp he).1

/-- The bytes still to send of the frame in flight. -/
def Encoder.toSend (e : Encoder) : List Byte := if e.count = 0#9 then [] else e.image.drop e.count.toNat

/-- A message in flight has bytes after its header, and owns those of its payload that are sent. -/
def Encoder.OwnsItsBytes (e : Encoder) : Prop :=
  e.count ≠ 0#9 → classOf e.msgType ≠ .noData ∧ e.msgSize.toNat ≤ e.plen.toNat

/-- The byte at the cursor, then what is to send once the cursor has advanced. -/
theorem Encoder.wf.drop_image {e : Encoder} (he : e.wf) (hdata : classOf e.msgType ≠ .noData) :
    e.image.drop e.count.toNat = e.image[e.count.toNat]'he.count_lt_image :: e.advanced.toSend := by
  have hlt := he.count_lt_image
  have hlen := e.image_length
  rw [List.drop_eq_getElem_cons hlt, Encoder.toSend, Encoder.advanced_count hdata, Encoder.advanced_image]
  by_cases hlast : e.count.toNat + 1 = hdr e.msgType + e.msgSize.toNat
  · rw [if_pos hlast, if_pos rfl, List.drop_of_length_le (by omega)]
  · have hhdr := hdr_le e.msgType
    have hsize := e.msgSize.isLt
    have hsucc : (e.count + 1#9).toNat = e.count.toNat + 1 := Cnt.toNat_succ (by omega)
    have hne : e.count + 1#9 ≠ 0#9 := fun h => by simp [h] at hsucc
    rw [if_neg hlast, if_neg hne, hsucc]

/-- After the type byte the encoder sends the byte of the frame its cursor stands at. -/
theorem exec_encStep_inFlight {s : State} (hready : s.Ready) (hs : s.Inv) (h0 : s.enc.count ≠ 0#9)
    (hown : s.enc.msgSize.toNat ≤ s.enc.plen.toNat) :
    exec .encStep s = .next
      (Claims.sent s (s.enc.image[s.enc.count.toNat]'hs.enc.count_lt_image) s.enc.advanced) := by
  have hend := hs.outRing.2.1
  by_cases h1 : s.enc.count = 1#9 ∧ classOf s.enc.msgType = .dataNb
  · obtain ⟨h1, hnb⟩ := h1
    simp [exec_encStep_lengthByte hready h1 hnb hend, h1, Encoder.image_lengthByte hnb]
  · have hhdr := hdr_le_cursor h0 h1
    have hlt := hs.enc.count_lt_image
    have hlen := s.enc.image_length
    rw [exec_encStep_payloadByte hready h0 h1 hend (by omega), Encoder.image_payloadByte hhdr hlt]

/-! ### Bytes appended to the outbound ring -/

@[simp] theorem Ring.bytes_length (c : Nat) (r : Ring) : (r.bytes c).length = r.count c := by
  simp [Ring.bytes]

/-- From `s` to `t` the main context has appended `bs` to the outbound ring and kicked the transmitter, and recorded no
error. -/
structure Appends (bs : List Byte) (s t : State) : Prop where
  inv : t.Inv
  ready : t.Ready
  cfg : t.cfg = s.cfg
  bytes : t.outRing.bytes s.cfg.cOut = s.outRing.bytes s.cfg.cOut ++ bs
  lastError : t.lastError = s.lastError
  txIe : t.txIe = true

theorem Appends.nil {s : State} (hs : s.Inv) (hready : s.Ready) (hkicked : s.txIe = true) : Appends [] s s :=
  ⟨hs, hready, rfl, (List.append_nil _).symm, rfl, hkicked⟩

theorem Appends.trans {bs cs : List Byte} {s u t : State} (h : Appends bs s u) (h' : Appends cs u t) :
    Appends (bs ++ cs) s t where
  inv := h'.inv
  ready := h'.ready
  cfg := h'.cfg.trans h.cfg
  bytes := by
    have hbytes := h'.bytes
    rw [h.cfg, h.bytes] at hbytes
    rw [hbytes, List.append_assoc]
  lastError := h'.lastError.trans h.lastError
  txIe := h'.txIe

theorem Appends.dequeued {bs : List Byte} {s t : State} (h : Appends bs s t) (q : List Message) :
    Appends bs s { t with outQ := q } :=
  { h with inv := { h.inv with } }

theorem Appends.count {bs : List Byte} {s t : State} (h : Appends bs s t) :
    t.outRing.count s.cfg.cOut = s.outRing.count s.cfg.cOut + bs.length := by
  simpa using congrArg List.length h.bytes

/-- Room for all the bytes to append leaves room for those still to append. -/
theorem Appends.room {bs cs : List Byte} {s t : State} (h : Appends bs s t)
    (hroom : s.outRing.count s.cfg.cOut + (bs ++ cs).length ≤ s.cfg.cOut - 1) :
    t.outRing.count t.cfg.cOut + cs.length ≤ t.cfg.cOut - 1 := by
  rw [h.cfg, h.count, Nat.add_assoc, ← List.length_append]
  exact hroom

/-- With room in the ring the byte sent is appended. -/
theorem appends_sent {s : State} (hs : s.Inv) (hready : s.Ready)
    (hroom : s.outRing.count s.cfg.cOut < s.cfg.cOut - 1) {e : Encoder} (he : e.wf) (b : Byte) :
    Appends [b] s (Claims.sent s b e) := by
  have hnotFull : ¬(s.outRing.endIx + 1) % s.cfg.cOut = s.outRing.startIx :=
    mt hs.outRing.full_iff_count.mp hroom.ne
  have hkicked : (if s.txBusy then s.txIe else true) = true := by simp [← hs.busy]
  rw [Claims.sent, if_neg hnotFull]
  exact {
    inv := { hs with outRing := hs.outRing.produce b, enc := he, busy := hkicked.symm }
    ready := hready
    cfg := rfl
    bytes := hs.outRing.bytes_produce hnotFull b
    lastError := rfl
    txIe := hkicked }

/-! ### The rest of a message, and the whole -/

theorem encSteps_succ {s u : State} (h : exec .encStep s = .next u) (n : Nat) :
    Claims.encSteps (n + 1) s = Claims.encSteps n u := by
  rw [Claims.encSteps, h]

/-- In flight a step appends the first of the bytes still to send, and leaves the others. -/
theorem exec_encStep_appends_next {s : State} (hs : s.Inv) (hready : s.Ready) (howns : s.enc.OwnsItsBytes) {b : Byte}
    {rest : List Byte} (hrest : s.enc.toSend = b :: rest)
    (hroom : s.outRing.count s.cfg.cOut < s.cfg.cOut - 1) :
    ∃ u, exec .encStep s = .next u ∧ u.enc.toSend = rest ∧ u.enc.OwnsItsBytes ∧ u.outQ = s.outQ ∧ Appends [b] s u := by
  have h0 : s.enc.count ≠ 0#9 := fun h => by simp [Encoder.toSend, h] at hrest
  obtain ⟨hdata, hown⟩ := howns h0
  rw [Encoder.toSend, if_neg h0, hs.enc.drop_image hdata] at hrest
  obtain ⟨rfl, htail⟩ := List.cons.inj hrest
  have howns' : s.enc.advanced.OwnsItsBytes := fun _ => ⟨hdata, hown⟩
  exact ⟨_, exec_encStep_inFlight hready hs h0 hown, by simpa using htail, by simpa using howns', by simp,
    appends_sent hs hready hroom hs.enc.advanced _⟩

/-- The encoder's steps, one a byte still to send, append the rest of the frame in flight. -/
theorem encSteps_toSend {rest : List Byte} {s : State} (hrest : s.enc.toSend = rest) (hs : s.Inv) (hready : s.Ready)
    (hkicked : s.txIe = true) (howns : s.enc.OwnsItsBytes)
    (hroom : s.outRing.count s.cfg.cOut + rest.length ≤ s.cfg.cOut - 1) :
    ∃ t, Claims.encSteps rest.length s = .next t ∧ t.enc.count = 0#9 ∧ t.outQ = s.outQ ∧ Appends rest s t := by
  induction rest generalizing s with
  | nil =>
    refine ⟨s, rfl, ?_, rfl, .nil hs hready hkicked⟩
    by_contra h0
    rw [Encoder.toSend, if_neg h0, List.drop_eq_nil_iff] at hrest
    exact hrest.not_gt hs.enc.count_lt_image
  | cons b rest ih =>
    have hone : s.outRing.count s.cfg.cOut < s.cfg.cOut - 1 := by
      rw [List.length_cons] at hroom
      omega
    obtain ⟨u, hstep, hrest, howns, hq, happends⟩ := exec_encStep_appends_next hs hready howns hrest hone
    obtain ⟨t, ht, hzero, hqt, hmore⟩ := ih hrest happends.inv happends.ready happends.txIe howns (happends.room hroom)
    exact ⟨t, (encSteps_succ hstep _).trans ht, hzero, hqt.trans hq, happends.trans hmore⟩

theorem Memory.readFrom_writeFrom_take (m : Memory) (i : Nat) {vs : List Byte} {n : Nat} (hn : n ≤ vs.length) :
    (m.writeFrom i vs).readFrom i n = vs.take n := by
  refine List.ext_getElem (by simp [Memory.readFrom_length, hn]) fun k hk _ => ?_
  have hkn : k < n := by simpa [Memory.readFrom_length] using hk
  simpa [Memory.readFrom_eq_map] using Memory.read_writeFrom_inside m vs i k (by omega)

theorem Encoder.load_msgSize_toNat (e : Encoder) {m : Message} (hdata : classOf m.type ≠ .noData) :
    (e.load m).msgSize.toNat = Claims.payloadSent m := by
  cases hc : classOf m.type with
  | noData => exact absurd hc hdata
  | data1b | data2b => simp [Encoder.load, Claims.payloadSent, hc, toNat_resize]
  | dataNb => simp [Encoder.load, Claims.payloadSent, hc]

/-- The frame loaded is the wire image of its message. -/
theorem Encoder.load_image (e : Encoder) {m : Message} (hdata : classOf m.type ≠ .noData)
    (hlong : Claims.payloadSent m ≤ m.payload.length) : (e.load m).image = Claims.wireImage m := by
  rw [Encoder.image, Encoder.load_msgSize_toNat e hdata]
  by_cases hnb : classOf m.type = .dataNb <;>
    simp [Claims.wireImage, Encoder.load, hnb, Memory.readFrom_writeFrom_take, hlong]

/-- The type byte is sent by the step that loads the message; the rest of its wire image is what is then to send. -/
theorem Encoder.wf.wireImage_eq_cons {e : Encoder} (he : e.wf) (h0 : e.count = 0#9) {m : Message}
    (hlong : Claims.payloadSent m ≤ m.payload.length) :
    Claims.wireImage m = m.type :: (e.load m).advanced.toSend := by
  by_cases hdata : classOf m.type = .noData
  · have hdone : (e.load m).advanced.count = 0#9 := by
      simp [Encoder.advanced_load_count h0, (classOf_eq_noData_iff _).mp hdata]
    simp [Claims.wireImage, Claims.payloadSent, hdata, Encoder.toSend, hdone]
  · have hcount : (e.load m).count.toNat = 0 := congrArg BitVec.toNat h0
    have hdrop := (he.load h0 m).drop_image (show classOf (e.load m).msgType ≠ .noData from hdata)
    simp only [hcount, List.drop_zero] at hdrop
    rw [← e.load_image hdata hlong, hdrop]
    rfl

theorem Encoder.load_ownsItsBytes {e : Encoder} (h0 : e.count = 0#9) {m : Message}
    (hlong : Claims.payloadSent m ≤ m.payload.length) : (e.load m).advanced.OwnsItsBytes := by
  intro hmore
  have hdata : classOf m.type ≠ .noData := fun hno =>
    hmore (by simp [Encoder.advanced_load_count h0, (classOf_eq_noData_iff _).mp hno])
  have hplen : (e.load m).plen.toNat = m.payload.length :=
    BitVec.toNat_ofNat .. ▸ Nat.mod_eq_of_lt (Nat.lt_succ_of_le m.payload_le)
  exact ⟨hdata, ((e.load_msgSize_toNat hdata).trans_le hlong).trans_eq hplen.symm⟩

/-- Between messages a step appends the type byte of the oldest one queued, and leaves the rest of its wire image. -/
theorem exec_encStep_appends_type {s : State} {m : Message} {q : List Message} (hs : s.Inv) (hready : s.Ready)
    (h0 : s.enc.count = 0#9) (hq : s.outQ = m :: q) (hlong : Claims.payloadSent m ≤ m.payload.length)
    (hroom : s.outRing.count s.cfg.cOut < s.cfg.cOut - 1) :
    ∃ u, exec .encStep s = .next u ∧ Claims.wireImage m = m.type :: u.enc.toSend ∧ u.enc.OwnsItsBytes ∧ u.outQ = q ∧
      Appends [m.type] s u :=
  ⟨_, exec_encStep_typeByte hready h0 hq hs.outRing.2.1, by simpa using hs.enc.wireImage_eq_cons h0 hlong,
    by simpa using Encoder.load_ownsItsBytes h0 hlong, rfl,
    (appends_sent hs hready hroom (hs.enc.load h0 m).advanced m.type).dequeued q⟩

/-- Settles O30: the step that loads the message sends its type byte, and the steps after it the rest of its frame. -/
theorem encoderSendsTheWireImage : Obligations.EncoderSendsTheWireImage := by
  intro s m q hs hready h0 hq hlong hroom
  have hone : s.outRing.count s.cfg.cOut < s.cfg.cOut - 1 := by
    rw [Claims.wireImage, List.length_cons] at hroom
    omega
  obtain ⟨u, hstep, himage, howns, hqu, happends⟩ := exec_encStep_appends_type hs hready h0 hq hlong hone
  rw [himage] at hroom ⊢
  obtain ⟨t, ht, hzero, hqt, hmore⟩ :=
    encSteps_toSend rfl happends.inv happends.ready happends.txIe howns (happends.room hroom)
  have hall := happends.trans hmore
  exact ⟨t, (encSteps_succ hstep _).trans ht, hzero, hqt.trans hqu, hall.bytes, hall.lastError,
    hall.inv.busy.trans hall.txIe, hall.txIe⟩

end Sys2Proof.Machine

/-!
PROOF. The restricted round trip (42_codec_encode.md R170; conflict C2): the bytes sent are the frame of the message
exactly when as many payload bytes are sent as the message has, which is when its class and `type[7:6]` agree.
-/

namespace Sys2Proof.Machine

/-- The bytes of the frame with a type, a size and a payload (30_encoding.md R93). -/
def frameBytes (t n : Byte) (pay : List Byte) : List Byte :=
  t :: ((if classOf t = .dataNb then [n] else []) ++ pay)

theorem encode_of_frameFields {i : Instr} {t n : Byte} {pay : List Byte}
    (h : Claims.frameFields i = some (t, n, pay)) : encode i = .frame (frameBytes t n pay) := by
  have hbytes (sub : BitVec 6) (c : SizeClass) : frameBytes (typeByte sub c) n pay =
      typeByte sub c :: ((if c = .dataNb then [n] else []) ++ pay) := by simp [frameBytes]
  cases i with
  | msgNoData sub =>
    cases h
    exact congrArg CodeWord.frame (hbytes sub .noData).symm
  | msgData1b sub p0 =>
    cases h
    exact congrArg CodeWord.frame (hbytes sub .data1b).symm
  | msgData2b sub p0 p1 =>
    cases h
    exact congrArg CodeWord.frame (hbytes sub .data2b).symm
  | msgDataNb sub len payload =>
    cases h
    exact congrArg CodeWord.frame (hbytes sub .dataNb).symm
  | _ => cases h

/-- A message whose size is its payload's length and, for the fixed classes, its class's is carried by a frame. -/
theorem exists_frame {t n : Byte} {pay : List Byte} (hlen : pay.length = n.toNat)
    (hsize : classOf t = .dataNb ∨ n.toNat = (codeOfClass (classOf t)).toNat) :
    ∃ i, i.wellFormed = true ∧ Claims.frameFields i = some (t, n, pay) := by
  have hn (k : Byte) (h : n.toNat = k.toNat) : n = k := BitVec.eq_of_toNat_eq h
  obtain ⟨sub, c, rfl⟩ : ∃ sub c, t = typeByte sub c := ⟨_, _, (typeByte_subtypeOf t).symm⟩
  rw [classOf_typeByte] at hsize
  cases c with
  | noData =>
    obtain rfl := hn 0#8 (hsize.resolve_left nofun)
    obtain rfl := List.length_eq_zero_iff.mp hlen
    exact ⟨.msgNoData sub, rfl, rfl⟩
  | data1b =>
    obtain rfl := hn 1#8 (hsize.resolve_left nofun)
    obtain ⟨p0, rfl⟩ := List.length_eq_one_iff.mp hlen
    exact ⟨.msgData1b sub p0, rfl, rfl⟩
  | data2b =>
    obtain rfl := hn 2#8 (hsize.resolve_left nofun)
    obtain ⟨p0, p1, rfl⟩ := List.length_eq_two.mp hlen
    exact ⟨.msgData2b sub p0 p1, rfl, rfl⟩
  | dataNb => exact ⟨.msgDataNb sub n pay, beq_iff_eq.mpr hlen, rfl⟩

/-- The bytes that decode to a frame carrying such a message are the frame's own, since decoding and encoding are each
other's inverse. -/
theorem decodes_to_frame_iff {t n : Byte} {pay : List Byte} (hlen : pay.length = n.toNat)
    (hsize : classOf t = .dataNb ∨ n.toNat = (codeOfClass (classOf t)).toNat) (bytes : List Byte) :
    (∃ i, decode (.frame bytes) = .ok i ∧ Claims.frameFields i = some (t, n, pay)) ↔ bytes = frameBytes t n pay := by
  constructor
  · rintro ⟨i, hdec, hfields⟩
    have hbytes := (decodedWordsAreTheEncoding _ _ hdec).2
    exact CodeWord.frame.inj (hbytes.symm.trans (encode_of_frameFields hfields))
  · rintro rfl
    obtain ⟨i, hwf, hfields⟩ := exists_frame hlen hsize
    exact ⟨i, encode_of_frameFields hfields ▸ decodeOfEncodeIsTheInstruction i hwf, hfields⟩

theorem take_append_eq_self_iff {α : Type} {l extra : List α} {n : Nat} (h : extra.length = n - l.length) :
    l.take n ++ extra = l ↔ n = l.length := by
  constructor
  · intro heq
    have hlen := congrArg List.length heq
    rw [List.length_append, List.length_take] at hlen
    omega
  · rintro rfl
    obtain rfl : extra = [] := List.length_eq_zero_iff.mp (by omega)
    simp

/-- As many payload bytes are sent as the message has exactly when class and `type[7:6]` agree (42_codec_encode.md
R170; conflict C2). -/
theorem payloadSent_eq_length_iff {m : Message} (hlen : m.payload.length = m.size.toNat)
    (hsize : classOf m.type = .dataNb ∨ m.size.toNat = (codeOfClass (classOf m.type)).toNat) :
    Claims.payloadSent m = m.payload.length ↔
      classOf m.type = .noData ∨ classOf m.type = .dataNb ∨
        m.type.toNat / 64 = (codeOfClass (classOf m.type)).toNat := by
  rw [hlen]
  cases hc : classOf m.type with
  | noData =>
    rw [hc] at hsize
    have hzero : m.size.toNat = 0 := hsize.resolve_left nofun
    simp [Claims.payloadSent, hc, hzero]
  | data1b | data2b =>
    rw [hc] at hsize
    simp [Claims.payloadSent, hc, hsize.resolve_left nofun]
  | dataNb => simp [Claims.payloadSent, hc]

/-- Settles O31: the bytes sent are the frame's exactly when the payload is sent as it is, no byte less and no byte
more. -/
theorem roundTripHoldsExactlyWhenSizesAgree : Obligations.RoundTripHoldsExactlyWhenSizesAgree := by
  intro m extra hlen hsize hextra
  have hcode : codeOfClass (classOf m.type) = m.type.extractLsb' 0 2 := codeOfClass_classOfCode _
  rw [← classOf_eq_dataNb_iff, ← hcode] at hsize
  rw [← classOf_eq_noData_iff, ← classOf_eq_dataNb_iff, ← hcode, decodes_to_frame_iff hlen hsize,
    ← payloadSent_eq_length_iff hlen hsize, ← take_append_eq_self_iff hextra]
  simp [Claims.wireImage, frameBytes]

end Sys2Proof.Machine

/-!
PROOF. No lost wake-up (42_codec_encode.md R171): a byte in the outbound ring has the transmit interrupt enabled, but
between the push of `A_ENC2` and the kick of `A_ENC3` right after it.
-/

namespace Sys2Proof.Machine

/-- A byte in the outbound ring has the transmit interrupt enabled. -/
def State.Attended (s : State) : Prop := s.outRing.isEmpty = false → s.txIe = true

theorem State.Attended.noByteStranded {s : State} (h : s.Attended) : s.NoByteStranded := fun _ => h

/-- What holds of the outbound ring and the enable of one state holds of a state that has the same. -/
theorem State.Attended.of_eq {s t : State} (hs : s.Attended) (hring : t.outRing = s.outRing) (hie : t.txIe = s.txIe) :
    t.Attended := by
  rw [State.Attended, hring, hie]
  exact hs

theorem State.NoByteStranded.attended_of_idle {s : State} (hs : s.NoByteStranded) (hidle : s.todo = []) : s.Attended :=
  hs fun p => by simp [hidle]

/-! ### The main context's actions -/

/-- `A_ENC2` owes the kick for the byte it pushes, `A_ENC3` is the kick, and no other action pushes. -/
theorem act_noByteStranded {a : Action} {s t : State} (hs : s.Inv) (hbyte : (∀ p, a ≠ .enc3 p) → s.Attended)
    (h : act a s = .ok t) : t.NoByteStranded := by
  cases a with
  | eval | pop | dec | err1 | err2 =>
    have hsame := act_outboundSide rfl h
    simp only [State.outboundSide, Prod.mk.injEq] at hsame
    obtain ⟨hring, _, _, hie, _⟩ := hsame
    exact ((hbyte nofun).of_eq hring hie).noByteStranded
  | enc1 =>
    cases h
    have hbyte := hbyte nofun
    refine State.Attended.noByteStranded ?_
    rcases actEnc1_cases s with ⟨_, _, e⟩ | ⟨_, _, _, _, e⟩ | ⟨_, _, e⟩ | ⟨_, _, _, e⟩ | ⟨_, _, _, e⟩ <;> rw [e] <;>
      exact hbyte
  | enc2 b =>
    obtain ⟨⟨p, hkick⟩, _⟩ := actEnc2_stores h
    exact fun hno => absurd (by rw [hkick]; rfl) (hno p)
  | enc3 p =>
    cases h
    intro _ _
    simp [actEnc3_eq, ← hs.busy]

theorem runMain_noByteStranded {n : Nat} {s t : State} (hs : s.Inv) (hbyte : s.NoByteStranded)
    (h : runMain n s = .ok t) : t.NoByteStranded := by
  have hkeeps := runMain_keeps (P := fun u => u.Inv ∧ u.NoByteStranded)
    (fun a rest u v htodo hu hact => by
      obtain ⟨hinv, hbyte⟩ := hu
      have hrest : ({ u with todo := rest } : State).Inv := { hinv with }
      exact ⟨hrest.act hact, act_noByteStranded hrest (fun hno => hbyte (by simpa [htodo] using hno)) hact⟩)
    n ⟨hs, hbyte⟩ h
  exact hkeeps.2

theorem goOn_noByteStranded {s t : State} (hs : s.Inv) (hbyte : s.NoByteStranded) (h : goOn s = .next t) :
    t.NoByteStranded :=
  runMain_noByteStranded hs hbyte (goOn_eq_next.mp h)

theorem invoke_noByteStranded {as : List Action} {s t : State} (hs : s.Inv) (hbyte : s.NoByteStranded)
    (h : invoke as s = .next t) : t.NoByteStranded := by
  obtain ⟨hidle, hrun⟩ := invoke_eq_next h
  have hattended : (s.owe as).Attended := hbyte.attended_of_idle hidle
  have howed : (s.owe as).Inv := { hs with }
  exact runMain_noByteStranded howed hattended.noByteStranded hrun

/-! ### The other agents -/

theorem execStart_noByteStranded {s t : State} (hbyte : s.NoByteStranded) (h : execStart s = .next t) :
    t.NoByteStranded := by
  unfold execStart at h
  split at h
  · obtain ⟨_, hnext⟩ := whenIdle_eq_next h
    cases hnext
    exact hbyte
  · cases h

theorem execResolve_noByteStranded {n : Nat} {s t : State} (hs : s.Inv) (hbyte : s.NoByteStranded)
    (h : execResolve n s = .next t) : t.NoByteStranded := by
  unfold execResolve at h
  split at h
  · cases h
  · have hbudget : ({ s with budget := n } : State).Inv := { hs with }
    exact invoke_noByteStranded hbudget hbyte h

theorem execRxh_noByteStranded {s t : State} (hbyte : s.NoByteStranded) (h : execRxh s = .next t) :
    t.NoByteStranded := by
  obtain ⟨htaken, hact⟩ := takeHandler_eq_next h
  rcases actRxh_cases (Bool.and_eq_true_iff.mp htaken).1 hact with ⟨_, rfl⟩ | ⟨_, _, rfl⟩ <;> exact hbyte

/-- `TXH` runs with its interrupt enabled, and masks it only when it finds no byte. -/
theorem execTxh_noByteStranded {s t : State} (h : execTxh s = .next t) : t.NoByteStranded := by
  obtain ⟨htaken, hact⟩ := takeHandler_eq_next h
  rcases actTxh_cases hact with ⟨hempty, rfl⟩ | ⟨_, _, rfl⟩
  · exact fun _ hheld => absurd (hempty.symm.trans hheld) nofun
  · exact fun _ _ => (Bool.and_eq_true_iff.mp htaken).2

theorem execRbPush_inbound_noByteStranded {b : Byte} {s t : State} (hbyte : s.NoByteStranded)
    (h : execRbPush .inbound b s = .next t) : t.NoByteStranded := by
  obtain ⟨p, u, hpush, rfl⟩ := execRbPush_eq_next h
  rcases ringPush_cases hpush with ⟨_, rfl, _⟩ | ⟨_, _, _, rfl⟩ <;> exact hbyte

/-- A pop finds a byte only where one was attended. -/
theorem execRbPop_noByteStranded {r : Dir} {s t : State} (hbyte : s.NoByteStranded) (h : execRbPop r s = .next t) :
    t.NoByteStranded := by
  obtain ⟨o, u, hpop, rfl⟩ := execRbPop_eq_next h
  rcases ringPop_cases hpop with ⟨_, rfl, _⟩ | ⟨_, hheld, _, rfl⟩
  · exact hbyte
  · cases r with
    | inbound => exact hbyte
    | outbound => exact fun hno _ => hbyte hno hheld

theorem execRbClear_noByteStranded {r : Dir} {s t : State} (hbyte : s.NoByteStranded)
    (h : execRbClear r s = .next t) : t.NoByteStranded := by
  obtain ⟨_, hnext⟩ := whenIdle_eq_next h
  cases hnext
  cases r with
  | inbound => exact hbyte
  | outbound =>
    have hempty : (ringClear .outbound s).outRing.isEmpty = true := (Ring.isEmpty_iff _).mpr rfl
    exact fun _ hheld => absurd (hempty.symm.trans hheld) nofun

theorem envMove_noByteStranded {m : EnvMove} {s t : State} (hbyte : s.NoByteStranded) (h : envMove m s = .next t) :
    t.NoByteStranded := by
  cases m with
  | rx | txRdy | oqPush | iqPop | configured =>
    simp only [envMove] at h
    split at h <;> cases h
    exact hbyte

/-- Every instruction but `RB_PUSH OUT`, however it is interrupted. -/
theorem exec_noByteStranded {i : Instr} {s t : State} (hi : ∀ b, i ≠ .rbPush .outbound b) (hs : s.Inv)
    (hbyte : s.NoByteStranded) (h : exec i s = .next t) : t.NoByteStranded := by
  cases i with
  | msgNoData | msgData1b | msgData2b | msgDataNb | decStep | inTurn | encStep | errReport =>
    exact invoke_noByteStranded hs hbyte h
  | reset =>
    cases h
    exact fun _ hheld => nomatch hheld
  | start => exact execStart_noByteStranded hbyte h
  | resolve n => exact execResolve_noByteStranded hs hbyte h
  | rxh => exact execRxh_noByteStranded hbyte h
  | txh => exact execTxh_noByteStranded h
  | rbPush r b =>
    cases r with
    | inbound => exact execRbPush_inbound_noByteStranded hbyte h
    | outbound => exact absurd rfl (hi b)
  | rbPop r => exact execRbPop_noByteStranded hbyte h
  | rbClear r => exact execRbClear_noByteStranded hbyte h
  | arbSel =>
    obtain ⟨_, hnext⟩ := whenIdle_eq_next h
    cases hnext
    exact hbyte

/-- The word of a direct `RB_PUSH OUT` is the one the statement leaves out (30_encoding.md R104). -/
theorem decode_eq_rbPush_outbound {w : CodeWord} {b : Byte} (h : decode w = .ok (.rbPush .outbound b)) :
    w = .op 0b0101#4 (.ringByte 1#1 b) :=
  (decodedWordsAreTheEncoding w _ h).2.symm

/-- Settles O58: every agent keeps it, and between two of them the words of the one that does not are left out. -/
theorem stepsStrandNoByte : Obligations.StepsStrandNoByte := by
  intro s t hs hbyte hnoPush h
  unfold step at h
  split at h
  · have hsched : ({ s with quantum := none } : State).Inv := { hs with }
    exact goOn_noByteStranded hsched hbyte h
  · rename_i u rest hagenda
    obtain ⟨e, q⟩ := u
    have hsched : ({ s with agenda := rest, quantum := q } : State).Inv := { hs with }
    cases e with
    | invoke w =>
      simp only [runTurn, runEvent] at h
      split at h
      · rename_i i hdec
        refine exec_noByteStranded (fun b hi => hnoPush b q rest ?_) hsched hbyte h
        rw [hagenda, decode_eq_rbPush_outbound (hdec.trans (congrArg _ hi))]
      · cases h
    | env m => exact envMove_noByteStranded (s := { s with agenda := rest, quantum := q }) hbyte h
    | resume => exact goOn_noByteStranded hsched hbyte h

end Sys2Proof.Machine

/-!
PROOF. An operation run to its end, no other agent acting (43_arbiter_resolver.md R190): it is its first action and then
the rest run to its end, and what is owed after an operation runs from the state that operation ends in.
-/

namespace Sys2Proof.Machine

/-- The operation in progress run to its end, no other agent acting. -/
def State.finish (s : State) : Except Fault State := runMain s.workLeft s

theorem runMain_eq_finish {n : Nat} {s : State} (hn : s.workLeft ≤ n) : runMain n s = s.finish := by
  obtain ⟨k, rfl⟩ := Nat.exists_eq_add_of_le hn
  rw [runMain_add, State.finish]
  cases h : runMain s.workLeft s with
  | error f => rfl
  | ok t => exact runMain_idle k (runMain_todo_nil le_rfl h)

theorem State.finish_idle {s : State} (h : s.todo = []) : s.finish = .ok s := runMain_idle _ h

theorem State.finish_todo {s t : State} (h : s.finish = .ok t) : t.todo = [] := runMain_todo_nil le_rfl h

theorem State.finish_cons {s : State} {a : Action} {rest : List Action} (h : s.todo = a :: rest) :
    s.finish = (act a { s with todo := rest }).bind State.finish := by
  rw [← runMain_eq_finish (Nat.le_succ s.workLeft), runMain_succ _ h]
  cases hact : act a { s with todo := rest } with
  | error f => rfl
  | ok t =>
    have hlt : t.workLeft < s.workLeft := by simpa [State.workLeft, h] using act_workLeft_lt hact
    exact runMain_eq_finish hlt.le

theorem State.owe_one_taken {s : State} (h : s.todo = []) (a : Action) : ({ s.owe [a] with todo := [] } : State) = s :=
  State.todo_nil h

theorem State.finish_owe_one {s : State} (h : s.todo = []) (a : Action) :
    (s.owe [a]).finish = (act a s).bind State.finish := by
  rw [State.finish_cons (a := a) (rest := []) (by simp [h]), State.owe_one_taken h]

/-- A run leaves the schedule and the quantum as they are. -/
theorem runMain_schedule {n : Nat} {s t : State} (h : runMain n s = .ok t) :
    t.agenda = s.agenda ∧ t.quantum = s.quantum := by
  have hsame : s.under [] s.agenda s.quantum = s := by simp [State.under]
  have hrun := runMain_under n s (g := s.agenda) (q := s.quantum)
  rw [hsame, h] at hrun
  rw [Except.ok.inj hrun]
  exact ⟨rfl, rfl⟩

/-- What is owed after an operation runs from the state the operation ends in. -/
theorem State.finish_owe_append {s t : State} {as : List Action} (hidle : s.todo = [])
    (h : (s.owe as).finish = .ok t) (rest : List Action) : (s.owe (as ++ rest)).finish = (t.owe rest).finish := by
  obtain ⟨hagenda, hquantum⟩ := runMain_schedule h
  have hbefore : s.owe (as ++ rest) = (s.owe as).under rest s.agenda s.quantum := by
    simp [State.owe, State.under, hidle]
  have hafter : t.owe rest = t.under rest s.agenda s.quantum := by
    rw [State.owe_eq_under (State.finish_todo h), hagenda, hquantum]
    rfl
  obtain ⟨j, _, hrun⟩ := runMain_under_own h
  have hcut := hrun ((s.owe (as ++ rest)).workLeft + (t.owe rest).workLeft) rest s.agenda s.quantum
  rw [← hbefore, ← hafter, runMain_eq_finish (by omega), runMain_eq_finish (by omega)] at hcut
  exact hcut

theorem invoke_eq_finish (as : List Action) {s : State} (hready : s.Ready) :
    invoke as s = outcomeOf (s.owe as).finish := by
  rw [invoke_of_idle hready.1, goOn, State.slice_none _ (by exact hready.2),
    runMain_eq_finish (State.workLeft_le_workBound _)]

theorem finish_of_invoke {as : List Action} {s t : State} (hready : s.Ready) (h : invoke as s = .next t) :
    (s.owe as).finish = .ok t :=
  outcomeOf_eq_next.mp ((invoke_eq_finish as hready).symm.trans h)

end Sys2Proof.Machine

/-!
PROOF. The arbiter and the error report performed directly, and one evaluation of the loop (43_arbiter_resolver.md R181
to R186, R194, R195).
-/

namespace Sys2Proof.Machine

/-! ### Overlapping operations -/

theorem invoke_of_busy {s : State} (h : s.todo ≠ []) (as : List Action) : invoke as s = .refused .mainBusy :=
  whenIdle_of_busy h _

/-- Settles O39: every main-context operation but `RESET` begins by asking for an idle main context. -/
theorem overlappingOperationsAreRefused : Obligations.OverlappingOperationsAreRefused := by
  intro i s hbusy hconf ⟨hrxh, htxh⟩ hreset
  cases i with
  | msgNoData | msgData1b | msgData2b | msgDataNb | decStep | inTurn | encStep | errReport =>
    exact invoke_of_busy hbusy _
  | reset => exact absurd rfl hreset
  | start => exact (if_pos hconf).trans (whenIdle_of_busy hbusy _)
  | resolve n =>
    rw [exec, execResolve_eq_invoke n (by simp [hconf])]
    exact invoke_of_busy (s := { s with budget := n }) hbusy [.eval]
  | rxh => exact absurd rfl hrxh
  | txh => exact absurd rfl htxh
  | rbPush | rbPop | rbClear | arbSel => exact whenIdle_of_busy hbusy _

/-! ### Turn selection -/

/-- The three rules of 43_arbiter_resolver.md R183 hold of `d`, for the sampled predicates and the last direction. -/
def ChosenTurn (inEmpty outOk : Bool) (lastDir d : Dir) : Prop :=
  (inEmpty = true → d = .outbound) ∧ (inEmpty = false → outOk = false → d = .inbound) ∧
    (inEmpty = false → outOk = true → d ≠ lastDir)

theorem selectDir_chosen (inEmpty outOk : Bool) (lastDir : Dir) :
    ChosenTurn inEmpty outOk lastDir (selectDir inEmpty outOk lastDir) := by
  unfold ChosenTurn
  cases inEmpty with
  | true => simp [selectDir]
  | false =>
    cases outOk with
    | false => simp [selectDir]
    | true => cases lastDir <;> simp [selectDir]

/-- Settles O32: the direction is the one `selectDir` gives. -/
theorem arbSelFollowsTheThreeRules : Obligations.ArbSelFollowsTheThreeRules := by
  intro s hidle
  obtain ⟨hempty, hin, hboth⟩ := selectDir_chosen s.samples.inEmpty s.samples.outOk s.lastDir
  exact ⟨_, hempty, hin, hboth, whenIdle_of_idle hidle _⟩

/-! ### The error report -/

/-- `s` after an error report (43_arbiter_resolver.md R186). -/
def State.reported (s : State) : State :=
  if s.lastError = 0x00#8 then { s with result := .ok }
  else
    { s with
      outQ := if s.queueRefuses .outbound then s.outQ else s.outQ ++ [errorMessage s.lastError]
      qAnswers := s.qAnswers.tail, lastError := 0x00#8, result := .ok }

/-- The report's two actions, run to their end; in the loop they spend a unit of budget besides (R187). -/
theorem finish_actErr1 (l : Bool) {s : State} (hidle : s.todo = []) :
    (actErr1 l s).finish = .ok (s.reported.spend l) := by
  rcases actErr1_cases l s with ⟨h, e⟩ | ⟨h, hq, e⟩ | ⟨h, hq, e⟩
  · rw [e, State.reported, if_pos h, State.spend_eq]
    exact State.finish_idle hidle
  all_goals
    rw [e, State.reported, if_neg h, hq, State.spend_eq, State.finish_cons rfl, act, actErr2_eq]
    exact State.finish_idle hidle

theorem finish_err1 (l : Bool) {s : State} (hidle : s.todo = []) :
    (s.owe [.err1 l]).finish = .ok (s.reported.spend l) :=
  (State.finish_owe_one hidle _).trans (finish_actErr1 l hidle)

theorem exec_errReport_eq {s : State} (hready : s.Ready) : exec .errReport s = .next s.reported :=
  (invoke_eq_finish [.err1 false] hready).trans (congrArg outcomeOf (finish_err1 false hready.1))

/-- Settles O33: the report ends at its first action. -/
theorem errReportWithoutErrorDoesNothing : Obligations.ErrReportWithoutErrorDoesNothing := by
  intro s hready hclear
  rw [exec_errReport_eq hready, State.reported, if_pos hclear]

/-- Settles O34: the flag is cleared after either answer of the queue. -/
theorem errReportQueuesTheCodeAndClears : Obligations.ErrReportQueuesTheCodeAndClears := by
  intro s hready herr
  rw [exec_errReport_eq hready, State.reported, if_neg herr]
  refine ⟨fun hroom => ⟨errorMessage s.lastError, rfl, rfl, rfl, ?_⟩, fun hrefused => ?_⟩
  · rw [if_neg (mt (s.queueRefuses_iff .outbound).mp hroom)]
  · rw [if_pos ((s.queueRefuses_iff .outbound).mpr hrefused)]

/-! ### The samples -/

theorem State.inEmptyNow_iff (s : State) : s.inEmptyNow = true ↔ s.inRing.startIx = s.inRing.endIx :=
  s.inRing.isEmpty_iff

theorem State.outOkNow_iff (s : State) :
    s.outOkNow = true ↔
      (s.outRing.endIx + 1) % s.cfg.cOut ≠ s.outRing.startIx ∧ (s.enc.count ≠ 0#9 ∨ s.outQ ≠ []) ∧ s.txEn = true := by
  simp [State.outOkNow, State.outWorkNow, State.oqEmpty, ← Ring.isFull_iff, and_assoc]

/-- The stop condition in the terms of 43_arbiter_resolver.md R182. -/
theorem State.stopNow_iff (s : State) :
    s.stopNow = true ↔
      s.budget = 0 ∨
        (s.inRing.startIx = s.inRing.endIx ∧
          ((s.outRing.endIx + 1) % s.cfg.cOut = s.outRing.startIx ∨ (s.enc.count = 0#9 ∧ s.outQ = []) ∨
            s.txEn = false)) := by
  have hout : s.outOkNow = false ↔
      (s.outRing.endIx + 1) % s.cfg.cOut = s.outRing.startIx ∨ (s.enc.count = 0#9 ∧ s.outQ = []) ∨ s.txEn = false := by
    rw [← Bool.not_eq_true, State.outOkNow_iff]
    simp only [not_and_or, not_or, ne_eq, not_not, Bool.not_eq_true]
  simp [State.stopNow, State.inEmptyNow_iff, hout]

theorem actEval_of_stop {s : State} (h : s.stopNow = true) :
    actEval s = { s with samples := ⟨s.inEmptyNow, s.outOkNow, s.samples.dir⟩, result := .ok } := by
  rcases actEval_cases s with ⟨_, e⟩ | ⟨hgo, _⟩
  · exact e
  · rw [h] at hgo; cases hgo

theorem actEval_of_go {s : State} (h : s.stopNow = false) :
    actEval s = { s with
      samples := ⟨s.inEmptyNow, s.outOkNow, selectDir s.inEmptyNow s.outOkNow s.lastDir⟩
      lastDir := selectDir s.inEmptyNow s.outOkNow s.lastDir
      todo := turnActions (selectDir s.inEmptyNow s.outOkNow s.lastDir) ++ [.err1 true, .eval] ++ s.todo } := by
  rcases actEval_cases s with ⟨hstop, _⟩ | ⟨_, e⟩
  · rw [h] at hstop; cases hstop
  · exact e

/-! ### The first action of a `RESOLVE` -/

theorem exec_resolve_eq_finish (n : Nat) {s : State} (hready : s.Ready) (hconf : s.configured = true) :
    exec (.resolve n) s = outcomeOf (actEval { s with budget := n }).finish := by
  rw [exec, execResolve_eq_invoke n (by simp [hconf]), invoke_eq_finish [.eval] (by exact hready),
    State.finish_owe_one (s := { s with budget := n }) hready.1]
  rfl

theorem exec_resolve_of_stop {n : Nat} {s : State} (hready : s.Ready) (hconf : s.configured = true)
    (hstop : ({ s with budget := n } : State).stopNow = true) :
    exec (.resolve n) s = .next
      { s with budget := n, samples := ⟨s.inEmptyNow, s.outOkNow, s.samples.dir⟩, result := .ok } := by
  rw [exec_resolve_eq_finish n hready hconf, actEval_of_stop hstop, State.finish_idle (by exact hready.1)]
  rfl

/-- Settles O35: the first `A_EVAL` stops, and owes nothing. -/
theorem resolveStopsWithoutWork : Obligations.ResolveStopsWithoutWork := by
  intro n s hready hconf hreason
  have hstop := (State.stopNow_iff { s with budget := n }).mpr hreason
  exact ⟨s.inEmptyNow, s.outOkNow, s.inEmptyNow_iff, s.outOkNow_iff, exec_resolve_of_stop hready hconf hstop⟩

/-- The turn an `A_EVAL` that does not stop chooses. -/
def State.chosenDir (s : State) : Dir := selectDir s.inEmptyNow s.outOkNow s.lastDir

/-- `s` with the samples and `last_dir` of an iteration, and `n` units of budget. -/
def State.atTurn (n : Nat) (s : State) : State :=
  { s with budget := n, samples := ⟨s.inEmptyNow, s.outOkNow, s.chosenDir⟩, lastDir := s.chosenDir }

/-- With `n` units of budget the loop goes on exactly while there is a unit and a direction has work. -/
theorem stopNow_eq_false_iff {n : Nat} {s : State} :
    ({ s with budget := n } : State).stopNow = false ↔ n ≠ 0 ∧ (s.inEmptyNow = false ∨ s.outOkNow = true) := by
  show (n == 0 || (s.inEmptyNow && !s.outOkNow)) = false ↔ _
  cases s.inEmptyNow <;> simp

theorem actEval_eq_atTurn {n : Nat} {s : State} (hn : n ≠ 0) (hwork : s.inEmptyNow = false ∨ s.outOkNow = true) :
    actEval { s with budget := n } = (s.atTurn n).owe (turnActions s.chosenDir ++ [.err1 true, .eval]) :=
  actEval_of_go (stopNow_eq_false_iff.mpr ⟨hn, hwork⟩)

/-- The samples that the premises of a statement name are the model's own. -/
theorem State.sampled_eq {s : State} {inE outOk : Bool} (hin : inE = true ↔ s.inRing.startIx = s.inRing.endIx)
    (hout : outOk = true ↔
      (s.outRing.endIx + 1) % s.cfg.cOut ≠ s.outRing.startIx ∧ (s.enc.count ≠ 0#9 ∨ s.outQ ≠ []) ∧ s.txEn = true) :
    inE = s.inEmptyNow ∧ outOk = s.outOkNow :=
  ⟨Bool.eq_iff_iff.mpr (hin.trans s.inEmptyNow_iff.symm), Bool.eq_iff_iff.mpr (hout.trans s.outOkNow_iff.symm)⟩

/-- Settles O36: a slice of one action is the `A_EVAL` alone. -/
theorem evalSamplesAndChoosesTheTurn : Obligations.EvalSamplesAndChoosesTheTurn := by
  intro n s inE outOk hidle hquantum hconf hn hin hout hwork
  obtain ⟨rfl, rfl⟩ := s.sampled_eq hin hout
  obtain ⟨hempty, hfull, hboth⟩ := selectDir_chosen s.inEmptyNow s.outOkNow s.lastDir
  refine ⟨s.chosenDir, hempty, hfull, hboth, ?_⟩
  have hslice : (State.owe { s with budget := n } [.eval]).slice = 1 := State.slice_some _ 1 hquantum
  have howed : turnActions s.chosenDir ++ [.err1 true, .eval] =
      [if s.chosenDir = .inbound then .pop else .enc1, .err1 true, .eval] := by
    cases s.chosenDir <;> rfl
  rw [exec, execResolve_eq_invoke n (by simp [hconf]), invoke_of_idle (by exact hidle), goOn, hslice,
    runMain_succ (a := .eval) (rest := []) 0 (by simp [hidle]),
    State.owe_one_taken (s := { s with budget := n }) hidle, act, actEval_eq_atTurn hn hwork, howed]
  simp [State.owe, State.atTurn, hidle]

end Sys2Proof.Machine

/-!
PROOF. The resolver's loop (43_arbiter_resolver.md R185 to R190): a `RESOLVE` that does not stop is one turn, the error
report, and the `RESOLVE` of one unit less; so, by induction on the budget, it returns for a reason of R182.
-/

namespace Sys2Proof.Machine

/-! ### The turn finds its work -/

/-- The operation a turn performs (43_arbiter_resolver.md R185). -/
def turnInstr (d : Dir) : Instr := if d = .inbound then .inTurn else .encStep

theorem exec_turnInstr (d : Dir) (s : State) : exec (turnInstr d) s = invoke (turnActions d) s := by
  cases d <;> rfl

/-- `u` is `s` after a step of the loop that found its work (43_arbiter_resolver.md R189). -/
structure FoundWork (s u : State) : Prop where
  ready : u.Ready
  configured : u.configured = s.configured
  budget : u.budget = s.budget
  notEmpty : u.result ≠ .empty
  notNoByte : u.result ≠ .noByte
  notFull : u.result ≠ .full

/-- A decode step ends with one of its three results (41_codec_decode.md R145, R146). -/
theorem actDec_result {b : Byte} {s t : State} (h : actDec b s = .ok t) :
    t.result = .complete ∨ t.result = .rejected ∨ t.result = .more := by
  obtain ⟨u, _, rfl⟩ := actDec_cases h
  unfold decFinish
  split
  · rcases decDeliver_cases u with ⟨_, e⟩ | ⟨_, e⟩ <;> simp [e]
  · exact .inr (.inr rfl)

theorem exec_inTurn_foundWork {s : State} (hs : s.Inv) (hready : s.Ready)
    (hheld : s.inRing.startIx ≠ s.inRing.endIx) : ∃ u, exec .inTurn s = .next u ∧ FoundWork s u := by
  rw [(inTurnPopsThenDecodes s hready hs.inRing.1).2 hheld, exec_decStep_eq (by exact hready)]
  have hpopped : ({ s with
      inRing := ⟨(s.inRing.startIx + 1) % s.cfg.cIn, s.inRing.endIx, s.inRing.buf⟩ } : State).Inv :=
    { hs with inRing := hs.inRing.consume }
  obtain ⟨u, hact⟩ := act_ok (.dec (s.inRing.buf.read s.inRing.startIx)) hpopped
  have hresult := actDec_result hact
  refine ⟨u, congrArg outcomeOf hact, ?_⟩
  obtain ⟨_, _, _, _, r, _, rfl⟩ := actDec_writes hact
  obtain rfl | rfl | rfl : r = .complete ∨ r = .rejected ∨ r = .more := hresult
  all_goals exact ⟨hready, rfl, rfl, nofun, nofun, nofun⟩

/-- With a message in flight or queued `A_ENC1` produces a byte (42_codec_encode.md R161 to R164). -/
theorem actEnc1_produces {s : State} (hwork : s.enc.count ≠ 0#9 ∨ s.outQ ≠ []) :
    ∃ e q k b, actEnc1 s = { s with enc := e, outQ := q, draws := k, todo := .enc2 b :: s.todo } := by
  rcases actEnc1_cases s with ⟨h0, hq, _⟩ | ⟨_, _, _, _, e⟩ | ⟨_, _, e⟩ | ⟨_, _, _, e⟩ | ⟨_, _, _, e⟩
  · exact absurd hwork (by simp [h0, hq])
  all_goals exact ⟨_, _, _, _, e⟩

theorem exec_encStep_foundWork {s : State} (hs : s.Inv) (hready : s.Ready)
    (hroom : (s.outRing.endIx + 1) % s.cfg.cOut ≠ s.outRing.startIx) (hwork : s.enc.count ≠ 0#9 ∨ s.outQ ≠ []) :
    ∃ u, exec .encStep s = .next u ∧ FoundWork s u := by
  obtain ⟨e, q, k, b, hact⟩ := actEnc1_produces hwork
  refine ⟨_, exec_encStep_of_produced hready hs.outRing.2.1 hact, ?_⟩
  rw [Claims.sent, if_neg hroom]
  exact ⟨hready, rfl, rfl, nofun, nofun, nofun⟩

/-- Where a direction is chosen it has work (43_arbiter_resolver.md R183). -/
theorem State.chosenDir_has_work {s : State} (hwork : s.inEmptyNow = false ∨ s.outOkNow = true) :
    (s.chosenDir = .inbound → s.inRing.startIx ≠ s.inRing.endIx) ∧
    (s.chosenDir = .outbound →
      (s.outRing.endIx + 1) % s.cfg.cOut ≠ s.outRing.startIx ∧ (s.enc.count ≠ 0#9 ∨ s.outQ ≠ [])) := by
  obtain ⟨hempty, hin, _⟩ := selectDir_chosen s.inEmptyNow s.outOkNow s.lastDir
  refine ⟨fun hd hnone => ?_, fun hd => ?_⟩
  · cases hd.symm.trans (hempty (s.inEmptyNow_iff.mpr hnone))
  · have hout : s.outOkNow = true := by
      by_contra hno
      have hno := Bool.eq_false_iff.mpr hno
      cases hd.symm.trans (hin (hwork.resolve_right (by simp [hno])) hno)
    obtain ⟨hroom, hmessage, _⟩ := s.outOkNow_iff.mp hout
    exact ⟨hroom, hmessage⟩

theorem exec_turnInstr_foundWork {n : Nat} {s : State} (hs : s.Inv) (hready : s.Ready)
    (hwork : s.inEmptyNow = false ∨ s.outOkNow = true) :
    ∃ u, exec (turnInstr s.chosenDir) (s.atTurn n) = .next u ∧ FoundWork (s.atTurn n) u := by
  have hturn : (s.atTurn n).Inv := { hs with }
  obtain ⟨hin, hout⟩ := State.chosenDir_has_work hwork
  cases hd : s.chosenDir with
  | inbound => exact exec_inTurn_foundWork hturn hready (hin hd)
  | outbound => exact exec_encStep_foundWork hturn hready (hout hd).1 (hout hd).2

/-! ### One iteration -/

theorem State.reported_fields (s : State) :
    s.reported.todo = s.todo ∧ s.reported.quantum = s.quantum ∧ s.reported.configured = s.configured ∧
      s.reported.budget = s.budget := by
  unfold State.reported
  split <;> exact ⟨rfl, rfl, rfl, rfl⟩

/-- The iteration's turn, the report, and the loop again with one unit less (43_arbiter_resolver.md R185 to R188). -/
theorem exec_resolve_succ {n : Nat} {s : State} (hs : s.Inv) (hready : s.Ready) (hconf : s.configured = true)
    (hwork : s.inEmptyNow = false ∨ s.outOkNow = true) :
    ∃ u, exec (turnInstr s.chosenDir) (s.atTurn (n + 1)) = .next u ∧ FoundWork (s.atTurn (n + 1)) u ∧
      exec (.resolve (n + 1)) s = exec (.resolve n) u.reported := by
  obtain ⟨u, hturn, hfound⟩ := exec_turnInstr_foundWork (n := n + 1) hs hready hwork
  refine ⟨u, hturn, hfound, ?_⟩
  obtain ⟨htodo, hquantum, hconfigured, hbudget⟩ := u.reported_fields
  have hspent : u.reported.spend true = { u.reported with budget := n } := by
    simp [State.spend_eq, hbudget, hfound.budget, State.atTurn]
  have hidle : u.reported.todo = [] := htodo.trans hfound.ready.1
  have hstep : ((s.atTurn (n + 1)).owe (turnActions s.chosenDir)).finish = .ok u :=
    finish_of_invoke hready ((exec_turnInstr _ _).symm.trans hturn)
  calc exec (.resolve (n + 1)) s
      = outcomeOf ((s.atTurn (n + 1)).owe (turnActions s.chosenDir ++ ([.err1 true] ++ [.eval]))).finish := by
        rw [exec_resolve_eq_finish _ hready hconf, actEval_eq_atTurn (Nat.succ_ne_zero n) hwork]
        rfl
    _ = outcomeOf (u.owe ([.err1 true] ++ [.eval])).finish := by
        rw [State.finish_owe_append (by exact hready.1) hstep]
    _ = outcomeOf (State.owe { u.reported with budget := n } [.eval]).finish := by
        rw [State.finish_owe_append hfound.ready.1 (finish_err1 true hfound.ready.1), hspent]
    _ = exec (.resolve n) u.reported := by
        rw [exec_resolve_eq_finish n ⟨hidle, hquantum.trans hfound.ready.2⟩
          (hconfigured.trans (hfound.configured.trans hconf)), State.finish_owe_one (by exact hidle)]
        rfl

/-! ### The loop returns -/

theorem State.Inv.reported {s : State} (hs : s.Inv) : s.reported.Inv := by
  unfold State.reported
  split <;> exact { hs with }

theorem exec_turnInstr_inv {d : Dir} {s u : State} (hs : s.Inv) (h : exec (turnInstr d) s = .next u) : u.Inv :=
  inv_keptByAgents.exec (fun e => by cases d <;> cases e) hs h

theorem exec_resolve_returns (n : Nat) {s : State} (hs : s.Inv) (hready : s.Ready) (hconf : s.configured = true) :
    ∃ t, exec (.resolve n) s = .next t ∧ t.todo = [] ∧ t.budget ≤ n ∧ t.stopNow = true := by
  induction n generalizing s with
  | zero =>
    have hstop : ({ s with budget := 0 } : State).stopNow = true := (State.stopNow_iff _).mpr (.inl rfl)
    exact ⟨_, exec_resolve_of_stop hready hconf hstop, hready.1, le_rfl, hstop⟩
  | succ n ih =>
    by_cases hstop : ({ s with budget := n + 1 } : State).stopNow = true
    · exact ⟨_, exec_resolve_of_stop hready hconf hstop, hready.1, le_rfl, hstop⟩
    · obtain ⟨_, hwork⟩ := stopNow_eq_false_iff.mp (Bool.eq_false_iff.mpr hstop)
      obtain ⟨u, hturn, hfound, hrest⟩ := exec_resolve_succ (n := n) hs hready hconf hwork
      obtain ⟨htodo, hquantum, hconfigured, _⟩ := u.reported_fields
      have hinv : u.Inv := exec_turnInstr_inv (s := s.atTurn (n + 1)) { hs with } hturn
      obtain ⟨t, ht, hidle, hbudget, hreason⟩ := ih hinv.reported
        ⟨htodo.trans hfound.ready.1, hquantum.trans hfound.ready.2⟩
        (hconfigured.trans (hfound.configured.trans hconf))
      exact ⟨t, hrest.trans ht, hidle, hbudget.trans (Nat.le_succ n), hreason⟩

/-- Settles O37, by induction on the budget: the loop stops at once, or does one iteration and owes the rest. -/
theorem resolveReturns : Obligations.ResolveReturns := by
  intro n s hs hready hconf
  obtain ⟨t, ht, hidle, hbudget, hreason⟩ := exec_resolve_returns n hs hready hconf
  exact ⟨t, ht, hidle, hbudget, t.stopNow_iff.mp hreason⟩

end Sys2Proof.Machine

/-!
PROOF. The stale sample (43_arbiter_resolver.md R189; 20_memory.md R82): between the sample of an iteration and its step
the other agents only add to what the turn was chosen for, so the turn finds its work whoever acts in between.
-/

namespace Sys2Proof.Machine

open Claims (looksForWork TurnFindsItsWork)

/-! ### Where it holds at once -/

theorem turnFindsItsWork_of_noneLooks {s : State} (h : ∀ a ∈ s.todo, looksForWork a = false) : TurnFindsItsWork s where
  next a ha := h a (List.mem_of_mem_tail ha)
  pop _ hhead := nomatch h _ (List.mem_of_mem_head? hhead)
  enc1 _ hhead := nomatch h _ (List.mem_of_mem_head? hhead)
  enc2 _ _ hhead := nomatch h _ (List.mem_of_mem_head? hhead)

theorem turnFindsItsWork_of_idle {s : State} (h : s.todo = []) : TurnFindsItsWork s :=
  turnFindsItsWork_of_noneLooks (by simp [h])

/-- An operation of one first action is no `RESOLVE`, or has not taken its sample yet. -/
theorem turnFindsItsWork_of_one {s : State} {a : Action} (h : s.todo = [a]) : TurnFindsItsWork s := by
  by_cases hloop : a = .eval
  · exact turnFindsItsWork_of_noneLooks (by simp [h, hloop, looksForWork])
  · have hno : Action.eval ∉ s.todo := by simpa [h] using Ne.symm hloop
    exact ⟨by simp [h], fun hmem => absurd hmem hno, fun hmem => absurd hmem hno, fun _ hmem => absurd hmem hno⟩

/-- An agent that leaves the owed actions, and takes neither the inbound byte nor the outbound room nor the message. -/
theorem turnFindsItsWork_mono {s t : State} (hs : TurnFindsItsWork s) (htodo : t.todo = s.todo)
    (hheld : s.inRing.startIx ≠ s.inRing.endIx → t.inRing.startIx ≠ t.inRing.endIx)
    (hroom : (s.outRing.endIx + 1) % s.cfg.cOut ≠ s.outRing.startIx →
      (t.outRing.endIx + 1) % t.cfg.cOut ≠ t.outRing.startIx)
    (hmessage : s.enc.count ≠ 0#9 ∨ s.outQ ≠ [] → t.enc.count ≠ 0#9 ∨ t.outQ ≠ []) : TurnFindsItsWork t where
  next := htodo ▸ hs.next
  pop hloop hhead := hheld (hs.pop (htodo ▸ hloop) (htodo ▸ hhead))
  enc1 hloop hhead := (hs.enc1 (htodo ▸ hloop) (htodo ▸ hhead)).imp hroom hmessage
  enc2 b hloop hhead := hroom (hs.enc2 b (htodo ▸ hloop) (htodo ▸ hhead))

/-! ### The main context -/

/-- Only the sample leads to a look for work, and `A_ENC1` to `A_ENC2`. -/
theorem Action.LeadsTo.looksForWork {a b : Action} (h : a.LeadsTo b) (heval : a ≠ .eval) (henc1 : a ≠ .enc1) :
    looksForWork b = false := by
  cases h with
  | eval => exact absurd rfl heval
  | enc1 => exact absurd rfl henc1
  | pop | enc2 | err1 => rfl

theorem actEval_turnFindsItsWork {s : State} (hs : ∀ a ∈ s.todo, looksForWork a = false) :
    TurnFindsItsWork (actEval s) := by
  cases hstop : s.stopNow with
  | true =>
    rw [actEval_of_stop hstop]
    exact turnFindsItsWork_of_noneLooks hs
  | false =>
    obtain ⟨hn, hwork⟩ := stopNow_eq_false_iff.mp hstop
    obtain ⟨hin, hout⟩ := State.chosenDir_has_work hwork
    have hact : actEval s = (s.atTurn s.budget).owe (turnActions s.chosenDir ++ [.err1 true, .eval]) :=
      actEval_eq_atTurn hn hwork
    rw [hact]
    cases hd : s.chosenDir with
    | inbound => exact {
        next := by simpa [turnActions, State.atTurn, looksForWork] using hs
        pop := fun _ _ => hin hd
        enc1 := nofun
        enc2 := nofun }
    | outbound => exact {
        next := by simpa [turnActions, State.atTurn, looksForWork] using hs
        pop := nofun
        enc1 := fun _ _ => hout hd
        enc2 := nofun }

theorem actEnc1_turnFindsItsWork {s : State} (hs : ∀ a ∈ s.todo, looksForWork a = false)
    (hroom : .eval ∈ s.todo → (s.outRing.endIx + 1) % s.cfg.cOut ≠ s.outRing.startIx) :
    TurnFindsItsWork (actEnc1 s) := by
  obtain ⟨hring, htodo | ⟨b, htodo⟩⟩ := actEnc1_owes s
  · exact turnFindsItsWork_of_noneLooks (htodo ▸ hs)
  · exact {
      next := by simpa [htodo] using hs
      pop := by simp [htodo]
      enc1 := by simp [htodo]
      enc2 := fun _ hloop _ => by simpa [hring] using hroom (by simpa [htodo] using hloop) }

theorem act_turnFindsItsWork {a : Action} {rest : List Action} {s t : State} (htodo : s.todo = a :: rest)
    (hs : TurnFindsItsWork s) (h : act a { s with todo := rest } = .ok t) : TurnFindsItsWork t := by
  have hrest : ∀ b ∈ rest, looksForWork b = false := by simpa [htodo] using hs.next
  by_cases heval : a = .eval
  · subst heval
    cases h
    exact actEval_turnFindsItsWork hrest
  · by_cases henc1 : a = .enc1
    · subst henc1
      cases h
      refine actEnc1_turnFindsItsWork hrest fun hloop => ?_
      exact (hs.enc1 (by simp [htodo, show Action.eval ∈ rest from hloop]) (by simp [htodo])).1
    · obtain ⟨as, ht, hleads⟩ := act_leadsTo h
      refine turnFindsItsWork_of_noneLooks fun b hb => ?_
      rcases List.mem_append.mp (ht ▸ hb) with hb | hb
      · exact (hleads b hb).looksForWork heval henc1
      · exact hrest b hb

theorem goOn_turnFindsItsWork {s t : State} (hs : TurnFindsItsWork s) (h : goOn s = .next t) : TurnFindsItsWork t :=
  runMain_keeps (fun _ _ _ _ htodo hu hact => act_turnFindsItsWork htodo hu hact) _ hs (goOn_eq_next.mp h)

theorem invoke_turnFindsItsWork {as : List Action} {s t : State}
    (has : s.todo = [] → TurnFindsItsWork (s.owe as)) (h : invoke as s = .next t) : TurnFindsItsWork t := by
  obtain ⟨hidle, hgo⟩ := whenIdle_eq_next h
  exact goOn_turnFindsItsWork (has hidle) hgo

theorem invoke_one_turnFindsItsWork {a : Action} {s t : State} (h : invoke [a] s = .next t) : TurnFindsItsWork t :=
  invoke_turnFindsItsWork (fun hidle => turnFindsItsWork_of_one (a := a) (by simp [hidle])) h

theorem feedFrame_turnFindsItsWork {bytes : List Byte} {s t : State} (h : feedFrame bytes s = .next t) :
    TurnFindsItsWork t :=
  invoke_turnFindsItsWork
    (fun hidle => turnFindsItsWork_of_noneLooks (by simp [hidle, looksForWork])) h

theorem execResolve_turnFindsItsWork {n : Nat} {s t : State} (h : execResolve n s = .next t) : TurnFindsItsWork t := by
  unfold execResolve at h
  split at h
  · cases h
  · exact invoke_one_turnFindsItsWork h

/-! ### The other agents -/

/-- `RXH` adds a byte to the inbound ring, or leaves it. -/
theorem execRxh_turnFindsItsWork {s t : State} (hs : TurnFindsItsWork s) (h : execRxh s = .next t) :
    TurnFindsItsWork t := by
  obtain ⟨htaken, hact⟩ := takeHandler_eq_next h
  rcases actRxh_cases (Bool.and_eq_true_iff.mp htaken).1 hact with ⟨_, rfl⟩ | ⟨hnotFull, _, rfl⟩
  · exact turnFindsItsWork_mono hs rfl id id id
  · have hroom := mt (Ring.isFull_iff _ _).mpr (Bool.eq_false_iff.mp hnotFull)
    exact turnFindsItsWork_mono hs rfl (fun _ => Ne.symm hroom) id id

/-- The slots after two different slots of a ring differ. -/
theorem ringNext_inj {c i j : Nat} (hi : i < c) (hj : j < c) (h : ringNext c i = ringNext c j) : i = j := by
  rw [ringNext_eq c i hi, ringNext_eq c j hj] at h
  split at h <;> split at h <;> omega

/-- `TXH` takes a byte from the outbound ring, or leaves it: a pop makes no ring full. -/
theorem execTxh_turnFindsItsWork {s t : State} (hinv : s.Inv) (hs : TurnFindsItsWork s) (h : execTxh s = .next t) :
    TurnFindsItsWork t := by
  obtain ⟨hstart, hend, _⟩ := hinv.outRing
  rcases actTxh_cases (takeHandler_eq_next h).2 with ⟨_, rfl⟩ | ⟨hheld, _, rfl⟩
  · exact turnFindsItsWork_mono hs rfl id id id
  · have hne := mt (Ring.isEmpty_iff _).mpr (Bool.eq_false_iff.mp hheld)
    exact turnFindsItsWork_mono hs rfl id (fun _ hfull => hne (ringNext_inj hend hstart hfull).symm) id

/-- The environment only adds to the outbound queue. -/
theorem envMove_turnFindsItsWork {m : EnvMove} {s t : State} (hs : TurnFindsItsWork s) (h : envMove m s = .next t) :
    TurnFindsItsWork t := by
  cases m with
  | rx | txRdy | iqPop | configured =>
    simp only [envMove] at h
    split at h <;> cases h
    exact turnFindsItsWork_mono hs rfl id id id
  | oqPush =>
    simp only [envMove] at h
    split at h <;> cases h
    exact turnFindsItsWork_mono hs rfl id id (Or.imp_right fun _ => by simp)

theorem execStart_turnFindsItsWork {s t : State} (h : execStart s = .next t) : TurnFindsItsWork t := by
  unfold execStart at h
  split at h
  · obtain ⟨hidle, hnext⟩ := whenIdle_eq_next h
    cases hnext
    exact turnFindsItsWork_of_idle hidle
  · cases h

theorem execRbPush_turnFindsItsWork {r : Dir} {b : Byte} {s t : State} (h : execRbPush r b s = .next t) :
    TurnFindsItsWork t := by
  obtain ⟨hidle, _⟩ := whenIdle_eq_next h
  obtain ⟨p, u, hpush, rfl⟩ := execRbPush_eq_next h
  refine turnFindsItsWork_of_idle ?_
  rcases ringPush_cases hpush with ⟨_, rfl, _⟩ | ⟨_, _, _, rfl⟩ <;> simp [hidle]

theorem execRbPop_turnFindsItsWork {r : Dir} {s t : State} (h : execRbPop r s = .next t) : TurnFindsItsWork t := by
  obtain ⟨hidle, _⟩ := whenIdle_eq_next h
  obtain ⟨o, u, hpop, rfl⟩ := execRbPop_eq_next h
  refine turnFindsItsWork_of_idle ?_
  rcases ringPop_cases hpop with ⟨_, rfl, _⟩ | ⟨_, _, _, rfl⟩ <;> simp [hidle]

/-! ### Instructions, steps -/

theorem exec_turnFindsItsWork {i : Instr} {s t : State} (hinv : s.Inv) (hs : TurnFindsItsWork s)
    (h : exec i s = .next t) : TurnFindsItsWork t := by
  cases i with
  | msgNoData | msgData1b | msgData2b | msgDataNb => exact feedFrame_turnFindsItsWork h
  | decStep | inTurn | encStep | errReport => exact invoke_one_turnFindsItsWork h
  | reset =>
    cases h
    exact turnFindsItsWork_of_idle rfl
  | start => exact execStart_turnFindsItsWork h
  | resolve n => exact execResolve_turnFindsItsWork h
  | rxh => exact execRxh_turnFindsItsWork hs h
  | txh => exact execTxh_turnFindsItsWork hinv hs h
  | rbPush r b => exact execRbPush_turnFindsItsWork h
  | rbPop r => exact execRbPop_turnFindsItsWork h
  | rbClear r =>
    obtain ⟨hidle, hnext⟩ := whenIdle_eq_next h
    cases hnext
    exact turnFindsItsWork_of_idle (by simp [ringClear, hidle])
  | arbSel =>
    obtain ⟨hidle, hnext⟩ := whenIdle_eq_next h
    cases hnext
    exact turnFindsItsWork_of_idle hidle

theorem runEvent_turnFindsItsWork {e : Event} {s t : State} (hinv : s.Inv) (hs : TurnFindsItsWork s)
    (h : runEvent e s = .next t) : TurnFindsItsWork t := by
  cases e with
  | invoke w =>
    simp only [runEvent] at h
    split at h
    · exact exec_turnFindsItsWork hinv hs h
    · cases h
  | env m => exact envMove_turnFindsItsWork hs h
  | resume => exact goOn_turnFindsItsWork hs h

theorem step_turnFindsItsWork {s t : State} (hinv : s.Inv) (hs : TurnFindsItsWork s) (h : step s = .next t) :
    TurnFindsItsWork t := by
  have hsched (g : List Turn) (q : Option Nat) : TurnFindsItsWork { s with agenda := g, quantum := q } :=
    turnFindsItsWork_mono hs rfl id id id
  unfold step at h
  split at h
  · exact goOn_turnFindsItsWork (hsched _ none) h
  · rename_i u rest _
    have hinv' : ({ s with agenda := rest, quantum := u.quantum } : State).Inv := { hinv with }
    exact runEvent_turnFindsItsWork hinv' (hsched rest u.quantum) h

/-- Settles O60: no agent takes the work a turn was chosen for, so the turn finds it; the turn run to its end is the
operation performed alone, and what is owed after it is the report and the loop again. -/
theorem resolveIsOneIterationThenTheRest : Obligations.ResolveIsOneIterationThenTheRest := by
  refine ⟨fun s t => step_turnFindsItsWork, fun n s inE outOk hs hready hconf hin hout hwork => ?_⟩
  obtain ⟨rfl, rfl⟩ := s.sampled_eq hin hout
  obtain ⟨hempty, hfull, hboth⟩ := selectDir_chosen s.inEmptyNow s.outOkNow s.lastDir
  obtain ⟨u, hturn, hfound, hrest⟩ := exec_resolve_succ (n := n) hs hready hconf hwork
  obtain ⟨_, _, _, hbudget⟩ := u.reported_fields
  exact ⟨s.chosenDir, u, u.reported, hempty, hfull, hboth, hturn, hfound.notEmpty, hfound.notNoByte, hfound.notFull,
    exec_errReport_eq hfound.ready, hbudget.trans hfound.budget, hrest⟩

end Sys2Proof.Machine

/-!
PROOF. The interrupt handlers (44_interrupt_handlers.md): what each does when taken (R211, R212), what both leave to the
main context (R213), and that no other agent but `RESET` and the environment touches the serial boundary (R210;
20_memory.md R69).
-/

namespace Sys2Proof.Machine

/-! ### What a handler does when taken -/

theorem ringPush_of_full {r : Dir} (b : Byte) {s : State}
    (hfull : ((s.ring r).endIx + 1) % s.cap r = (s.ring r).startIx) : ringPush r b s = .ok (.full, s) :=
  if_pos ((Ring.isFull_iff _ _).mpr hfull)

theorem ringPush_of_room {r : Dir} (b : Byte) {s : State} (hend : (s.ring r).endIx < s.cap r)
    (hroom : ((s.ring r).endIx + 1) % s.cap r ≠ (s.ring r).startIx) :
    ringPush r b s = .ok (.ok, s.setRing r
      ⟨(s.ring r).startIx, ((s.ring r).endIx + 1) % s.cap r, (s.ring r).buf.write (s.ring r).endIx b⟩) := by
  rw [ringPush, if_neg (mt (Ring.isFull_iff _ _).mp hroom), if_pos hend]
  rfl

theorem ringPop_of_empty {r : Dir} {s : State} (hempty : (s.ring r).startIx = (s.ring r).endIx) :
    ringPop r s = .ok (none, s) :=
  if_pos ((Ring.isEmpty_iff _).mpr hempty)

theorem ringPop_of_held {r : Dir} {s : State} (hstart : (s.ring r).startIx < s.cap r)
    (hheld : (s.ring r).startIx ≠ (s.ring r).endIx) :
    ringPop r s = .ok (some ((s.ring r).buf.read (s.ring r).startIx), s.setRing r
      ⟨((s.ring r).startIx + 1) % s.cap r, (s.ring r).endIx, (s.ring r).buf⟩) := by
  rw [ringPop, if_neg (mt (Ring.isEmpty_iff _).mp hheld), if_pos hstart]
  rfl

/-- Settles O40: the request is cleared by the read before the push, so it is cleared whatever the push answers. -/
theorem rxhPushesOrRecordsTheOverrun : Obligations.RxhPushesOrRecordsTheOverrun := by
  intro s hreq hie hend
  have htaken : exec .rxh s = outcomeOf (actRxh s) := execRxh_of_taken hreq hie
  rw [htaken, actRxh, uartRead_pending s hreq]
  refine ⟨fun hroom => ?_, fun hfull => ?_⟩
  · rw [ringPush_of_room (r := .inbound) s.rxByte (s := { s with rxReq := false }) hend hroom]
    rfl
  · rw [ringPush_of_full (r := .inbound) s.rxByte (s := { s with rxReq := false }) hfull]
    rfl

/-- Settles O41: the pop decides; only a byte popped is written, and only the write clears the request. -/
theorem txhSendsOrStopsTheTransmitter : Obligations.TxhSendsOrStopsTheTransmitter := by
  intro s hreq hie hstart
  have htaken : exec .txh s = outcomeOf (actTxh s) := execTxh_of_taken hreq hie
  rw [htaken, actTxh]
  refine ⟨fun hheld => ?_, fun hempty => ?_⟩
  · rw [ringPop_of_held (r := .outbound) hstart hheld]
    rfl
  · rw [ringPop_of_empty (r := .outbound) hempty]
    rfl

/-! ### What the handlers leave alone -/

theorem execRxh_writes {s t : State} (h : execRxh s = .next t) :
    ∃ x, t = s.withReceive x ∧ (x.lastError = s.lastError ∨ x.lastError = s.cfg.errBufferFull) := by
  obtain ⟨htaken, hact⟩ := takeHandler_eq_next h
  rcases actRxh_cases (Bool.and_eq_true_iff.mp htaken).1 hact with ⟨_, rfl⟩ | ⟨_, _, rfl⟩
  · exact ⟨⟨s.inRing, s.cfg.errBufferFull, false, .full⟩, rfl, .inr rfl⟩
  · exact ⟨⟨_, s.lastError, false, .ok⟩, rfl, .inl rfl⟩

theorem execTxh_writes {s t : State} (h : execTxh s = .next t) : ∃ y, t = s.withTransmit y :=
  actTxh_writes (takeHandler_eq_next h).2

/-- Settles O54: what the main context works with is on neither handler's side, and on the receive side the flag is
kept or set. -/
theorem handlersLeaveTheMainContextAlone : Obligations.HandlersLeaveTheMainContextAlone := by
  rintro i s t (rfl | rfl) h
  · obtain ⟨x, rfl, hflag⟩ := execRxh_writes h
    exact ⟨rfl, rfl, rfl, rfl, rfl, rfl, rfl, rfl, rfl, hflag⟩
  · obtain ⟨y, rfl⟩ := execTxh_writes h
    exact ⟨rfl, rfl, rfl, rfl, rfl, rfl, rfl, rfl, rfl, .inl rfl⟩

/-! ### The serial boundary -/

/-- What stands between the block and the serial hardware (10_state.md R41, R42): the wire trace, `rx_req`, `rx_byte`
and `tx_req`. -/
def State.serialBoundary (s : State) : List Byte × Bool × Byte × Bool := (s.wire, s.rxReq, s.rxByte, s.txReq)

theorem State.serialBoundary_eq_iff {s t : State} :
    t.serialBoundary = s.serialBoundary ↔
      t.wire = s.wire ∧ t.rxReq = s.rxReq ∧ t.rxByte = s.rxByte ∧ t.txReq = s.txReq := by
  simp [State.serialBoundary]

theorem act_serialBoundary {a : Action} {s t : State} (h : act a s = .ok t) : t.serialBoundary = s.serialBoundary := by
  cases a with
  | eval =>
    cases h
    rcases actEval_cases s with ⟨_, e⟩ | ⟨_, e⟩ <;> rw [e] <;> rfl
  | pop => rcases actPop_cases h with ⟨_, rfl⟩ | ⟨_, _, rfl⟩ <;> rfl
  | dec b =>
    obtain ⟨_, _, _, _, _, _, rfl⟩ := actDec_writes h
    rfl
  | enc1 =>
    cases h
    rcases actEnc1_cases s with ⟨_, _, e⟩ | ⟨_, _, _, _, e⟩ | ⟨_, _, e⟩ | ⟨_, _, _, e⟩ | ⟨_, _, _, e⟩ <;> rw [e] <;> rfl
  | enc2 b => rcases actEnc2_cases h with ⟨_, rfl⟩ | ⟨_, _, rfl⟩ <;> rfl
  | enc3 p =>
    cases h
    rw [actEnc3_eq]
    rfl
  | err1 l =>
    cases h
    rcases actErr1_cases l s with ⟨_, e⟩ | ⟨_, _, e⟩ | ⟨_, _, e⟩ <;> rw [e] <;> rfl
  | err2 c l =>
    cases h
    rw [actErr2_eq]
    rfl

/-- No action of the main context writes the serial boundary. -/
theorem serialBoundary_writtenOnlyBy : WrittenOnlyBy State.serialBoundary fun _ => false where
  bookkeeping _ _ _ _ _ := rfl
  leads _ _ _ _ := rfl
  act _ _ _ _ h := act_serialBoundary h

/-! ### The operations performed directly -/

theorem State.serialBoundary_setRing (s : State) (r : Dir) (v : Ring) :
    (s.setRing r v).serialBoundary = s.serialBoundary := by
  cases r <;> rfl

theorem execStart_serialBoundary {s t : State} (h : execStart s = .next t) : t.serialBoundary = s.serialBoundary := by
  unfold execStart at h
  split at h
  · obtain ⟨_, hnext⟩ := whenIdle_eq_next h
    cases hnext
    rfl
  · cases h

theorem execArbSel_serialBoundary {s t : State} (h : execArbSel s = .next t) :
    t.serialBoundary = s.serialBoundary := by
  obtain ⟨_, hnext⟩ := whenIdle_eq_next h
  cases hnext
  rfl

theorem execRbPush_serialBoundary {r : Dir} {b : Byte} {s t : State} (h : execRbPush r b s = .next t) :
    t.serialBoundary = s.serialBoundary := by
  obtain ⟨p, u, hpush, rfl⟩ := execRbPush_eq_next h
  rcases ringPush_cases hpush with ⟨_, rfl, _⟩ | ⟨_, _, _, rfl⟩
  · rfl
  · exact State.serialBoundary_setRing s r _

theorem execRbPop_serialBoundary {r : Dir} {s t : State} (h : execRbPop r s = .next t) :
    t.serialBoundary = s.serialBoundary := by
  obtain ⟨o, u, hpop, rfl⟩ := execRbPop_eq_next h
  rcases ringPop_cases hpop with ⟨_, rfl, _⟩ | ⟨_, _, _, rfl⟩
  · rfl
  · exact State.serialBoundary_setRing s r _

theorem execRbClear_serialBoundary {r : Dir} {s t : State} (h : execRbClear r s = .next t) :
    t.serialBoundary = s.serialBoundary := by
  obtain ⟨_, hnext⟩ := whenIdle_eq_next h
  cases hnext
  exact State.serialBoundary_setRing s r _

/-! ### Whole steps -/

/-- An instruction that is no handler and not `RESET`, however it is interrupted, leaves the serial boundary. -/
theorem exec_serialBoundary {i : Instr} {s t : State} (hmain : Claims.ByMain i) (hreset : i ≠ .reset)
    (h : exec i s = .next t) : t.serialBoundary = s.serialBoundary := by
  obtain ⟨hrxh, htxh⟩ := hmain
  cases i with
  | msgNoData | msgData1b | msgData2b | msgDataNb | decStep | inTurn | encStep | errReport =>
    exact serialBoundary_writtenOnlyBy.invoke (fun _ _ => rfl) h
  | resolve n => exact serialBoundary_writtenOnlyBy.execResolve rfl h
  | reset => exact absurd rfl hreset
  | start => exact execStart_serialBoundary h
  | rxh => exact absurd rfl hrxh
  | txh => exact absurd rfl htxh
  | rbPush r b => exact execRbPush_serialBoundary h
  | rbPop r => exact execRbPop_serialBoundary h
  | rbClear r => exact execRbClear_serialBoundary h
  | arbSel => exact execArbSel_serialBoundary h

/-- The environment writes no byte to the wire; only an arrival writes the receive side, and only a ready transmitter
its request. -/
theorem envMove_serial {m : EnvMove} {s t : State} (h : envMove m s = .next t) :
    t.wire = s.wire ∧ ((∀ b, m ≠ .rx b) → t.rxReq = s.rxReq ∧ t.rxByte = s.rxByte) ∧
      (m ≠ .txRdy → t.txReq = s.txReq) := by
  cases m with
  | rx b =>
    simp only [envMove] at h
    split at h <;> cases h
    exact ⟨rfl, fun hno => absurd rfl (hno b), fun _ => rfl⟩
  | txRdy =>
    simp only [envMove] at h
    split at h <;> cases h
    exact ⟨rfl, fun _ => ⟨rfl, rfl⟩, fun hno => absurd rfl hno⟩
  | oqPush | iqPop | configured =>
    simp only [envMove] at h
    split at h <;> cases h
    exact ⟨rfl, fun _ => ⟨rfl, rfl⟩, fun _ => rfl⟩

/-- A step that invokes no instruction leaves the serial boundary, or is the environment's move at the head of the
schedule. -/
theorem step_serialBoundary_or_env {s t : State} (hs : Claims.InvokesNothing s) (h : step s = .next t) :
    t.serialBoundary = s.serialBoundary ∨
      ∃ m q rest, s.agenda = ⟨.env m, q⟩ :: rest ∧ envMove m { s with agenda := rest, quantum := q } = .next t := by
  have hgoOn (g : List Turn) (q : Option Nat) (hgo : goOn { s with agenda := g, quantum := q } = .next t) :
      t.serialBoundary = s.serialBoundary :=
    serialBoundary_writtenOnlyBy.goOn (s := { s with agenda := g, quantum := q }) (fun _ _ => rfl) hgo
  unfold step at h
  split at h
  · exact .inl (hgoOn s.agenda none h)
  · rename_i u rest hagenda
    obtain ⟨e, q⟩ := u
    cases e with
    | invoke w => exact absurd hagenda (hs w q rest)
    | env m => exact .inr ⟨m, q, rest, hagenda, h⟩
    | resume => exact .inl (hgoOn rest q h)

/-- Settles O52: no action of the main context writes the boundary, so a step without an instruction does so only as
the environment's own move, and an instruction only as a handler or `RESET`. -/
theorem onlyHandlersTouchTheDataRegisters : Obligations.OnlyHandlersTouchTheDataRegisters := by
  refine ⟨fun s t h hs => ?_, fun i s t h => ?_⟩
  · rcases step_serialBoundary_or_env hs h with hsame | ⟨m, q, rest, hagenda, hm⟩
    · obtain ⟨hwire, hrxReq, hrxByte, htxReq⟩ := State.serialBoundary_eq_iff.mp hsame
      exact ⟨hwire, fun _ => ⟨hrxReq, hrxByte⟩, fun _ => htxReq⟩
    · obtain ⟨hwire, hreceive, htransmit⟩ := envMove_serial hm
      exact ⟨hwire, fun hno => hreceive fun b e => hno b q rest (e ▸ hagenda),
        fun hno => htransmit fun e => hno q rest (e ▸ hagenda)⟩
  · by_cases hrxh : i = .rxh
    · subst hrxh
      obtain ⟨x, rfl, _⟩ := execRxh_writes h
      exact ⟨fun _ => rfl, fun hno => absurd rfl hno, fun _ _ => rfl, rfl⟩
    by_cases htxh : i = .txh
    · subst htxh
      obtain ⟨y, rfl⟩ := execTxh_writes h
      exact ⟨fun hno => absurd rfl hno, fun _ _ => rfl, fun hno => absurd rfl hno, rfl⟩
    by_cases hreset : i = .reset
    · subst hreset
      cases h
      exact ⟨fun _ => rfl, fun _ hno => absurd rfl hno, fun _ hno => absurd rfl hno, rfl⟩
    obtain ⟨hwire, hrxReq, hrxByte, htxReq⟩ :=
      State.serialBoundary_eq_iff.mp (exec_serialBoundary ⟨hrxh, htxh⟩ hreset h)
    exact ⟨fun _ => hwire, fun _ _ => hrxReq, fun _ _ => htxReq, hrxByte⟩

end Sys2Proof.Machine

/-!
PROOF. The sticky flag and what stands where a processor takes an exception (60_exceptions.md): who clears
`last_error` (R226), when a handler is taken (R231, R232), and the step that finds nothing to do (R245).
-/

namespace Sys2Proof.Machine

open Claims (reports)

/-! ### What an action writes to the flag -/

theorem decFinish_lastError (s : State) :
    (decFinish s).lastError = s.lastError ∨ (decFinish s).lastError = s.cfg.errQueueRejected := by
  unfold decFinish
  split
  · rcases decDeliver_cases s with ⟨_, e⟩ | ⟨_, e⟩ <;> rw [e]
    · exact .inl rfl
    · exact .inr rfl
  · exact .inl rfl

theorem actDec_lastError {b : Byte} {s t : State} (h : actDec b s = .ok t) :
    t.lastError = s.lastError ∨ t.lastError = s.cfg.errQueueRejected := by
  obtain ⟨u, hplace, rfl⟩ := actDec_cases h
  rcases decPlace_cases hplace with ⟨_, rfl⟩ | ⟨_, _, rfl⟩ | ⟨_, _, _, rfl⟩ <;> exact decFinish_lastError _

/-- An action that is not of the report, nor the loop, keeps the flag or overwrites it with one of the two codes. -/
theorem act_lastError {a : Action} {s t : State} (ha : reports a = false) (h : act a s = .ok t) :
    t.lastError = s.lastError ∨ t.lastError = s.cfg.errBufferFull ∨ t.lastError = s.cfg.errQueueRejected := by
  cases a with
  | eval | err1 | err2 => cases ha
  | pop => rcases actPop_cases h with ⟨_, rfl⟩ | ⟨_, _, rfl⟩ <;> exact .inl rfl
  | dec b => exact (actDec_lastError h).imp_right .inr
  | enc1 =>
    cases h
    rcases actEnc1_cases s with ⟨_, _, e⟩ | ⟨_, _, _, _, e⟩ | ⟨_, _, e⟩ | ⟨_, _, _, e⟩ | ⟨_, _, _, e⟩ <;> rw [e] <;>
      exact .inl rfl
  | enc2 b =>
    rcases actEnc2_cases h with ⟨_, rfl⟩ | ⟨_, _, rfl⟩
    · exact .inr (.inl rfl)
    · exact .inl rfl
  | enc3 p =>
    cases h
    rw [actEnc3_eq]
    exact .inl rfl

/-- A set flag that is kept, or overwritten with a code, is set: neither code is 0 (00_scope.md R8). -/
theorem flag_set_of_kept_or_code {c : Params} {old new : Byte} (hold : old ≠ 0x00#8)
    (hnew : new = old ∨ new = c.errBufferFull ∨ new = c.errQueueRejected) : new ≠ 0x00#8 := by
  rcases hnew with rfl | rfl | rfl
  · exact hold
  · exact c.errBufferFull_ne_zero
  · exact c.errQueueRejected_ne_zero

/-! ### The main context -/

/-- The flag is set, and no action that clears it, or leads to one that does, is owed. -/
structure State.FlagHeld (s : State) : Prop where
  set : s.lastError ≠ 0x00#8
  unowed : ∀ a ∈ s.todo, reports a = false

theorem Action.LeadsTo.reports_eq_false {a b : Action} (h : a.LeadsTo b) (ha : reports a = false) :
    reports b = false := by
  cases h with
  | eval | err1 => cases ha
  | pop | enc1 | enc2 => rfl

theorem act_flagHeld {a : Action} {rest : List Action} {s t : State} (htodo : s.todo = a :: rest) (hs : s.FlagHeld)
    (h : act a { s with todo := rest } = .ok t) : t.FlagHeld := by
  obtain ⟨ha, hrest⟩ := List.forall_mem_cons.mp (htodo ▸ hs.unowed)
  obtain ⟨as, ht, hleads⟩ := act_leadsTo h
  have hwritten := act_lastError ha h
  refine ⟨flag_set_of_kept_or_code hs.set hwritten, fun b hb => ?_⟩
  rcases List.mem_append.mp (ht ▸ hb) with hb | hb
  · exact (hleads b hb).reports_eq_false ha
  · exact hrest b hb

theorem goOn_flagHeld {s t : State} (hs : s.FlagHeld) (h : goOn s = .next t) : t.FlagHeld :=
  runMain_keeps (fun _ _ _ _ htodo hu hact => act_flagHeld htodo hu hact) _ hs (goOn_eq_next.mp h)

/-- An operation that owes no action of the report leaves a set flag set, however it is interrupted. -/
theorem invoke_flag_set {as : List Action} {s t : State} (has : ∀ a ∈ as, reports a = false)
    (hs : s.lastError ≠ 0x00#8) (h : invoke as s = .next t) : t.lastError ≠ 0x00#8 := by
  obtain ⟨hidle, hgo⟩ := whenIdle_eq_next h
  exact (goOn_flagHeld (s := s.owe as) ⟨by simpa using hs, by simpa [hidle] using has⟩ hgo).set

/-! ### The other agents -/

theorem envMove_lastError {m : EnvMove} {s t : State} (h : envMove m s = .next t) : t.lastError = s.lastError := by
  cases m with
  | rx | txRdy | oqPush | iqPop | configured =>
    simp only [envMove] at h
    split at h <;> cases h
    rfl

theorem execRxh_flag_set {s t : State} (hs : s.lastError ≠ 0x00#8) (h : execRxh s = .next t) :
    t.lastError ≠ 0x00#8 := by
  obtain ⟨x, rfl, hflag⟩ := execRxh_writes h
  exact flag_set_of_kept_or_code hs (hflag.imp_right .inl)

theorem execTxh_lastError {s t : State} (h : execTxh s = .next t) : t.lastError = s.lastError := by
  obtain ⟨y, rfl⟩ := execTxh_writes h
  rfl

/-- The operations of the main context that owe no action: `START`, the ring primitives and `ARB_SEL` performed
directly. -/
inductive OwesNoAction : Instr → Prop
  | start : OwesNoAction .start
  | rbPush (r : Dir) (b : Byte) : OwesNoAction (.rbPush r b)
  | rbPop (r : Dir) : OwesNoAction (.rbPop r)
  | rbClear (r : Dir) : OwesNoAction (.rbClear r)
  | arbSel : OwesNoAction .arbSel

theorem OwesNoAction.lastError_eq {i : Instr} {s t : State} (hi : OwesNoAction i) (h : exec i s = .next t) :
    t.lastError = s.lastError := by
  cases hi with
  | start =>
    simp only [exec, execStart] at h
    split at h
    · obtain ⟨_, hnext⟩ := whenIdle_eq_next h
      cases hnext
      rfl
    · cases h
  | rbPush r b =>
    obtain ⟨p, u, hpush, rfl⟩ := execRbPush_eq_next h
    rcases ringPush_cases hpush with ⟨_, rfl, _⟩ | ⟨_, _, _, rfl⟩ <;> simp
  | rbPop r =>
    obtain ⟨o, u, hpop, rfl⟩ := execRbPop_eq_next h
    rcases ringPop_cases hpop with ⟨_, rfl, _⟩ | ⟨_, _, _, rfl⟩ <;> simp
  | rbClear r =>
    obtain ⟨_, hnext⟩ := whenIdle_eq_next h
    cases hnext
    simp [ringClear]
  | arbSel =>
    obtain ⟨_, hnext⟩ := whenIdle_eq_next h
    cases hnext
    rfl

/-! ### Whole steps -/

/-- An instruction other than the report, `RESOLVE` and `RESET`, however it is interrupted, leaves a set flag set. -/
theorem exec_flag_set {i : Instr} {s t : State} (hreport : i ≠ .errReport) (hresolve : ∀ n, i ≠ .resolve n)
    (hreset : i ≠ .reset) (hs : s.lastError ≠ 0x00#8) (h : exec i s = .next t) : t.lastError ≠ 0x00#8 := by
  cases i with
  | msgNoData | msgData1b | msgData2b | msgDataNb =>
    exact invoke_flag_set (List.forall_mem_map.mpr fun _ _ => rfl) hs h
  | decStep | inTurn | encStep => exact invoke_flag_set (List.forall_mem_singleton.mpr rfl) hs h
  | errReport => exact absurd rfl hreport
  | resolve n => exact absurd rfl (hresolve n)
  | reset => exact absurd rfl hreset
  | rxh => exact execRxh_flag_set hs h
  | txh => exact execTxh_lastError h ▸ hs
  | start | rbPush | rbPop | rbClear | arbSel => exact OwesNoAction.lastError_eq (by constructor) h ▸ hs

/-- Without an instruction a set flag stays set, unless an action of the report, or one that leads to it, is owed. -/
theorem step_flag_set {s t : State} (hnone : Claims.InvokesNothing s) (hs : s.FlagHeld) (h : step s = .next t) :
    t.lastError ≠ 0x00#8 := by
  obtain ⟨g, q, ⟨m, hm⟩ | hgo⟩ := step_of_invokesNothing hnone h
  · exact envMove_lastError hm ▸ hs.set
  · exact (goOn_flagHeld (s := { s with agenda := g, quantum := q }) ⟨hs.set, hs.unowed⟩ hgo).set

/-- Settles O53: the actions and agents apart from the report and `RESET` write nothing to the flag but the two codes,
and an action of the report is owed only by the report and `RESOLVE`. -/
theorem onlyTheErrorReportClearsTheFlag : Obligations.OnlyTheErrorReportClearsTheFlag :=
  ⟨fun _ _ h hnone hs hunowed => step_flag_set hnone ⟨hs, hunowed⟩ h,
    fun _ _ _ h hs hreport hresolve hreset => exec_flag_set hreport hresolve hreset hs h⟩

/-! ### The idle step, and the handler that is not taken -/

/-- With an empty schedule the main context goes on, with no quantum. -/
theorem step_of_agenda_nil {s : State} (h : s.agenda = []) : step s = goOn { s with quantum := none } := by
  have hrun : step s = runUnscheduled s := by rw [step, h]
  exact hrun

theorem goOn_of_idle {s : State} (h : s.todo = []) : goOn s = .next s := by
  rw [goOn, runMain_idle _ h, outcomeOf_ok]

/-- Settles O8: nothing is scheduled, so the main context goes on, and it owes nothing. -/
theorem idleStepChangesNothing : Obligations.IdleStepChangesNothing :=
  fun _ hagenda hidle => (step_of_agenda_nil hagenda).trans (goOn_of_idle hidle)

theorem takeHandler_of_not_taken {taken : Bool} (handler : State → Except Fault State) (s : State)
    (h : taken = false) : takeHandler taken handler s = .refused .handlerNotEnabled :=
  if_neg (Bool.eq_false_iff.mp h)

/-- Settles O42: a request that is not pending, or not enabled, is not taken. -/
theorem handlersRunOnlyPendingAndEnabled : Obligations.HandlersRunOnlyPendingAndEnabled :=
  fun s => ⟨fun h => takeHandler_of_not_taken actRxh s (Bool.and_eq_false_iff.mpr h),
    fun h => takeHandler_of_not_taken actTxh s (Bool.and_eq_false_iff.mpr h)⟩

end Sys2Proof.Machine

/-!
PROOF. `RESET` and `START` (70_reset_and_hazards.md R260, R263), and the race of R274: the report's last action clears
whatever the flag holds by then.
-/

namespace Sys2Proof.Machine

/-! ### Reset and start -/

/-- Settles O45: every item of 10_state.md R50 is a field `resetBlock` writes, and the rest are fields it keeps. -/
theorem resetLeavesTheInitialState : Obligations.ResetLeavesTheInitialState :=
  fun s => ⟨(resetBlock s).ended .ok, rfl, by simp [resetBlock]⟩

/-- Settles O46: the guard on the configuration, then the one on the main context. -/
theorem startEnablesReceiveOnly : Obligations.StartEnablesReceiveOnly :=
  fun _ => ⟨fun hconf hidle => (if_pos hconf).trans (whenIdle_of_idle hidle _),
    fun hconf => if_neg (Bool.eq_false_iff.mp hconf)⟩

/-! ### The overrun between the report's read and its clear -/

/-- A full ring has no slot to reach, so `RXH` records the overrun wherever the producer's index stands. -/
theorem exec_rxh_of_full {s : State} (hreq : s.rxReq = true) (hie : s.rxIe = true)
    (hfull : (s.inRing.endIx + 1) % s.cfg.cIn = s.inRing.startIx) :
    exec .rxh s = .next { s with rxReq := false, rxResult := .full, lastError := s.cfg.errBufferFull } := by
  have htaken : exec .rxh s = outcomeOf (actRxh s) := execRxh_of_taken hreq hie
  rw [htaken, actRxh, uartRead_pending s hreq,
    ringPush_of_full (r := .inbound) s.rxByte (s := { s with rxReq := false }) hfull]
  rfl

/-- A slice of one action is that action. -/
theorem goOn_of_slice_one {s t : State} {a : Action} {rest : List Action} (hquantum : s.quantum = some 1)
    (htodo : s.todo = a :: rest) (hact : act a { s with todo := rest } = .ok t) : goOn s = .next t := by
  rw [goOn, State.slice_some s 1 hquantum, runMain_succ 0 htodo, hact]
  rfl

/-- A main context that goes on for the report's clear alone: the flag is cleared, and of the rest only the budget and
the result are written. -/
theorem step_resume_err2 {s : State} {c : Byte} {l : Bool} {rest : List Action} {later : List Turn}
    (hagenda : s.agenda = ⟨.resume, some 1⟩ :: later) (htodo : s.todo = .err2 c l :: rest) :
    step s = .next
      { s with
        agenda := later, quantum := some 1, todo := rest, lastError := 0x00#8
        budget := if l then s.budget - 1 else s.budget, result := .ok } := by
  rw [step_scheduled hagenda, runEvent]
  exact goOn_of_slice_one rfl htodo (congrArg Except.ok (actErr2_eq c l _))

/-- Settles O44: the handler leaves what is owed as it is, and the clear owed next does not look at the flag. -/
theorem overrunBetweenReadAndClearIsLost : Obligations.OverrunBetweenReadAndClearIsLost := by
  intro s c l rest later q htodo hreq hie hfull hagenda
  have hoverrun := (step_scheduled hagenda).trans <|
    (runEvent_invoke (i := .rxh) rfl _).trans (exec_rxh_of_full hreq hie hfull)
  exact ⟨_, _, hoverrun, rfl, rfl, step_resume_err2 rfl htodo, rfl, rfl, rfl⟩

end Sys2Proof.Machine
